-- ==== Sys2Proof/Word.lean ====
section
/-! DEFINITION. Word.lean: the byte type and the one arithmetic test the whole model shares.
The widths of chunks, words and addresses are parameters of an instance (spec/00_scope.md R6), so the words
themselves are `BitVec cfg.w`, `BitVec cfg.wordBits` and `BitVec cfg.addrBits`. -/

namespace Sys2Proof

/-- One byte of the bus address space (spec/10_state.md R36). -/
abbrev Byte := BitVec 8

/-- `isPow2(n)` of R11: true exactly when `n` is 1, 2, 4, 8, ...; `isPow2(0)` is false. -/
def isPow2 (n : Nat) : Bool := 2 ^ Nat.log2 n == n

end Sys2Proof
end

