-- ==== Sys2Proof/Config.lean ====
section
/-! DEFINITION. Config.lean: the parameters of an instance, their constraints, the derived constants, and the
free values. Everything here is fixed for a machine ("no runtime mutability", spec/00_scope.md R6). -/

namespace Sys2Proof

/-- The constraints R8 puts on the three parameters. -/
def configCheck (w wordBits addrBits : Nat) : Bool :=
  isPow2 w && decide (8 ≤ w) && isPow2 wordBits && decide (w ≤ wordBits) && decide (wordBits % w = 0) &&
    decide (Nat.log2 (wordBits / 8) ≤ addrBits) && decide (addrBits ≤ wordBits)

/-- An instance of the hardware: the three parameters of R6 with the proof that R8 holds of them, so that no
instance exists for a triple that breaks a constraint (R241), and the parameter `lenBytesWraps` of
spec/93_implementation_defined.md U10 (log 11). -/
structure Config where
  /-- `w`, the chunk width in bits. -/
  w : Nat
  /-- `wordBits`, the bus word width in bits. -/
  wordBits : Nat
  /-- `addrBits`, the physical address width in bits. -/
  addrBits : Nat
  /-- U10: whether `remaining + 1` is computed in `wordBits` bits; false is the spec's own rule R156. -/
  lenBytesWraps : Bool
  /-- R8. -/
  ok : configCheck w wordBits addrBits = true
deriving DecidableEq, Repr

/-- R240: the one error of construction; the spec gives it no code. -/
inductive ConfigError where
  /-- Raised by `Config.construct` for a parameter triple that breaks R8. Safe: no machine exists. -/
  | configError
deriving DecidableEq, Repr

namespace Config

/-- R241: the constructor takes `(w, wordBits, addrBits)` and returns an instance or `ConfigError`. -/
def construct (w wordBits addrBits : Nat) : Except ConfigError Config :=
  if h : configCheck w wordBits addrBits = true then .ok ⟨w, wordBits, addrBits, false, h⟩
  else .error .configError

/-- The same instance with the variant of U10 (log 11). -/
def withLenBytesWraps (cfg : Config) : Config := { cfg with lenBytesWraps := true }

/-- R7: chunks per word. -/
abbrev N (cfg : Config) : Nat := cfg.wordBits / cfg.w

/-- R7: bytes per chunk. -/
abbrev c (cfg : Config) : Nat := cfg.w / 8

/-- R7: bytes per word. -/
abbrev W (cfg : Config) : Nat := cfg.wordBits / 8

/-- R7: bits of the sub-word byte offset. -/
def offBits (cfg : Config) : Nat := Nat.log2 cfg.W

/-- R7: bits of the byte offset inside a chunk. -/
def cOffBits (cfg : Config) : Nat := Nat.log2 cfg.c

/-- R7: bits of the cursor, 0 when `N = 1`. -/
def idxBits (cfg : Config) : Nat := Nat.log2 cfg.N

/-- R9: CFG-A, 32-bit chunks, 64-bit words, 32-bit addresses. -/
def cfgA : Config := ⟨32, 64, 32, false, by decide⟩

/-- R9: CFG-B, 8-bit chunks, 32-bit words, 16-bit addresses. -/
def cfgB : Config := ⟨8, 32, 16, false, by decide⟩

/-- R9: CFG-C, one chunk per word. -/
def cfgC : Config := ⟨64, 64, 32, false, by decide⟩

/-- The free values of the model, one for each draw (log 8, 9): the byte lanes whose content the spec leaves
open. No body: nothing can evaluate it or prove a value of it. -/
opaque freeByte : Nat → Byte

theorem check_parts (cfg : Config) :
    isPow2 cfg.w = true ∧ 8 ≤ cfg.w ∧ isPow2 cfg.wordBits = true ∧ cfg.w ≤ cfg.wordBits ∧
      cfg.wordBits % cfg.w = 0 ∧ Nat.log2 (cfg.wordBits / 8) ≤ cfg.addrBits ∧ cfg.addrBits ≤ cfg.wordBits := by
  have h := cfg.ok
  simp only [configCheck, Bool.and_eq_true, decide_eq_true_eq] at h
  obtain ⟨⟨⟨⟨⟨⟨h1, h2⟩, h3⟩, h4⟩, h5⟩, h6⟩, h7⟩ := h
  exact ⟨h1, h2, h3, h4, h5, h6, h7⟩

theorem w_pos (cfg : Config) : 0 < cfg.w := Nat.lt_of_lt_of_le (by decide) cfg.check_parts.2.1

theorem N_pos (cfg : Config) : 0 < cfg.N := Nat.div_pos cfg.check_parts.2.2.2.1 cfg.w_pos

/-- `N * w = wordBits`: the chunks of a word fill it exactly (R7, R8). -/
theorem N_mul_w (cfg : Config) : cfg.N * cfg.w = cfg.wordBits :=
  Nat.div_mul_cancel (Nat.dvd_of_mod_eq_zero cfg.check_parts.2.2.2.2.1)

/-- A power of two that is at least 8 is a multiple of 8. -/
theorem eight_mul_of_isPow2 {n : Nat} (h : isPow2 n = true) (h8 : 8 ≤ n) : 8 * (n / 8) = n := by
  have hn : 2 ^ Nat.log2 n = n := by simpa [isPow2] using h
  have h3 : 3 ≤ Nat.log2 n := by
    by_contra hlt
    have : 2 ^ Nat.log2 n ≤ 2 ^ 2 := Nat.pow_le_pow_right (by decide) (by omega)
    omega
  have : 8 ∣ n := by
    rw [← hn]
    exact pow_dvd_pow 2 h3
  exact Nat.mul_div_cancel' this

/-- `8 * c = w`: a chunk is whole bytes (R7, R8). -/
theorem eight_mul_c (cfg : Config) : 8 * cfg.c = cfg.w :=
  eight_mul_of_isPow2 cfg.check_parts.1 cfg.check_parts.2.1

theorem eight_le_wordBits (cfg : Config) : 8 ≤ cfg.wordBits :=
  Nat.le_trans cfg.check_parts.2.1 cfg.check_parts.2.2.2.1

/-- `8 * W = wordBits`: a word is whole bytes (R7, R8). -/
theorem eight_mul_W (cfg : Config) : 8 * cfg.W = cfg.wordBits :=
  eight_mul_of_isPow2 cfg.check_parts.2.2.1 cfg.eight_le_wordBits

theorem c_pos (cfg : Config) : 0 < cfg.c := by have := cfg.eight_mul_c; have := cfg.w_pos; omega

theorem W_pos (cfg : Config) : 0 < cfg.W := by have := cfg.eight_mul_W; have := cfg.eight_le_wordBits; omega

/-- `N * c = W` (R7). -/
theorem N_mul_c (cfg : Config) : cfg.N * cfg.c = cfg.W := by
  have h1 := cfg.N_mul_w
  have h2 := cfg.eight_mul_c
  have h3 := cfg.eight_mul_W
  have : 8 * (cfg.N * cfg.c) = 8 * cfg.W := by
    rw [h3, ← h1, ← Nat.mul_assoc, Nat.mul_comm 8, Nat.mul_assoc, h2]
  exact Nat.eq_of_mul_eq_mul_left (by decide) this

end Config

end Sys2Proof
end

