-- ==== Sys2Proof/Syntax.lean ====
section
/-! DEFINITION. Syntax.lean: the two commands as data, one constructor for each row of spec/opcode_table.json
(R2: "It has exactly two commands, Read and Write"; R10: an instruction is one serial command frame).
The fields are numbers, as the notation of R92 writes them; WellFormed.lean says which of them are frames. -/

namespace Sys2Proof

inductive Instr where
  /-- `READ Address, Len` (R110): read `Len + 1` chunks from consecutive addresses and send them to the host. -/
  | read (address len : Nat)
  /-- `WRITE Address, Len, [D0..DLen]` (R111): write `Len + 1` chunks from the host to consecutive addresses. -/
  | write (address len : Nat) (data : List Nat)
deriving DecidableEq, Repr

end Sys2Proof
end

