-- ==== Sys2Proof/WellFormed.lean ====
section
/-! DEFINITION. WellFormed.lean: which terms of Instr are frames of an instance (R80, R83, R84, R86).
Nothing is asked of the VALUE of an Address or a Length: "No Address value and no Length value is illegal" (R89). -/

namespace Sys2Proof

/-- An Address or a Length is a `wordBits`-bit unsigned number (R83, R84). -/
def fieldFits (cfg : Config) (v : Nat) : Bool := decide (v < 2 ^ cfg.wordBits)

/-- A data chunk is a `w`-bit number (R80, R92). -/
def chunkFits (cfg : Config) (v : Nat) : Bool := decide (v < 2 ^ cfg.w)

/-- R80: a READ frame has no data chunks, a WRITE frame has exactly `Len + 1`. -/
def Instr.wellFormed (cfg : Config) : Instr → Bool
  | .read address len => fieldFits cfg address && fieldFits cfg len
  | .write address len data =>
    fieldFits cfg address && fieldFits cfg len && decide (data.length = len + 1) && data.all (chunkFits cfg)

end Sys2Proof
end

