-- ==== Sys2Proof/Decode.lean ====
section
/-! DEFINITION. Decode.lean: frames as chunks. A decoder that is total on any chunk list and rejects by name, the
encoder of R94, the pseudo-forms of R93, and the reading of a word of spec/opcode_table.json. -/

namespace Sys2Proof

/-- R87: the `CMD` value of READ. -/
def readCode : Nat := 0

/-- R87: the `CMD` value of WRITE. -/
def writeCode : Nat := 1

/-- Why a chunk list does not begin with a frame of a command. Nothing here is a behaviour of the hardware: the
CORE interprets every chunk by its phase (R90). -/
inductive DecodeError where
  /-- No chunk is there. -/
  | noChunk
  /-- Fewer than the `1 + 2N` chunks of a header are there. -/
  | truncatedHeader
  /-- The header is whole and its `CMD` value is neither 0 nor 1 (R88). -/
  | unrecognisedCommand (cmd : Nat)
  /-- The header of a WRITE is whole and fewer than `Len + 1` data chunks follow. -/
  | truncatedData
deriving DecidableEq, Repr

/-- R83, R84: the value of a field from its chunks, the first chunk least significant:
`sum over i of A[i] * 2^(i*w)`. -/
def fieldValue (cfg : Config) : List (BitVec cfg.w) → Nat
  | [] => 0
  | x :: xs => x.toNat + 2 ^ cfg.w * fieldValue cfg xs

/-- Chunk `i` of a number: `v[(i+1)*w-1 : i*w]` (R94). -/
def chunkOf (cfg : Config) (v i : Nat) : BitVec cfg.w := BitVec.ofNat cfg.w (v / 2 ^ (i * cfg.w))

/-- The `N` chunks of a field, least significant first (R94). -/
def fieldChunks (cfg : Config) (v : Nat) : List (BitVec cfg.w) := (List.range cfg.N).map (chunkOf cfg v)

/-- The command that a chunk list begins with, and the chunks after its frame (R80, R81, R87). -/
def decode (cfg : Config) (q : List (BitVec cfg.w)) : Except DecodeError (Instr × List (BitVec cfg.w)) :=
  match q with
  | [] => .error .noChunk
  | cmd :: q =>
    if q.length < 2 * cfg.N then .error .truncatedHeader
    else
      let address := fieldValue cfg (q.take cfg.N)
      let len := fieldValue cfg ((q.drop cfg.N).take cfg.N)
      let rest := q.drop (2 * cfg.N)
      if cmd.toNat = readCode then .ok (.read address len, rest)
      else if cmd.toNat = writeCode then
        if rest.length < len + 1 then .error .truncatedData
        else .ok (.write address len ((rest.take (len + 1)).map BitVec.toNat), rest.drop (len + 1))
      else .error (.unrecognisedCommand cmd.toNat)

/-- The header of a frame: `CMD`, `A[0..N-1]`, `L[0..N-1]` (R80, R94). -/
def encodeHeader (cfg : Config) (code address len : Nat) : List (BitVec cfg.w) :=
  BitVec.ofNat cfg.w code :: (fieldChunks cfg address ++ fieldChunks cfg len)

/-- The frame of `READ address, len` (R94). -/
def encodeRead (cfg : Config) (address len : Nat) : List (BitVec cfg.w) := encodeHeader cfg readCode address len

/-- The frame of `WRITE address, len, data` (R94). -/
def encodeWrite (cfg : Config) (address len : Nat) (data : List Nat) : List (BitVec cfg.w) :=
  encodeHeader cfg writeCode address len ++ data.map (BitVec.ofNat cfg.w)

/-- R94: the chunks of a command's frame, in order of arrival. -/
def encode (cfg : Config) : Instr → List (BitVec cfg.w)
  | .read address len => encodeRead cfg address len
  | .write address len data => encodeWrite cfg address len data

/-- R81: the number of chunks of a command's frame (spec/opcode_table.json, length_chunks). -/
def frameLength (cfg : Config) : Instr → Nat
  | .read _ _ => 2 * cfg.N + 1
  | .write _ len _ => 2 * cfg.N + 2 + len

/-- R93: `READB address, nbytes`, for a positive multiple of `c`. -/
def pseudoReadB (cfg : Config) (address nbytes : Nat) : Option Instr :=
  if 0 < nbytes ∧ nbytes % cfg.c = 0 then some (.read address (nbytes / cfg.c - 1)) else none

/-- R93: `WRITEB address, nbytes, data`, for a positive multiple of `c` and `nbytes / c` data chunks. -/
def pseudoWriteB (cfg : Config) (address nbytes : Nat) (data : List Nat) : Option Instr :=
  if 0 < nbytes ∧ nbytes % cfg.c = 0 ∧ data.length = nbytes / cfg.c then
    some (.write address (nbytes / cfg.c - 1) data)
  else none

/-- R93: `READW address`, one full word at a word-aligned address. -/
def pseudoReadW (cfg : Config) (address : Nat) : Option Instr :=
  if address % cfg.W = 0 then some (.read address (cfg.N - 1)) else none

/-- R93: `WRITEW address, word`, one full word at a word-aligned address, its chunks least significant first. -/
def pseudoWriteW (cfg : Config) (address word : Nat) : Option Instr :=
  if address % cfg.W = 0 then some (.write address (cfg.N - 1) ((fieldChunks cfg word).map BitVec.toNat)) else none

/-- The chunks of the instruction whose bits, numbered from the first chunk's least significant bit, are `bits`;
every bit at or above `nbits` is 0. A READ (or an unrecognised command) is its header; a WRITE is its header and
`Len + 1` data chunks. -/
def tableChunks (cfg : Config) (nbits bits : Nat) : List (BitVec cfg.w) :=
  let v := bits % 2 ^ nbits
  let header := (List.range (1 + 2 * cfg.N)).map (chunkOf cfg v)
  let len := fieldValue cfg (header.drop (1 + cfg.N))
  if (chunkOf cfg v 0).toNat = writeCode then
    header ++ (List.range (len + 1)).map (fun j => chunkOf cfg v (1 + 2 * cfg.N + j))
  else header

/-- The instruction the decoder reads from a word of spec/opcode_table.json. The table's match and mask have 32
bits: "the value for w = 32, CFG-A". -/
def decodeTableWord (nbits w : Nat) : Option Instr :=
  match decode Config.cfgA (tableChunks Config.cfgA nbits w) with
  | .ok (i, _) => some i
  | .error _ => none

end Sys2Proof
end

