-- ==== Sys2Proof/Machine/State.lean ====
section
/-! DEFINITION. Machine/State.lean: the eight registers of the CORE, the messages of its channels, the environment
that closes it as plain data, the machine after reset, and the reasons a step can stop. -/

namespace Sys2Proof.Machine

/-- R20: the nine values of the control state. It has no bit encoding. -/
inductive Phase where
  | command | address | length
  | writeBody | writeIssue | writeAck
  | readRequest | readData | readBody
deriving DecidableEq, Repr

/-- R51: read or write. -/
inductive BusOpcode where
  | get | put
deriving DecidableEq, Repr

/-- R51: a bus request. A Get carries no data and no mask; its record holds 0 there, as R51 says. -/
structure BusReq (cfg : Config) where
  opcode : BusOpcode
  /-- Byte address of the first byte of the access. -/
  address : BitVec cfg.addrBits
  /-- Number of bytes, a power of two in `1..W`. -/
  size : Nat
  /-- The full word; byte lane `j` in bits `[8j+7:8j]`. -/
  data : BitVec cfg.wordBits
  /-- Bit `j` is 1 when byte lane `j` is written. -/
  mask : BitVec cfg.W
deriving DecidableEq, Repr

/-- R222: one transfer on one of the four channels. -/
inductive Transfer (cfg : Config) where
  /-- A chunk taken from `serial_in`. -/
  | chunkIn (x : BitVec cfg.w)
  /-- A chunk given to `serial_out`. -/
  | chunkOut (x : BitVec cfg.w)
  /-- A request accepted on `bus_req`. -/
  | request (r : BusReq cfg)
  /-- A response taken from `bus_resp`. -/
  | response (d : BitVec cfg.wordBits)
deriving DecidableEq, Repr

/-- The whole state of the CORE: "eight registers. There is no other storage" (spec/10_state.md, R20 to R30). -/
structure Regs (cfg : Config) where
  /-- R20. -/
  phase : Phase
  /-- R21: the command chunk of the current operation, all `w` bits of it. -/
  cmd : BitVec cfg.w
  /-- R22. -/
  addr : BitVec cfg.wordBits
  /-- R23: the Length field while it is assembled, then the countdown `remaining`. -/
  len : BitVec cfg.wordBits
  /-- R25: one bus word as `N` slots of one chunk each. -/
  body : Vector (BitVec cfg.w) cfg.N
  /-- R26: bit `i` is 1 when slot `i` was written in the current word. -/
  valid : BitVec cfg.N
  /-- R27: the cursor, a value in `0..N-1`. -/
  idx : Fin cfg.N
  /-- R28: the sticky protocol-violation latch. -/
  fault : Bool
deriving DecidableEq, Repr

/-- R211: the inputs of one tick. -/
structure Inputs (cfg : Config) where
  reset : Bool
  serialInValid : Bool
  serialInBits : BitVec cfg.w
  serialOutReady : Bool
  busReqReady : Bool
  busRespValid : Bool
  busRespData : BitVec cfg.wordBits
deriving DecidableEq, Repr

/-- R210: the output ports. -/
structure Outputs (cfg : Config) where
  serialInReady : Bool
  serialOutValid : Bool
  serialOutBits : BitVec cfg.w
  busReqValid : Bool
  busReq : BusReq cfg
  busRespReady : Bool
  fault : Bool
deriving DecidableEq, Repr

/-- Which of the four handshakes the environment offers in a tick (log 5): the host a chunk it has, the host
room for a chunk, the bus room for a request, the bus a response it owes. -/
structure Offers where
  serialIn : Bool
  serialOut : Bool
  busReq : Bool
  busResp : Bool
deriving DecidableEq, Repr

/-- The environment offers everything it can. -/
def Offers.all : Offers := ⟨true, true, true, true⟩

/-- What the environment does in one tick of the script (log 5): the reset pin, and what it offers. -/
structure EnvTick where
  reset : Bool
  offers : Offers
deriving DecidableEq, Repr

/-- The bytes behind the bus that are not `unlistedByte`, by address (log 7). -/
abbrev Memory := List Host.Cell

/-- The CORE of one instance and its environment. The registers are the hardware's; every other field is the
model's own and stands for an input of R211 (R35: "inputs of the step function, not state of the CORE"). -/
structure Sys (cfg : Config) where
  /-- The CORE. -/
  regs : Regs cfg
  /-- The chunks the host has yet to hand over, oldest first (log 4). -/
  serialIn : List (BitVec cfg.w)
  /-- The transfers so far, in tick order (R222). -/
  trace : List (Transfer cfg)
  /-- The responses the bus owes, oldest first (R52, R60; log 6, 13). -/
  responses : List (BitVec cfg.wordBits)
  /-- The memory behind the bus (R60; log 7). -/
  mem : Memory
  /-- Whether this bus ever answers a Get whose address is not a multiple of its size (U3; log 9). -/
  answersMisaligned : Bool
  /-- The model's own counter: the next free value (log 10). -/
  draws : Nat
  /-- What the environment does in the next ticks (log 5). -/
  script : List EnvTick
  /-- What the environment offers in every tick after the script (log 5). -/
  steady : Offers
deriving DecidableEq, Repr

/-- A machine: the parameters of the instance (R6, held as data because the model takes them as arguments, log 1)
and the CORE of that instance with its environment. -/
structure State where
  cfg : Config
  sys : Sys cfg
deriving DecidableEq, Repr

/-- Why a step can stop with a fault. -/
inductive Fault where
  /-- Raised by `step` and by both commands' meanings when the fault latch is 1 and no reset is to come: the halt
  of R245, which is no finished run. Safe: no transition exists (R245, R249). -/
  | badCommandHalt
deriving DecidableEq, Repr

/-- Why a step can refuse. -/
inductive Refusal where
  /-- Raised by no arm: both commands have their meaning. Safe. -/
  | notModelled (mnemonic : String)
deriving DecidableEq, Repr

/-- R33: `phase = Command`, every other register 0. -/
def Regs.reset (cfg : Config) : Regs cfg where
  phase := .command
  cmd := 0#_
  addr := 0#_
  len := 0#_
  body := Vector.replicate cfg.N 0#_
  valid := 0#_
  idx := ⟨0, cfg.N_pos⟩
  fault := false

/-- An instance right after reset (R33), with an environment in which nothing has happened (log 4 to 10). -/
def Sys.reset (cfg : Config) : Sys cfg where
  regs := Regs.reset cfg
  serialIn := []
  trace := []
  responses := []
  mem := []
  answersMisaligned := true
  draws := 0
  script := []
  steady := Offers.all

/-- The machine right after reset. The instance is CFG-A (log 1). -/
def State.reset : State := ⟨Config.cfgA, Sys.reset Config.cfgA⟩

end Sys2Proof.Machine
end

