-- ==== Sys2Proof/Machine/Ops.lean ====
section
/-! DEFINITION. Machine/Ops.lean: the named operations over memory (read, write, a word of bytes), over the
environment's channels, and the one run-time fault beside the one way out of it. -/

namespace Sys2Proof.Machine

/-- What a byte of memory that no entry lists reads as (log 7). -/
def unlistedByte : Byte := 0#8

/-- The canonical form of memory: addresses strictly rising, no entry that an unlisted address would give. -/
def Memory.wf : Memory → Bool
  | [] => true
  | (a, v) :: m => decide (v ≠ unlistedByte) && m.all (fun e => decide (a < e.1)) && Memory.wf m

/-- The byte at an address. -/
def Memory.read : Memory → Nat → Byte
  | [], _ => unlistedByte
  | (k, v) :: m, a => if k = a then v else Memory.read m a

/-- Memory after a byte is written, in canonical form again. -/
def Memory.write : Memory → Nat → Byte → Memory
  | [], a, v => if v = unlistedByte then [] else [(a, v)]
  | (k, x) :: m, a, v =>
    if a < k then (if v = unlistedByte then (k, x) :: m else (a, v) :: (k, x) :: m)
    else if a = k then (if v = unlistedByte then m else (a, v) :: m)
    else (k, x) :: Memory.write m a v

/-- `n` bytes as one value, the byte at the lowest index in the least significant bits (R54, R55). -/
def ofBytesLE (width : Nat) : Nat → (Nat → Byte) → BitVec width
  | 0, _ => 0#width
  | n + 1, f => (f 0).setWidth width ||| (ofBytesLE width n (fun j => f (j + 1)) <<< 8)

/-- Byte `j` of a value: bits `[8j+7:8j]` (R54). -/
def byteOf {width : Nat} (v : BitVec width) (j : Nat) : Byte := v.extractLsb' (8 * j) 8

/-- R57: memory after the masked lanes of a word at `base` are written, lane `j` at address `base + j`; no other
byte. `n` lanes are left, the next is `j`. -/
def writeLanes {cfg : Config} (base : Nat) (data : BitVec cfg.wordBits) (mask : BitVec cfg.W) :
    Nat → Nat → Memory → Memory
  | 0, _, m => m
  | n + 1, j, m =>
    writeLanes base data mask n (j + 1) (if mask.getLsbD j then m.write (base + j) (byteOf data j) else m)

/-- `MemRead(a, c)` of R11 for the `c` bytes of a chunk: little-endian, addresses modulo `2^addrBits`. -/
def memReadChunk (cfg : Config) (m : Memory) (a : Nat) : BitVec cfg.w :=
  ofBytesLE cfg.w cfg.c (fun b => m.read ((a + b) % 2 ^ cfg.addrBits))

/-- The writes of the first `n` bytes of a value at consecutive addresses modulo `2^addrBits`, from byte `b` on. -/
def memWriteBytes (cfg : Config) {width : Nat} (a : Nat) (v : BitVec width) : Nat → Nat → Memory → Memory
  | 0, _, m => m
  | n + 1, b, m => memWriteBytes cfg a v n (b + 1) (m.write ((a + b) % 2 ^ cfg.addrBits) (byteOf v b))

/-- `MemWrite(a, c, v)` of R11 for the `c` bytes of a chunk: little-endian, addresses modulo `2^addrBits`. -/
def memWriteChunk (cfg : Config) (m : Memory) (a : Nat) (v : BitVec cfg.w) : Memory :=
  memWriteBytes cfg a v cfg.c 0 m

/-- R243: `raise BadCommand(cmd)` sets the latch. Nothing is saved, there is no handler and no mode (R248); `cmd`
keeps the offending chunk. -/
def raiseBadCommand {cfg : Config} (S : Regs cfg) : Regs cfg := { S with fault := true }

/-- R260, R261, R249: reset, the only abort and the only way out of the halt, gives the registers of R33. -/
def applyReset {cfg : Config} (_S : Regs cfg) : Regs cfg := Regs.reset cfg

/-- Chunks at the front of what the host has yet to hand over. -/
def Sys.offer {cfg : Config} (chunks : List (BitVec cfg.w)) (s : Sys cfg) : Sys cfg :=
  { s with serialIn := chunks ++ s.serialIn }

/-- The host's chunks replaced. -/
def Sys.withSerialIn {cfg : Config} (chunks : List (BitVec cfg.w)) (s : Sys cfg) : Sys cfg :=
  { s with serialIn := chunks }

/-- The trace with one more transfer. -/
def Sys.record {cfg : Config} (t : Transfer cfg) (s : Sys cfg) : Sys cfg := { s with trace := s.trace ++ [t] }

/-- The chunks given to the host so far, in order. -/
def emitted {cfg : Config} (trace : List (Transfer cfg)) : List (BitVec cfg.w) :=
  trace.filterMap fun | .chunkOut x => some x | _ => none

/-- The chunks taken from the host so far, in order. -/
def consumed {cfg : Config} (trace : List (Transfer cfg)) : List (BitVec cfg.w) :=
  trace.filterMap fun | .chunkIn x => some x | _ => none

/-- The requests the bus has accepted so far, in order. -/
def requests {cfg : Config} (trace : List (Transfer cfg)) : List (BusReq cfg) :=
  trace.filterMap fun | .request r => some r | _ => none

/-- The responses taken so far, in order. -/
def responsesTaken {cfg : Config} (trace : List (Transfer cfg)) : List (BitVec cfg.wordBits) :=
  trace.filterMap fun | .response d => some d | _ => none

end Sys2Proof.Machine
end

