-- ==== Sys2Proof/Machine/Operands.lean ====
section
/-! DEFINITION. Machine/Operands.lean: the operand forms: a chunk in its lane of a field, the slots of the word
buffer, and the address helpers of spec/42_request_builder.md section 1. -/

namespace Sys2Proof.Machine

/-- R135: `ShiftChunk(x, i)`: `x` in bits `[(i+1)*w-1 : i*w]`, zeros elsewhere. -/
def shiftChunk {cfg : Config} (x : BitVec cfg.w) (i : Nat) : BitVec cfg.wordBits :=
  x.setWidth cfg.wordBits <<< (i * cfg.w)

/-- Slot `i` of a bus word: bits `[(i+1)*w-1 : i*w]` (R54). -/
def slotBits {cfg : Config} (d : BitVec cfg.wordBits) (i : Nat) : BitVec cfg.w := d.extractLsb' (i * cfg.w) cfg.w

/-- R192: the whole response word as slots, all lanes. -/
def unpackWord {cfg : Config} (d : BitVec cfg.wordBits) : Vector (BitVec cfg.w) cfg.N :=
  Vector.ofFn (fun i => slotBits d i.val)

/-- Chunks side by side, the first in the least significant bits. -/
def packChunks {cfg : Config} : List (BitVec cfg.w) → BitVec cfg.wordBits
  | [] => 0#_
  | x :: xs => x.setWidth cfg.wordBits ||| (packChunks xs <<< cfg.w)

/-- R54, R154: the bus word `{body[N-1], ..., body[1], body[0]}`. -/
def packWord {cfg : Config} (body : Vector (BitVec cfg.w) cfg.N) : BitVec cfg.wordBits := packChunks body.toList

/-- The first slot. -/
def slotZero (cfg : Config) : Fin cfg.N := ⟨0, cfg.N_pos⟩

/-- R27: the cursor's increment, modulo `N`. -/
def nextSlot {cfg : Config} (i : Fin cfg.N) : Fin cfg.N := ⟨(i.val + 1) % cfg.N, Nat.mod_lt _ cfg.N_pos⟩

/-- `idx = N-1`: the cursor is at the last slot. -/
def isLastSlot {cfg : Config} (i : Fin cfg.N) : Bool := decide (i.val = cfg.N - 1)

/-- `a mod W`: the sub-word byte offset (R12, R156). -/
def byteOffset {cfg : Config} (a : BitVec cfg.wordBits) : Nat := a.toNat % cfg.W

theorem slotOf_lt (cfg : Config) (a : Nat) : a % cfg.W / cfg.c < cfg.N := by
  rw [Nat.div_lt_iff_lt_mul cfg.c_pos, cfg.N_mul_c]
  exact Nat.mod_lt _ cfg.W_pos

/-- R152: `SlotOf(a) = floor((a mod W) / c)`. -/
def slotOf {cfg : Config} (a : BitVec cfg.wordBits) : Fin cfg.N := ⟨byteOffset a / cfg.c, slotOf_lt cfg a.toNat⟩

/-- R150: `BusAddr(a) = a[addrBits-1:0]`. -/
def busAddr {cfg : Config} (a : BitVec cfg.wordBits) : BitVec cfg.addrBits := a.setWidth cfg.addrBits

/-- `a - (a mod W)`: the address of the word that holds `a`. -/
def wordStart {cfg : Config} (a : BitVec cfg.wordBits) : BitVec cfg.wordBits :=
  BitVec.ofNat cfg.wordBits (a.toNat - a.toNat % cfg.W)

/-- R151: `NextAddr(a) = trunc_wordBits((a - (a mod W)) + W)`. -/
def nextAddr {cfg : Config} (a : BitVec cfg.wordBits) : BitVec cfg.wordBits :=
  BitVec.ofNat cfg.wordBits ((a.toNat - a.toNat % cfg.W) + cfg.W)

/-- R153: `WordBase(a) = BusAddr(a - (a mod W))`. -/
def wordBase {cfg : Config} (a : BitVec cfg.wordBits) : BitVec cfg.addrBits := busAddr (wordStart a)

end Sys2Proof.Machine
end

