-- ==== Sys2Proof/Machine/Flags.lean ====
section
/-! DEFINITION. Machine/Flags.lean: the only condition-code-like bits of the hardware, the validity mask (R26),
and the byte mask made of it (R155). -/

namespace Sys2Proof.Machine

/-- The mask at the start of a word: no slot written (R26). -/
def emptyMask (cfg : Config) : BitVec cfg.N := 0#_

/-- R170: `valid <- valid OR (1 << idx)`. -/
def markValid {cfg : Config} (valid : BitVec cfg.N) (i : Fin cfg.N) : BitVec cfg.N :=
  valid ||| (1#cfg.N <<< i.val)

/-- The number whose bit `j` is `f j`, for `j < n`. -/
def natOfBits : Nat → (Nat → Bool) → Nat
  | 0, _ => 0
  | n + 1, f => (f 0).toNat + 2 * natOfBits n (fun j => f (j + 1))

/-- R155: `ExpandMask(valid)`: bit `i*c + b` is `valid[i]`, for every slot `i` and every `b` in `0..c-1`. -/
def expandMask {cfg : Config} (valid : BitVec cfg.N) : BitVec cfg.W :=
  BitVec.ofNat cfg.W (natOfBits cfg.W (fun j => valid.getLsbD (j / cfg.c)))

end Sys2Proof.Machine
end

