-- ==== Sys2Proof/Machine/RequestBuilder.lean ====
section
/-! DEFINITION. Machine/RequestBuilder.lean: the request builder (alignment and word-width calculator,
spec/42_request_builder.md sections 2 and 3). Pure functions of the registers. -/

namespace Sys2Proof.Machine

/-- R154: the Put request, always the full word at the word's base, with a byte mask. -/
def putReq {cfg : Config} (addr : BitVec cfg.wordBits) (body : Vector (BitVec cfg.w) cfg.N) (valid : BitVec cfg.N) :
    BusReq cfg where
  opcode := .put
  address := wordBase addr
  size := cfg.W
  data := packWord body
  mask := expandMask valid

/-- "distance from Address to the next word boundary" (R156), in `1..W`. -/
def wordDistance {cfg : Config} (addr : BitVec cfg.wordBits) : Nat := cfg.W - byteOffset addr

/-- `remaining + 1`: the chunks still wanted. A natural number, no wrap (R156), unless the instance has the variant
of U10 (log 11). -/
def chunksWanted {cfg : Config} (len : BitVec cfg.wordBits) : Nat :=
  if cfg.lenBytesWraps then (len.toNat + 1) % 2 ^ cfg.wordBits else len.toNat + 1

/-- "bytes implied by (remaining+1) chunks" (R156). -/
def lenBytes {cfg : Config} (len : BitVec cfg.wordBits) : Nat := chunksWanted len * cfg.c

/-- R156: the smaller of the distance to the next word boundary and the bytes still wanted. -/
def rawSize {cfg : Config} (addr len : BitVec cfg.wordBits) : Nat := min (wordDistance addr) (lenBytes len)

/-- R157: the Get request: `raw` bytes at the true address when `raw` is a power of two, else the full aligned
word. -/
def getReq {cfg : Config} (addr len : BitVec cfg.wordBits) : BusReq cfg where
  opcode := .get
  address := if isPow2 (rawSize addr len) then busAddr addr else wordBase addr
  size := if isPow2 (rawSize addr len) then rawSize addr len else cfg.W
  data := 0#_
  mask := 0#_

/-- R59: the bus wants `address mod size = 0`. -/
def BusReq.aligned {cfg : Config} (r : BusReq cfg) : Bool := decide (r.address.toNat % r.size = 0)

end Sys2Proof.Machine
end

