-- ==== Sys2Proof/Machine/Reassembler.lean ====
section
/-! DEFINITION. Machine/Reassembler.lean: the chunk reassembler, phases Command, Address and Length
(spec/41_chunk_reassembler.md). Each function is the transition of a tick in which `serial_in` fires with `x`. -/

namespace Sys2Proof.Machine

/-- R130: phase Command. The command value is not examined here. -/
def onCommand {cfg : Config} (x : BitVec cfg.w) (S : Regs cfg) : Regs cfg :=
  { S with cmd := x, idx := slotZero cfg, addr := 0#_, len := 0#_, phase := .address }

/-- R131: phase Address. -/
def onAddress {cfg : Config} (x : BitVec cfg.w) (S : Regs cfg) : Regs cfg :=
  let S' := { S with addr := S.addr ||| shiftChunk x S.idx.val }
  if isLastSlot S.idx then { S' with idx := slotZero cfg, phase := .length }
  else { S' with idx := nextSlot S.idx }

/-- The dispatch of R134 on the command register, all `w` bits of it compared. -/
def dispatchCommand {cfg : Config} (S : Regs cfg) : Regs cfg :=
  if S.cmd.toNat = writeCode then { S with valid := emptyMask cfg, phase := .writeBody }
  else if S.cmd.toNat = readCode then { S with phase := .readRequest }
  else raiseBadCommand S

/-- R133 and R134: phase Length; the last chunk sets the cursor to the start slot and dispatches. -/
def onLength {cfg : Config} (x : BitVec cfg.w) (S : Regs cfg) : Regs cfg :=
  let S' := { S with len := S.len ||| shiftChunk x S.idx.val }
  if isLastSlot S.idx then dispatchCommand { S' with idx := slotOf S.addr }
  else { S' with idx := nextSlot S.idx }

end Sys2Proof.Machine
end

