-- ==== Sys2Proof/Machine/WriteSequence.lean ====
section
/-! DEFINITION. Machine/WriteSequence.lean: phases WriteBody, WriteIssue and WriteAck (spec/43_write_phases.md).
Each function is the transition of a tick in which the phase's channel fires. -/

namespace Sys2Proof.Machine

/-- R170 and R171: store the chunk, mark its slot; the word is complete at the last slot or at `remaining = 0`. -/
def onWriteBody {cfg : Config} (x : BitVec cfg.w) (S : Regs cfg) : Regs cfg :=
  let S' := { S with body := S.body.set S.idx.val x S.idx.isLt, valid := markValid S.valid S.idx }
  if isLastSlot S.idx || decide (S.len = 0#_) then { S' with phase := .writeIssue }
  else { S' with idx := nextSlot S.idx, len := S.len - 1#_ }

/-- R173: the Put is accepted. -/
def onWriteIssue {cfg : Config} (S : Regs cfg) : Regs cfg := { S with phase := .writeAck }

/-- R175: the acknowledgement; the operation ends at `remaining = 0`, else the next word begins. -/
def onWriteAck {cfg : Config} (S : Regs cfg) : Regs cfg :=
  if S.len = 0#_ then { S with phase := .command }
  else { S with addr := nextAddr S.addr, idx := slotZero cfg, valid := emptyMask cfg, len := S.len - 1#_,
                phase := .writeBody }

end Sys2Proof.Machine
end

