-- ==== Sys2Proof/Machine/ReadSequence.lean ====
section
/-! DEFINITION. Machine/ReadSequence.lean: phases ReadRequest, ReadData and ReadBody (spec/44_read_phases.md).
Each function is the transition of a tick in which the phase's channel fires. -/

namespace Sys2Proof.Machine

/-- R190: the Get is accepted. -/
def onReadRequest {cfg : Config} (S : Regs cfg) : Regs cfg := { S with phase := .readData }

/-- R192: the response word is loaded whole, the cursor set, the address advanced. -/
def onReadData {cfg : Config} (d : BitVec cfg.wordBits) (S : Regs cfg) : Regs cfg :=
  { S with body := unpackWord d, idx := slotOf S.addr, addr := nextAddr S.addr, phase := .readBody }

/-- R194: `body[idx]` is emitted; the end test is on the value of `len` before the decrement and comes before the
wrap test. -/
def onReadBody {cfg : Config} (S : Regs cfg) : Regs cfg :=
  let S' := { S with idx := nextSlot S.idx, len := S.len - 1#_ }
  if S.len = 0#_ then { S' with phase := .command }
  else if isLastSlot S.idx then { S' with phase := .readRequest }
  else S'

end Sys2Proof.Machine
end

