-- ==== Sys2Proof/Machine/Ports.lean ====
section
/-! DEFINITION. Machine/Ports.lean: the output functions, the handshake and the step function of the CORE for every
value of its inputs (spec/45_ports_handshake_step.md). -/

namespace Sys2Proof.Machine

/-- R213: a channel transfers a value exactly when its valid and its ready are both 1 in the tick. -/
def fire (valid ready : Bool) : Bool := valid && ready

/-- R214: the phases that take a chunk from the host. -/
def Phase.takesChunk : Phase → Bool
  | .command | .address | .length | .writeBody => true
  | .writeIssue | .writeAck | .readRequest | .readData | .readBody => false

/-- R216: the phases that present a request. -/
def Phase.presentsRequest : Phase → Bool
  | .writeIssue | .readRequest => true
  | .command | .address | .length | .writeBody | .writeAck | .readData | .readBody => false

/-- R217: the phases that take a response. -/
def Phase.takesResponse : Phase → Bool
  | .writeAck | .readData => true
  | .command | .address | .length | .writeBody | .writeIssue | .readRequest | .readBody => false

/-- R216: the request record of a tick. -/
def presentedRequest {cfg : Config} (S : Regs cfg) : BusReq cfg :=
  if S.phase = .writeIssue then putReq S.addr S.body S.valid else getReq S.addr S.len

/-- R214 to R218: the outputs of a tick, functions of the registers alone (R221). -/
def outputs {cfg : Config} (S : Regs cfg) : Outputs cfg where
  serialInReady := !S.fault && S.phase.takesChunk
  serialOutValid := !S.fault && decide (S.phase = .readBody)
  serialOutBits := S.body[S.idx]
  busReqValid := !S.fault && S.phase.presentsRequest
  busReq := presentedRequest S
  busRespReady := !S.fault && S.phase.takesResponse
  fault := S.fault

/-- The transition of each phase in a tick without reset and without halt (R220). -/
def phaseStep {cfg : Config} (I : Inputs cfg) (S : Regs cfg) : Regs cfg :=
  match S.phase with
  | .command => if I.serialInValid then onCommand I.serialInBits S else S
  | .address => if I.serialInValid then onAddress I.serialInBits S else S
  | .length => if I.serialInValid then onLength I.serialInBits S else S
  | .writeBody => if I.serialInValid then onWriteBody I.serialInBits S else S
  | .writeIssue => if I.busReqReady then onWriteIssue S else S
  | .writeAck => if I.busRespValid then onWriteAck S else S
  | .readRequest => if I.busReqReady then onReadRequest S else S
  | .readData => if I.busRespValid then onReadData I.busRespData S else S
  | .readBody => if I.serialOutReady then onReadBody S else S

/-- R220: `Step(S, I)`: reset before everything, then the halt of R245, then the phase's transition (R247). -/
def coreStep {cfg : Config} (I : Inputs cfg) (S : Regs cfg) : Regs cfg :=
  if I.reset then applyReset S else if S.fault then S else phaseStep I S

/-- R213, R219: the transfer of a tick, if a channel fires. At most one does. -/
def transferOf {cfg : Config} (I : Inputs cfg) (O : Outputs cfg) : Option (Transfer cfg) :=
  if fire I.serialInValid O.serialInReady then some (.chunkIn I.serialInBits)
  else if fire O.serialOutValid I.serialOutReady then some (.chunkOut O.serialOutBits)
  else if fire O.busReqValid I.busReqReady then some (.request O.busReq)
  else if fire I.busRespValid O.busRespReady then some (.response I.busRespData)
  else none

end Sys2Proof.Machine
end

