-- ==== Sys2Proof/Machine/Bus.lean ====
section
/-! DEFINITION. Machine/Bus.lean: the bus environment of R60: what the memory behind the bus does with an accepted
request, and which byte lanes of its answer are free values. -/

namespace Sys2Proof.Machine

/-- Whether byte lane `j` is covered by a request (R56, R58): lanes `address mod W` up to `size` further. -/
def laneCovered {cfg : Config} (r : BusReq cfg) (j : Nat) : Bool :=
  decide (r.address.toNat % cfg.W ≤ j) && decide (j < r.address.toNat % cfg.W + r.size)

/-- The word that holds a request's address: `address - (address mod W)`. -/
def requestBase {cfg : Config} (r : BusReq cfg) : Nat := r.address.toNat - r.address.toNat % cfg.W

/-- A response word with every byte lane free (U3, R52; log 8, 9). -/
def freeWord (cfg : Config) (draw : Nat) : BitVec cfg.wordBits :=
  ofBytesLE cfg.wordBits cfg.W (fun j => Config.freeByte (draw + j))

/-- R56, R60 (e): the answer to an aligned Get: every covered byte in its natural lane; the other lanes are free
(U5; log 8). -/
def getWord {cfg : Config} (m : Memory) (draw : Nat) (r : BusReq cfg) : BitVec cfg.wordBits :=
  ofBytesLE cfg.wordBits cfg.W
    (fun j => if laneCovered r j then m.read (requestBase r + j) else Config.freeByte (draw + j))

/-- The answer to a Get: R56 when it is aligned; when it is not, outside every contract, and free (U3; log 9). -/
def getAnswer {cfg : Config} (m : Memory) (draw : Nat) (r : BusReq cfg) : BitVec cfg.wordBits :=
  if r.aligned then getWord m draw r else freeWord cfg draw

/-- The bus accepts a request (R60): a Put writes exactly the masked lanes and owes an acknowledgement; a Get owes
its answer. A misaligned Get may get no answer at all (U3; log 9). Responses are owed in request order. -/
def busAccept {cfg : Config} (r : BusReq cfg) (s : Sys cfg) : Sys cfg :=
  match r.opcode with
  | .put =>
    { s with mem := writeLanes r.address.toNat r.data r.mask cfg.W 0 s.mem,
             responses := s.responses ++ [freeWord cfg s.draws], draws := s.draws + cfg.W }
  | .get =>
    if r.aligned || s.answersMisaligned then
      { s with responses := s.responses ++ [getAnswer s.mem s.draws r], draws := s.draws + cfg.W }
    else s

end Sys2Proof.Machine
end

