-- ==== Sys2Proof/Machine/Run.lean ====
section
/-! DEFINITION. Machine/Run.lean: a tick of the CORE together with its environment, and ticks until the machine
settles: the operation in flight has ended, the fault has been raised, or nothing more can happen. -/

namespace Sys2Proof.Machine

/-- What the environment does in the next tick: the head of the script, else its steady offers without reset. -/
def Sys.envNow {cfg : Config} (s : Sys cfg) : EnvTick :=
  match s.script with
  | [] => ⟨false, s.steady⟩
  | e :: _ => e

/-- R211: the inputs of a tick. The host offers a chunk only if it has one, the bus a response only if it owes one;
`bits` and `data` beside a valid of 0 are read by nothing (R223). -/
def Sys.inputs {cfg : Config} (s : Sys cfg) (e : EnvTick) : Inputs cfg where
  reset := e.reset
  serialInValid := e.offers.serialIn && !s.serialIn.isEmpty
  serialInBits := s.serialIn.headD 0#_
  serialOutReady := e.offers.serialOut
  busReqReady := e.offers.busReq
  busRespValid := e.offers.busResp && !s.responses.isEmpty
  busRespData := s.responses.headD 0#_

/-- What a transfer does to the partner's side of the channel and to the trace. -/
def Sys.applyTransfer {cfg : Config} (s : Sys cfg) (t : Transfer cfg) : Sys cfg :=
  match t with
  | .chunkIn _ => { s.record t with serialIn := s.serialIn.tail }
  | .chunkOut _ => s.record t
  | .request r => busAccept r (s.record t)
  | .response _ => { s.record t with responses := s.responses.tail }

/-- One tick (R212): the CORE's registers by `coreStep`, the partner's side by the transfer that fires. A transfer
that fires while reset is asserted is seen by the partner and has no effect on the CORE (R260). -/
def Sys.tick {cfg : Config} (s : Sys cfg) : Sys cfg :=
  let I := s.inputs s.envNow
  let s' := match transferOf I (outputs s.regs) with
    | none => s
    | some t => s.applyTransfer t
  { s' with regs := coreStep I s.regs, script := s.script.tail }

/-- No transfer can happen under the steady offers: the machine waits (R136, R172, R224), or it is halted. -/
def Sys.waiting {cfg : Config} (s : Sys cfg) : Bool :=
  (transferOf (s.inputs ⟨false, s.steady⟩) (outputs s.regs)).isNone

/-- An operation ends when the phase returns to Command (R12: "ends when the phase returns to Command"). -/
def opEnds {cfg : Config} (s t : Sys cfg) : Bool :=
  decide (s.regs.phase ≠ .command) && decide (t.regs.phase = .command)

/-- The tick from `s` to `t` raised the fault (R243). -/
def faultRaised {cfg : Config} (s t : Sys cfg) : Bool := !s.regs.fault && t.regs.fault

/-- After the tick from `s` to `t` nothing more belongs to this step (log 2). -/
def settled {cfg : Config} (s t : Sys cfg) : Bool :=
  opEnds s t || faultRaised s t || (t.script.isEmpty && t.waiting)

/-- Ticks until the machine settles, at most `fuel`. -/
def Sys.runTicks {cfg : Config} : Nat → Sys cfg → Sys cfg
  | 0, s => s
  | fuel + 1, s => if settled s s.tick then s.tick else Sys.runTicks fuel s.tick

/-- More ticks than any operation needs: a header has `1 + 2N` chunks, each data chunk costs at most three ticks
(R275), and each tick of the script is one more (log 2). -/
def Sys.tickBound {cfg : Config} (s : Sys cfg) : Nat := s.script.length + 2 ^ (cfg.wordBits + 3)

/-- Ticks until the machine settles. -/
def Sys.run {cfg : Config} (s : Sys cfg) : Sys cfg := s.runTicks s.tickBound

/-- R245, R249: the fault latch is 1 and no reset is to come: no tick ever changes a register. -/
def Sys.halted {cfg : Config} (s : Sys cfg) : Bool := s.regs.fault && s.script.all (fun e => !e.reset)

/-- Run the machine until it settles. A halted machine has no transition and answers its fault (log 14). -/
def runState {cfg : Config} (s : Sys cfg) : Host.Outcome State Fault Refusal :=
  if s.halted then .fault .badCommandHalt else .next ⟨cfg, s.run⟩

/-- The host offers a frame and the machine runs until it settles: how a command is executed (R110, R111). -/
def runFrame {cfg : Config} (frame : List (BitVec cfg.w)) (s : Sys cfg) : Host.Outcome State Fault Refusal :=
  runState (s.offer frame)

end Sys2Proof.Machine
end

