-- ==== Sys2Proof/Machine/Commands.lean ====
section
/-! DEFINITION. Machine/Commands.lean: the meaning of the two commands (spec/40_commands.md). "the per-tick rules
... are the normative mechanism": a command is its frame, handed to the CORE tick by tick. What that comes to as a
whole operation, the pseudocode of R110 and R111, is in Machine/WholeOps.lean and is claimed equal to this. -/

namespace Sys2Proof.Machine

/-- R110: `READ Address, Len`. -/
def execRead (address len : Nat) (s : State) : Host.Outcome State Fault Refusal :=
  runFrame (encodeRead s.cfg address len) s.sys

/-- R111: `WRITE Address, Len, [D0..DLen]`. -/
def execWrite (address len : Nat) (data : List Nat) (s : State) : Host.Outcome State Fault Refusal :=
  runFrame (encodeWrite s.cfg address len data) s.sys

end Sys2Proof.Machine
end

