-- ==== Sys2Proof/Machine/Dispatch.lean ====
section
/-! DEFINITION. Machine/Dispatch.lean: one arm for each constructor of Instr. -/

namespace Sys2Proof.Machine

def exec (i : Instr) (s : State) : Host.Outcome State Fault Refusal :=
  match i with
  | .read address len => Sys2Proof.Machine.execRead address len s
  | .write address len data => Sys2Proof.Machine.execWrite address len data s

end Sys2Proof.Machine
end

