-- ==== Sys2Proof/Machine/Step.lean ====
section
/-! DEFINITION. Machine/Step.lean: one step of a machine. Between operations the step takes the frame at the front
of the host's chunks and runs the command it encodes; in every other state (an operation in flight, a frame not yet
whole, an unrecognised command) it runs the CORE's ticks as they come. -/

namespace Sys2Proof.Machine

/-- R12: no operation is in flight and the machine is not halted. -/
def Sys.betweenOperations {cfg : Config} (s : Sys cfg) : Bool :=
  decide (s.regs.phase = .command) && !s.regs.fault

def step (s : State) : Host.Outcome State Fault Refusal :=
  if s.sys.betweenOperations then
    match decode s.cfg s.sys.serialIn with
    | .ok (i, rest) => exec i ⟨s.cfg, s.sys.withSerialIn rest⟩
    | .error _ => runState s.sys
  else runState s.sys

/-- The machine with the instruction of these bits at the front of the host's chunks, in phase Command, not halted
and with no scripted tick, so that the next step runs exactly it (log 3). -/
def State.withFetchWord (s : State) (nbits w : Nat) : State :=
  ⟨s.cfg, { (s.sys.offer (tableChunks s.cfg nbits w)) with
            regs := { s.sys.regs with phase := .command, fault := false }, script := [] }⟩

end Sys2Proof.Machine
end

