-- ==== Sys2Proof/Machine/WholeOps.lean ====
section
/-! DEFINITION. Machine/WholeOps.lean: READ and WRITE as whole operations, the pseudocode of
spec/40_commands.md R110 and R111 and its common definitions, word by word. The meanings of the commands do not use
this file: they run the per-tick rules, and that both agree is claimed in Certificates/Slice0/Obligations.lean. -/

namespace Sys2Proof.Machine

/-- `s0`: the starting slot of an operation. -/
def startSlot (cfg : Config) (address : Nat) : Nat := address % cfg.W / cfg.c

/-- `nWords = ceil((s0 + T) / N)` with `T = Len + 1`: the words touched and the bus requests issued (R114). -/
def wordCount (cfg : Config) (address len : Nat) : Nat := (startSlot cfg address + (len + 1) + cfg.N - 1) / cfg.N

/-- `base_k = trunc_addrBits((Address - Address mod W) + k*W)`. -/
def wordAddress (cfg : Config) (address k : Nat) : BitVec cfg.addrBits :=
  BitVec.ofNat cfg.addrBits (address - address % cfg.W + k * cfg.W)

/-- `first_k`: the first slot used in word `k`. -/
def firstSlot (cfg : Config) (address k : Nat) : Nat := if k = 0 then startSlot cfg address else 0

/-- The data chunks used in words `0 .. k-1`, and so the number of the first data chunk of word `k`. -/
def chunksBefore (cfg : Config) (address k : Nat) : Nat := k * cfg.N - (if k = 0 then 0 else startSlot cfg address)

/-- `cnt_k`: the slots used in word `k`. -/
def slotCount (cfg : Config) (address len k : Nat) : Nat :=
  min (cfg.N - firstSlot cfg address k) (len + 1 - chunksBefore cfg address k)

/-- The registers after the header of a frame (R137), on its way into `phase`. -/
def afterHeader {cfg : Config} (code address len : Nat) (phase : Phase) (s : Sys cfg) : Sys cfg :=
  { s with
    regs := { s.regs with cmd := BitVec.ofNat cfg.w code, addr := BitVec.ofNat cfg.wordBits address,
                          len := BitVec.ofNat cfg.wordBits len, idx := slotOf (BitVec.ofNat cfg.wordBits address),
                          phase := phase },
    trace := s.trace ++ (encodeHeader cfg code address len).map .chunkIn }

/-- The chunks of the current word that an operation still moves: `min(N - first, r + 1)`. -/
def chunksOfWord {cfg : Config} (S : Regs cfg) : Nat := min (cfg.N - S.idx.val) (S.len.toNat + 1)

/-- R110, one round of the outer `repeat`: one Get, its answer, and the chunks of that word. -/
def readWord {cfg : Config} (s : Sys cfg) : Sys cfg :=
  let req := getReq s.regs.addr s.regs.len
  let d := getAnswer s.mem s.draws req
  let count := chunksOfWord s.regs
  let first := s.regs.idx.val
  { s with
    trace := s.trace ++ (.request req :: .response d ::
      (List.range count).map (fun j => .chunkOut (slotBits d (first + j)))),
    draws := s.draws + cfg.W,
    regs := { s.regs with
      body := unpackWord d, addr := nextAddr s.regs.addr,
      len := s.regs.len - BitVec.ofNat cfg.wordBits count,
      idx := ⟨(first + count) % cfg.N, Nat.mod_lt _ cfg.N_pos⟩,
      phase := if count = s.regs.len.toNat + 1 then .command else .readRequest } }

/-- R110, the outer `repeat`, for at most `fuel` words. -/
def readWords {cfg : Config} : Nat → Sys cfg → Sys cfg
  | 0, s => s
  | fuel + 1, s => if (readWord s).regs.phase = .command then readWord s else readWords fuel (readWord s)

/-- R110: `READ Address, Len` as a whole operation. -/
def wholeRead {cfg : Config} (address len : Nat) (s : Sys cfg) : Sys cfg :=
  readWords (len + 1) (afterHeader readCode address len .readRequest s)

/-- R111, the inner `repeat`: consecutive data chunks into consecutive slots. -/
def fillSlots {cfg : Config} : List (BitVec cfg.w) → Nat → Vector (BitVec cfg.w) cfg.N → Vector (BitVec cfg.w) cfg.N
  | [], _, body => body
  | x :: xs, i, body => fillSlots xs (i + 1) (body.setIfInBounds i x)

/-- R111: the validity mask with `count` slots from `first` on: "a contiguous run of slots" (R176). -/
def slotRun (cfg : Config) (first count : Nat) : BitVec cfg.N :=
  BitVec.ofNat cfg.N (natOfBits cfg.N (fun i => decide (first ≤ i) && decide (i < first + count)))

/-- R111, one round of the outer `repeat`: the data chunks of one word, one Put, its acknowledgement. -/
def writeWord {cfg : Config} (s : Sys cfg) : Sys cfg :=
  let count := chunksOfWord s.regs
  let first := s.regs.idx.val
  let data := s.serialIn.take count
  let body := fillSlots data first s.regs.body
  let mask := slotRun cfg first count
  let req := putReq s.regs.addr body mask
  let last := decide (count = s.regs.len.toNat + 1)
  { s with
    serialIn := s.serialIn.drop count,
    trace := s.trace ++ data.map .chunkIn ++ [.request req, .response (freeWord cfg s.draws)],
    mem := writeLanes req.address.toNat req.data req.mask cfg.W 0 s.mem,
    draws := s.draws + cfg.W,
    regs :=
      if last then
        { s.regs with
          body := body, valid := mask, len := 0#_, phase := .command,
          idx := ⟨(first + (count - 1)) % cfg.N, Nat.mod_lt _ cfg.N_pos⟩ }
      else
        { s.regs with
          body := body, valid := emptyMask cfg, len := s.regs.len - BitVec.ofNat cfg.wordBits count,
          addr := nextAddr s.regs.addr, idx := slotZero cfg, phase := .writeBody } }

/-- R111, the outer `repeat`, for at most `fuel` words. -/
def writeWords {cfg : Config} : Nat → Sys cfg → Sys cfg
  | 0, s => s
  | fuel + 1, s => if (writeWord s).regs.phase = .command then writeWord s else writeWords fuel (writeWord s)

/-- R111: `WRITE Address, Len, [D0..DLen]` as a whole operation. -/
def wholeWrite {cfg : Config} (address len : Nat) (data : List Nat) (s : Sys cfg) : Sys cfg :=
  let s' := afterHeader writeCode address len .writeBody s
  writeWords (len + 1)
    { s' with serialIn := data.map (BitVec.ofNat cfg.w) ++ s.serialIn, regs := { s'.regs with valid := emptyMask cfg } }

/-- R112: the whole operation of a frame whose `CMD` is neither 0 nor 1: the header is consumed and the fault is
raised; no request, no chunk. -/
def wholeBadCommand {cfg : Config} (code address len : Nat) (s : Sys cfg) : Sys cfg :=
  let s' := afterHeader code address len .length s
  { s' with regs := raiseBadCommand s'.regs }

end Sys2Proof.Machine
end

