-- ==== Sys2Proof/Safety.lean ====
section
/-! DEFINITION. Safety.lean: what counts as a good state, a good environment and a finished run, in the terms the
statements use. -/

namespace Sys2Proof.Machine

/-- R245: "The halted state is not a completed operation": a run is finished when the machine is back in phase
Command with the fault latch 0. -/
def Sys.finished {cfg : Config} (s : Sys cfg) : Prop := s.regs.phase = .command ∧ s.regs.fault = false

/-- No tick of the script asserts reset. -/
def Sys.noReset {cfg : Config} (s : Sys cfg) : Prop := s.script.all (fun e => !e.reset) = true

/-- The environment of R60, R270 and R276: after any finite stalls every handshake is offered, and reset is not
asserted. -/
def Sys.cooperative {cfg : Config} (s : Sys cfg) : Prop := s.steady = Offers.all ∧ s.noReset

/-- Between operations (R12, R63): phase Command, not halted, no response owed, on a cooperative environment. -/
def Sys.ready {cfg : Config} (s : Sys cfg) : Prop := s.finished ∧ s.responses = [] ∧ s.cooperative

/-- The same machine with nothing left of the script. -/
def Sys.calm {cfg : Config} (s : Sys cfg) : Sys cfg := { s with script := [] }

/-- R266: `Address mod c = 0`. -/
def chunkAligned (cfg : Config) (address : Nat) : Prop := address % cfg.c = 0

/-- The first Get of `READ address, len`. -/
def firstGet (cfg : Config) (address len : Nat) : BusReq cfg :=
  getReq (BitVec.ofNat cfg.wordBits address) (BitVec.ofNat cfg.wordBits len)

/-- The bus answers the first Get of a READ: it is aligned (R59), or this bus answers misaligned Gets too (U3).
Every later Get is at a word boundary and aligned (R159). -/
def firstGetAnswered {cfg : Config} (address len : Nat) (s : Sys cfg) : Prop :=
  (firstGet cfg address len).aligned = true ∨ s.answersMisaligned = true

/-- R269: the operation does not reach round the whole address space onto itself. -/
def fitsAddressSpace (cfg : Config) (len : Nat) : Prop := (len + 1) * cfg.c ≤ 2 ^ cfg.addrBits

/-- R31 and what else the rules say of every reachable state, with the canonical form of memory. -/
structure Sys.Inv {cfg : Config} (s : Sys cfg) : Prop where
  /-- Memory is in canonical form. -/
  memWf : s.mem.wf = true
  /-- Memory lists only addresses of the address space (R36). -/
  memInSpace : ∀ e ∈ s.mem, e.1 < 2 ^ cfg.addrBits
  /-- The halt is always in phase Length (R243). -/
  faultPhase : s.regs.fault = true → s.regs.phase = .length
  /-- R31 (b). -/
  writePhases : s.regs.phase = .writeBody ∨ s.regs.phase = .writeIssue ∨ s.regs.phase = .writeAck →
    s.regs.cmd.toNat = writeCode
  /-- R31 (b). -/
  readPhases : s.regs.phase = .readRequest ∨ s.regs.phase = .readData ∨ s.regs.phase = .readBody →
    s.regs.cmd.toNat = readCode
  /-- R31 (c): in WriteBody the written slots are a contiguous run that ends just below the cursor (R154, R176). -/
  bodyMask : s.regs.phase = .writeBody →
    ∃ first, first ≤ s.regs.idx.val ∧
      ∀ i, s.regs.valid.getLsbD i = (decide (first ≤ i) && decide (i < s.regs.idx.val))
  /-- R31 (c): in WriteIssue and WriteAck the run ends at the cursor and is not empty (R154, R176). -/
  issueMask : s.regs.phase = .writeIssue ∨ s.regs.phase = .writeAck →
    ∃ first, first ≤ s.regs.idx.val ∧
      ∀ i, s.regs.valid.getLsbD i = (decide (first ≤ i) && decide (i ≤ s.regs.idx.val))
  /-- R192: in ReadRequest and ReadData the cursor is already the slot of the address. -/
  readSlot : s.regs.phase = .readRequest ∨ s.regs.phase = .readData → s.regs.idx = slotOf s.regs.addr
  /-- R31 (d), R192: in ReadBody the address is already the next word boundary. -/
  readBodyAligned : s.regs.phase = .readBody → s.regs.addr.toNat % cfg.W = 0

/-- R30, R61: the CORE is in WriteAck or ReadData exactly while it has had a request accepted and not yet seen the
response, and no response is owed in any other phase. -/
structure Sys.OneOutstanding {cfg : Config} (s : Sys cfg) : Prop where
  noReset : s.noReset
  writeAck : s.regs.phase = .writeAck → s.responses.length = 1
  readData : s.regs.phase = .readData → s.responses.length ≤ 1
  others : s.regs.phase ≠ .writeAck → s.regs.phase ≠ .readData → s.responses = []

end Sys2Proof.Machine
end

