-- ==== Sys2Proof/Certificates/Slice0/Obligations.lean ====
section
/-! DEFINITION. Certificates/Slice0/Obligations.lean: the statements for the provers. Each docstring names the rule
of spec/ that the statement formalises. Every statement about an instance is about every instance (R6). -/

open Sys2Proof Sys2Proof.Machine

/-! ### The instance -/

/-- R241: the constructor answers `ConfigError` exactly when a constraint of R8 fails, else the instance asked
for. -/
def Obligations.ConstructionRefusesExactlyBadParameters : Prop :=
  ∀ w wordBits addrBits : Nat,
    let good := (∃ a, w = 2 ^ a) ∧ 8 ≤ w ∧ (∃ b, wordBits = 2 ^ b) ∧ w ≤ wordBits ∧ wordBits % w = 0 ∧
      Nat.log2 (wordBits / 8) ≤ addrBits ∧ addrBits ≤ wordBits
    (good → ∃ cfg, Config.construct w wordBits addrBits = .ok cfg ∧
      cfg.w = w ∧ cfg.wordBits = wordBits ∧ cfg.addrBits = addrBits) ∧
    (¬ good → Config.construct w wordBits addrBits = .error .configError)

/-- R7: the derived constants of every instance: `W = N * c`, whole bytes per chunk and per word, and the three
bit counts are exact logarithms. -/
def Obligations.DerivedConstantsAreExact : Prop :=
  ∀ cfg : Config,
    cfg.N = cfg.wordBits / cfg.w ∧ cfg.W = cfg.N * cfg.c ∧ 8 * cfg.c = cfg.w ∧ 8 * cfg.W = cfg.wordBits ∧
      2 ^ cfg.offBits = cfg.W ∧ 2 ^ cfg.cOffBits = cfg.c ∧ 2 ^ cfg.idxBits = cfg.N ∧
      cfg.offBits = cfg.idxBits + cfg.cOffBits ∧ cfg.offBits ≤ cfg.addrBits

/-! ### Frames -/

/-- R80, R94: decoding the frame of a well-formed command, with any chunks behind it, gives the command back with
every operand, and leaves the chunks behind it. -/
def Obligations.DecodingAnEncodedFrameGivesTheCommand : Prop :=
  ∀ (cfg : Config) (i : Instr) (rest : List (BitVec cfg.w)), i.wellFormed cfg = true →
    decode cfg (encode cfg i ++ rest) = .ok (i, rest)

/-- The other direction: what the decoder reads is well formed, and its frame is exactly the chunks it took. -/
def Obligations.DecodingTakesExactlyOneFrame : Prop :=
  ∀ (cfg : Config) (q : List (BitVec cfg.w)) (i : Instr) (rest : List (BitVec cfg.w)),
    decode cfg q = .ok (i, rest) → i.wellFormed cfg = true ∧ encode cfg i ++ rest = q

/-- R81: `2N + 1` chunks for READ, `2N + 2 + Len` chunks for WRITE. -/
def Obligations.FrameLengthsAreAsListed : Prop :=
  ∀ cfg : Config,
    (∀ address len, (encode cfg (.read address len)).length = 2 * cfg.N + 1) ∧
    (∀ address len data, (Instr.write address len data).wellFormed cfg = true →
      (encode cfg (.write address len data)).length = 2 * cfg.N + 2 + len)

/-- R83, R84, R94: the chunks of a field, least significant first, sum up to the field. -/
def Obligations.FieldsAreLittleEndianSums : Prop :=
  ∀ (cfg : Config) (v : Nat), v < 2 ^ cfg.wordBits →
    (fieldChunks cfg v).length = cfg.N ∧
      v = ((List.range cfg.N).map fun i => ((fieldChunks cfg v).getD i 0#_).toNat * 2 ^ (i * cfg.w)).sum

/-- R88: a whole header with a `CMD` value other than 0 and 1 is no command. -/
def Obligations.OtherCommandValuesAreUnrecognised : Prop :=
  ∀ (cfg : Config) (cmd : BitVec cfg.w) (q : List (BitVec cfg.w)), cmd.toNat ≠ 0 → cmd.toNat ≠ 1 →
    2 * cfg.N ≤ q.length → decode cfg (cmd :: q) = .error (.unrecognisedCommand cmd.toNat)

/-- The worked example of R94, the READ frames of programs P3 and P5 and the WRITE frame of P6 with one chunk behind it
(spec/95_test_vectors.md section 3) decode to their commands. The last two clauses, about `decodeTableWord`, rest on the
model's choice of log 3 and are not the opcode table's own content: the table fixes the command chunk alone, and the
model reads its bits as chunks of CFG-A and takes every chunk beyond them as 0. -/
def Obligations.WorkedFramesDecode : Prop :=
  decode Config.cfgA [0x00000001#32, 0x80001000#32, 0x00000000#32, 0x00000002#32, 0x00000000#32, 0x11111111#32,
      0x22222222#32, 0x33333333#32] =
    .ok (.write 0x80001000 2 [0x11111111, 0x22222222, 0x33333333], []) ∧
  decode Config.cfgA [0x0#32, 0x80003000#32, 0x0#32, 0x5#32, 0x0#32] = .ok (.read 0x80003000 5, []) ∧
  decode Config.cfgB [0x00#8, 0x01#8, 0x01#8, 0x00#8, 0x00#8, 0x04#8, 0x00#8, 0x00#8, 0x00#8] =
    .ok (.read 0x101 4, []) ∧
  decode Config.cfgC [0x1#64, 0x2000#64, 0x1#64, 0x0123456789ABCDEF#64, 0xFEDCBA9876543210#64, 0x0#64] =
    .ok (.write 0x2000 1 [0x0123456789ABCDEF, 0xFEDCBA9876543210], [0x0#64]) ∧
  decodeTableWord 32 0 = some (.read 0 0) ∧ decodeTableWord 32 1 = some (.write 0 0 [0])

/-- R93: `WRITEW` of a word at a word-aligned address is the WRITE of its `N` chunks, least significant first, and
`READW`, `READB` and `WRITEB` are the commands of the table of R93 under its conditions. -/
def Obligations.PseudoFormsExpand : Prop :=
  ∀ (cfg : Config) (address word nbytes : Nat) (data : List Nat),
    (address % cfg.W = 0 →
      pseudoReadW cfg address = some (.read address (cfg.N - 1)) ∧
      ∃ ds, pseudoWriteW cfg address word = some (.write address (cfg.N - 1) ds) ∧ ds.length = cfg.N ∧
        ∀ k, k < cfg.N → ds[k]? = some (word / 2 ^ (k * cfg.w) % 2 ^ cfg.w)) ∧
    (0 < nbytes → nbytes % cfg.c = 0 →
      pseudoReadB cfg address nbytes = some (.read address (nbytes / cfg.c - 1)) ∧
      (data.length = nbytes / cfg.c →
        pseudoWriteB cfg address nbytes data = some (.write address (nbytes / cfg.c - 1) data)))

/-! ### The step function of the CORE, for every value of its inputs -/

/-- R260, R33: in a tick with reset the next registers are the reset values, whatever the state and the other
inputs. -/
def Obligations.ResetTickGivesResetValues : Prop :=
  ∀ (cfg : Config) (I : Inputs cfg) (S : Regs cfg), I.reset = true →
    (coreStep I S).phase = .command ∧ (coreStep I S).cmd = 0#_ ∧ (coreStep I S).addr = 0#_ ∧
      (coreStep I S).len = 0#_ ∧ (∀ i : Fin cfg.N, (coreStep I S).body[i] = 0#_) ∧ (coreStep I S).valid = 0#_ ∧
      (coreStep I S).idx.val = 0 ∧ (coreStep I S).fault = false

/-- R245, R244: while the fault latch is 1 and reset is 0 no register changes, all four handshake outputs are 0 and
the fault output is 1. -/
def Obligations.HaltHoldsTheMachine : Prop :=
  ∀ (cfg : Config) (I : Inputs cfg) (S : Regs cfg), S.fault = true →
    (I.reset = false → coreStep I S = S) ∧
      (outputs S).serialInReady = false ∧ (outputs S).serialOutValid = false ∧ (outputs S).busReqValid = false ∧
      (outputs S).busRespReady = false ∧ (outputs S).fault = true

/-- R224: no register changes in a tick in which the phase's handshake does not fire (reset apart). -/
def Obligations.NoFireNoChange : Prop :=
  ∀ (cfg : Config) (I : Inputs cfg) (S : Regs cfg), I.reset = false →
    fire I.serialInValid (outputs S).serialInReady = false →
    fire (outputs S).serialOutValid I.serialOutReady = false →
    fire (outputs S).busReqValid I.busReqReady = false →
    fire I.busRespValid (outputs S).busRespReady = false → coreStep I S = S

/-- R130: phase Command captures the chunk, whatever its value, and clears cursor, address and length; nothing else
changes, and without a chunk nothing does. -/
def Obligations.CommandPhaseCapturesTheChunk : Prop :=
  ∀ (cfg : Config) (I : Inputs cfg) (S : Regs cfg), I.reset = false → S.fault = false → S.phase = .command →
    coreStep I S =
      if I.serialInValid then
        { S with cmd := I.serialInBits, idx := slotZero cfg, addr := 0#_, len := 0#_, phase := .address }
      else S

/-- R131: phase Address ORs the shifted chunk into the address; the last chunk leads to Length with cursor 0. -/
def Obligations.AddressPhaseAccumulates : Prop :=
  ∀ (cfg : Config) (I : Inputs cfg) (S : Regs cfg), I.reset = false → S.fault = false → S.phase = .address →
    I.serialInValid = true →
    (S.idx.val = cfg.N - 1 → coreStep I S =
      { S with addr := S.addr ||| shiftChunk I.serialInBits S.idx.val, idx := slotZero cfg, phase := .length }) ∧
    (S.idx.val ≠ cfg.N - 1 → (coreStep I S).idx.val = S.idx.val + 1 ∧
      coreStep I S = { S with addr := S.addr ||| shiftChunk I.serialInBits S.idx.val, idx := (coreStep I S).idx })

/-- R133: phase Length ORs the shifted chunk into the length while chunks of the field are to come. -/
def Obligations.LengthPhaseAccumulates : Prop :=
  ∀ (cfg : Config) (I : Inputs cfg) (S : Regs cfg), I.reset = false → S.fault = false → S.phase = .length →
    I.serialInValid = true → S.idx.val ≠ cfg.N - 1 →
    (coreStep I S).idx.val = S.idx.val + 1 ∧
      coreStep I S = { S with len := S.len ||| shiftChunk I.serialInBits S.idx.val, idx := (coreStep I S).idx }

/-- R134: the Length-completion transition sets the cursor to the slot of the address and dispatches on the command:
1 to WriteBody with an empty mask, 0 to ReadRequest. -/
def Obligations.LengthCompletionDispatches : Prop :=
  ∀ (cfg : Config) (I : Inputs cfg) (S : Regs cfg), I.reset = false → S.fault = false → S.phase = .length →
    I.serialInValid = true → S.idx.val = cfg.N - 1 →
    (S.cmd.toNat = 1 → coreStep I S =
      { S with len := S.len ||| shiftChunk I.serialInBits S.idx.val, idx := slotOf S.addr, valid := 0#_,
               phase := .writeBody }) ∧
    (S.cmd.toNat = 0 → coreStep I S =
      { S with len := S.len ||| shiftChunk I.serialInBits S.idx.val, idx := slotOf S.addr,
               phase := .readRequest }) ∧
    (S.cmd.toNat ≠ 0 → S.cmd.toNat ≠ 1 → coreStep I S =
      { S with len := S.len ||| shiftChunk I.serialInBits S.idx.val, idx := slotOf S.addr, fault := true })

/-- A tick that sets the latch is the Length-completion transition with a command neither 0 nor 1, and its effect is
that of `raise BadCommand(cmd)`: fault 1, phase still Length, `len` and `idx` as in every Length completion, all else
unchanged. That the latch has no other cause is sections 1 and 2 of spec/60_exceptions.md; that this transition does set
it is the third clause of `LengthCompletionDispatches`. -/
def Obligations.OnlyABadCommandRaisesTheFault : Prop :=
  ∀ (cfg : Config) (I : Inputs cfg) (S : Regs cfg), S.fault = false → (coreStep I S).fault = true →
    I.reset = false ∧ S.phase = .length ∧ I.serialInValid = true ∧ S.idx.val = cfg.N - 1 ∧
      S.cmd.toNat ≠ 0 ∧ S.cmd.toNat ≠ 1 ∧
      coreStep I S =
        { S with len := S.len ||| shiftChunk I.serialInBits S.idx.val, idx := slotOf S.addr, fault := true }

/-- R170, R171: WriteBody stores the chunk in the slot under the cursor and marks it; at the last slot or at
`remaining = 0` the word is complete, else cursor and countdown move. -/
def Obligations.WriteBodyStoresTheChunk : Prop :=
  ∀ (cfg : Config) (I : Inputs cfg) (S : Regs cfg), I.reset = false → S.fault = false → S.phase = .writeBody →
    I.serialInValid = true →
    (∀ j : Fin cfg.N, (coreStep I S).body[j] = if j = S.idx then I.serialInBits else S.body[j]) ∧
    (∀ j, (coreStep I S).valid.getLsbD j = (S.valid.getLsbD j || decide (j = S.idx.val))) ∧
    (S.idx.val = cfg.N - 1 ∨ S.len = 0#_ → coreStep I S =
      { S with body := (coreStep I S).body, valid := (coreStep I S).valid, phase := .writeIssue }) ∧
    (S.idx.val ≠ cfg.N - 1 → S.len ≠ 0#_ →
      (coreStep I S).idx.val = S.idx.val + 1 ∧ (coreStep I S).len.toNat + 1 = S.len.toNat ∧
      coreStep I S =
        { S with body := (coreStep I S).body, valid := (coreStep I S).valid, idx := (coreStep I S).idx,
                 len := (coreStep I S).len })

/-- R173, R190: the issuing phases present the Put or the Get, no other handshake, and only the phase moves when it
is accepted. -/
def Obligations.IssuingPhasesPresentOneRequest : Prop :=
  ∀ (cfg : Config) (I : Inputs cfg) (S : Regs cfg), I.reset = false → S.fault = false →
    (S.phase = .writeIssue →
      (outputs S).busReqValid = true ∧ (outputs S).busReq = putReq S.addr S.body S.valid ∧
      (outputs S).serialInReady = false ∧ (outputs S).serialOutValid = false ∧ (outputs S).busRespReady = false ∧
      coreStep I S = if I.busReqReady then { S with phase := .writeAck } else S) ∧
    (S.phase = .readRequest →
      (outputs S).busReqValid = true ∧ (outputs S).busReq = getReq S.addr S.len ∧
      (outputs S).serialInReady = false ∧ (outputs S).serialOutValid = false ∧ (outputs S).busRespReady = false ∧
      coreStep I S = if I.busReqReady then { S with phase := .readData } else S)

/-- R175: the acknowledgement ends the operation at `remaining = 0`, else begins the next word; the response data
is ignored (R174). -/
def Obligations.WriteAckEndsOrBeginsAWord : Prop :=
  ∀ (cfg : Config) (I : Inputs cfg) (S : Regs cfg), I.reset = false → S.fault = false → S.phase = .writeAck →
    I.busRespValid = true →
    (S.len = 0#_ → coreStep I S = { S with phase := .command }) ∧
    (S.len ≠ 0#_ → (coreStep I S).len.toNat + 1 = S.len.toNat ∧ coreStep I S =
      { S with addr := nextAddr S.addr, idx := slotZero cfg, valid := 0#_, len := (coreStep I S).len,
               phase := .writeBody })

/-- R192: ReadData loads the whole response word, sets the cursor from the address and advances the address. -/
def Obligations.ReadDataLoadsTheWord : Prop :=
  ∀ (cfg : Config) (I : Inputs cfg) (S : Regs cfg), I.reset = false → S.fault = false → S.phase = .readData →
    I.busRespValid = true →
    (∀ i : Fin cfg.N, (coreStep I S).body[i] = I.busRespData.extractLsb' (i.val * cfg.w) cfg.w) ∧
    coreStep I S =
      { S with body := (coreStep I S).body, idx := slotOf S.addr, addr := nextAddr S.addr, phase := .readBody }

/-- R193, R194: ReadBody offers the slot under the cursor and nothing else; until it is taken no register changes;
when it is taken the cursor moves modulo `N`, the
countdown modulo `2^wordBits`, and the end test comes before the wrap test. -/
def Obligations.ReadBodyEmitsTheSlot : Prop :=
  ∀ (cfg : Config) (I : Inputs cfg) (S : Regs cfg), I.reset = false → S.fault = false → S.phase = .readBody →
    (outputs S).serialOutValid = true ∧ (outputs S).serialOutBits = S.body[S.idx] ∧
    (outputs S).serialInReady = false ∧ (outputs S).busReqValid = false ∧ (outputs S).busRespReady = false ∧
    (I.serialOutReady = false → coreStep I S = S) ∧
    (I.serialOutReady = true →
      (coreStep I S).idx.val = (S.idx.val + 1) % cfg.N ∧
      (coreStep I S).len.toNat = (S.len.toNat + 2 ^ cfg.wordBits - 1) % 2 ^ cfg.wordBits ∧
      (coreStep I S).phase =
        (if S.len = 0#_ then .command else if S.idx.val = cfg.N - 1 then .readRequest else .readBody) ∧
      coreStep I S =
        { S with idx := (coreStep I S).idx, len := (coreStep I S).len, phase := (coreStep I S).phase })

/-- R20: no edge exists in the phase graph but the ones listed, and the self-loops (reset apart). -/
def Obligations.OnlyListedPhaseEdges : Prop :=
  ∀ (cfg : Config) (I : Inputs cfg) (S : Regs cfg), I.reset = false →
    (coreStep I S).phase = S.phase ∨
      (S.phase, (coreStep I S).phase) ∈
        [(.command, .address), (.address, .length), (.length, .writeBody), (.length, .readRequest),
         (.writeBody, .writeIssue), (.writeIssue, .writeAck), (.writeAck, .writeBody), (.writeAck, .command),
         (.readRequest, .readData), (.readData, .readBody), (.readBody, .readRequest),
         ((.readBody, .command) : Phase × Phase)]

/-- R214 to R219: every output as a function of the registers. Exactly one of the four handshake outputs is 1 with
the latch 0, and none with it 1, as the table lists them by phase; the chunk is `body[idx]` in every tick, the request
the Put in WriteIssue and the Get in every other phase, the fault output the latch. -/
def Obligations.ExactlyOneHandshakeIsOpen : Prop :=
  ∀ (cfg : Config) (S : Regs cfg),
    let O := outputs S
    O.fault = S.fault ∧ O.serialOutBits = S.body[S.idx] ∧
    O.busReq = (if S.phase = .writeIssue then putReq S.addr S.body S.valid else getReq S.addr S.len) ∧
    (O.serialInReady, O.serialOutValid, O.busReqValid, O.busRespReady) =
      if S.fault = true then (false, false, false, false) else
      match S.phase with
      | .command | .address | .length | .writeBody => (true, false, false, false)
      | .writeIssue | .readRequest => (false, false, true, false)
      | .writeAck | .readData => (false, false, false, true)
      | .readBody => (false, true, false, false)

/-- R223: an offer that has not been taken stays as it is: a presented chunk or request does not change and is not
withdrawn except by reset. -/
def Obligations.OffersStayUntilTaken : Prop :=
  ∀ (cfg : Config) (I : Inputs cfg) (S : Regs cfg), I.reset = false →
    ((outputs S).serialOutValid = true → I.serialOutReady = false →
      (outputs (coreStep I S)).serialOutValid = true ∧
        (outputs (coreStep I S)).serialOutBits = (outputs S).serialOutBits) ∧
    ((outputs S).busReqValid = true → I.busReqReady = false →
      (outputs (coreStep I S)).busReqValid = true ∧ (outputs (coreStep I S)).busReq = (outputs S).busReq)

/-- R137: after exactly `1 + 2N` accepted chunks from phase Command the fields hold the numbers that were sent, the
cursor is the slot of the address, and the phase is by the command code. -/
def Obligations.HeaderAssemblesTheFields : Prop :=
  ∀ (cfg : Config) (S : Regs cfg) (code address len : Nat) (ticks : List (Inputs cfg)),
    S.phase = .command → S.fault = false → code < 2 ^ cfg.w → address < 2 ^ cfg.wordBits →
    len < 2 ^ cfg.wordBits → ticks.map (·.serialInBits) = encodeHeader cfg code address len →
    (∀ I ∈ ticks, I.reset = false ∧ I.serialInValid = true) →
    let T := ticks.foldl (fun S I => coreStep I S) S
    T.cmd.toNat = code ∧ T.addr.toNat = address ∧ T.len.toNat = len ∧ T.idx = slotOf T.addr ∧ T.body = S.body ∧
      T.valid = (if code = 1 then 0#_ else S.valid) ∧ T.fault = decide (code ≠ 0 ∧ code ≠ 1) ∧
      T.phase = if code = 1 then .writeBody else if code = 0 then .readRequest else .length

/-! ### The request builder -/

/-- R135: `ShiftChunk(x, i)` is `zext(x) * 2^(i*w)`; no bit is lost. -/
def Obligations.ShiftChunkLosesNoBits : Prop :=
  ∀ (cfg : Config) (x : BitVec cfg.w) (i : Fin cfg.N), (shiftChunk x i.val).toNat = x.toNat * 2 ^ (i.val * cfg.w)

/-- R150, R151, R153: the address helpers as numbers; the next address is always word-aligned. -/
def Obligations.AddressHelpersCompute : Prop :=
  ∀ (cfg : Config) (a : BitVec cfg.wordBits),
    (busAddr a).toNat = a.toNat % 2 ^ cfg.addrBits ∧
    (nextAddr a).toNat = (a.toNat - a.toNat % cfg.W + cfg.W) % 2 ^ cfg.wordBits ∧
    (nextAddr a).toNat % cfg.W = 0 ∧
    (wordBase a).toNat = (a.toNat - a.toNat % cfg.W) % 2 ^ cfg.addrBits ∧ (wordBase a).toNat % cfg.W = 0

/-- R152: `SlotOf(a) = floor((a mod W) / c) = a[offBits-1:cOffBits]`, and 0 when `N = 1`. -/
def Obligations.SlotOfIsTheOffsetField : Prop :=
  ∀ (cfg : Config) (a : BitVec cfg.wordBits),
    (slotOf a).val = a.toNat % cfg.W / cfg.c ∧
    (slotOf a).val = (a.extractLsb' cfg.cOffBits (cfg.offBits - cfg.cOffBits)).toNat ∧
    (cfg.N = 1 → (slotOf a).val = 0)

/-- R150: the address bits above `addrBits` are carried in the register but have no effect on any output. -/
def Obligations.UpperAddressBitsReachNoOutput : Prop :=
  ∀ (cfg : Config) (S : Regs cfg) (b : BitVec cfg.wordBits), busAddr S.addr = busAddr b →
    outputs { S with addr := b } = outputs S

/-- R154, R155: the Put: the word's base, the full size, slot `i` of the data is `body[i]`, and mask bit `i*c + b`
is `valid[i]`. -/
def Obligations.PutCarriesWordAndMask : Prop :=
  ∀ (cfg : Config) (addr : BitVec cfg.wordBits) (body : Vector (BitVec cfg.w) cfg.N) (valid : BitVec cfg.N),
    let r := putReq addr body valid
    r.opcode = .put ∧ r.address = wordBase addr ∧ r.size = cfg.W ∧
    (∀ i : Fin cfg.N, r.data.extractLsb' (i.val * cfg.w) cfg.w = body[i]) ∧
    (∀ i b, i < cfg.N → b < cfg.c → r.mask.getLsbD (i * cfg.c + b) = valid.getLsbD i)

/-- R156, R157: the Get of an instance that computes over the natural numbers. -/
def Obligations.GetIsRawBytesOrTheWord : Prop :=
  ∀ (cfg : Config) (addr len : BitVec cfg.wordBits), cfg.lenBytesWraps = false →
    let raw := min (cfg.W - addr.toNat % cfg.W) ((len.toNat + 1) * cfg.c)
    let r := getReq addr len
    1 ≤ raw ∧ raw ≤ cfg.W ∧ r.opcode = .get ∧
    ((∃ k, raw = 2 ^ k) → r.address = busAddr addr ∧ r.size = raw) ∧
    ((¬ ∃ k, raw = 2 ^ k) → r.address = wordBase addr ∧ r.size = cfg.W)

/-- R158 (a), (b), (c), for both variants of U10: the size is a power of two in `1..W`, the bytes lie in one word, and
a size that is the raw size exceeds neither bound. R158 (d) as worded does not follow from R157 (log 15): what
follows is that the fallback is larger than the raw size. -/
def Obligations.GetStaysInsideOneWord : Prop :=
  ∀ (cfg : Config) (addr len : BitVec cfg.wordBits),
    let r := getReq addr len
    (∃ k, r.size = 2 ^ k) ∧ 1 ≤ r.size ∧ r.size ≤ cfg.W ∧
    (wordBase addr).toNat ≤ r.address.toNat ∧ r.address.toNat + r.size ≤ (wordBase addr).toNat + cfg.W ∧
    (isPow2 (rawSize addr len) = true → r.size ≤ wordDistance addr ∧ r.size ≤ lenBytes len) ∧
    (isPow2 (rawSize addr len) = false → r.size = cfg.W ∧ rawSize addr len < r.size)

/-- R159: for a chunk-aligned address a Get is misaligned exactly when `T = len + 1` is a power of two, `T < N - i`
and `i mod T != 0`. -/
def Obligations.MisalignedGetsAreExactlyTheListed : Prop :=
  ∀ (cfg : Config) (addr len : BitVec cfg.wordBits), addr.toNat % cfg.c = 0 →
    let i := (slotOf addr).val
    let T := len.toNat + 1
    ((getReq addr len).aligned = false ↔ (∃ k, T = 2 ^ k) ∧ T < cfg.N - i ∧ i % T ≠ 0)

/-- R160: for a chunk-aligned address every byte lane of the slots that will be emitted is covered by the Get. -/
def Obligations.EmittedSlotsAreCovered : Prop :=
  ∀ (cfg : Config) (addr len : BitVec cfg.wordBits), addr.toNat % cfg.c = 0 →
    let i := (slotOf addr).val
    let m := min (cfg.N - i) (len.toNat + 1)
    ∀ j b, i ≤ j → j < i + m → b < cfg.c → laneCovered (getReq addr len) (j * cfg.c + b) = true

/-! ### The bus and its memory -/

/-- R57: the bus environment writes exactly the masked byte lanes of a Put and no other byte, and owes one
acknowledgement. -/
def Obligations.PutWritesExactlyTheMaskedLanes : Prop :=
  ∀ (cfg : Config) (s : Sys cfg) (r : BusReq cfg), s.mem.wf = true → r.opcode = .put →
    (∀ a, (busAccept r s).mem.read a =
      if r.address.toNat ≤ a ∧ a < r.address.toNat + cfg.W ∧ r.mask.getLsbD (a - r.address.toNat) = true
      then byteOf r.data (a - r.address.toNat) else s.mem.read a) ∧
    (busAccept r s).responses.length = s.responses.length + 1

/-- R56: the answer to an aligned Get has every covered byte in its natural lane. -/
def Obligations.GetAnswersInNaturalLanes : Prop :=
  ∀ (cfg : Config) (s : Sys cfg) (r : BusReq cfg), r.opcode = .get → r.aligned = true →
    ∃ d, (busAccept r s).responses = s.responses ++ [d] ∧ (busAccept r s).mem = s.mem ∧
      ∀ j, j < cfg.W → laneCovered r j = true →
        byteOf d j = s.mem.read (r.address.toNat - r.address.toNat % cfg.W + j)

/-! ### Steps of a machine -/

/-- A step runs the decoded command: between operations, when the host's chunks begin with the frame of `i`, the
step is the meaning of `i` on the machine with that frame taken from the host. -/
def Obligations.StepRunsTheDecodedCommand : Prop :=
  ∀ (cfg : Config) (s : Sys cfg) (i : Instr) (rest : List (BitVec cfg.w)), s.regs.phase = .command →
    s.regs.fault = false → decode cfg s.serialIn = .ok (i, rest) →
    step ⟨cfg, s⟩ = exec i ⟨cfg, s.withSerialIn rest⟩

/-- The per-tick rules are the mechanism: a step of a machine that is not halted is ticks of the CORE with its
environment until the machine settles, and it always settles: between operations, with the fault raised, or with the
script used up and nothing left that could transfer (R212, R224; the model's step, log 2, and the answer of a halted
machine, log 14). -/
def Obligations.EveryStepIsTicksUntilSettled : Prop :=
  ∀ (cfg : Config) (s : Sys cfg),
    step ⟨cfg, s⟩ = (if s.halted then .fault .badCommandHalt else .next ⟨cfg, s.run⟩) ∧
    (s.run.regs.phase = .command ∨ s.run.regs.fault = true ∨ (s.run.script = [] ∧ s.run.waiting = true))

/-- R90, R224: a machine that waits stays as it is, in every phase; a stall is not a fault. -/
def Obligations.AWaitingMachineHolds : Prop :=
  ∀ (cfg : Config) (s : Sys cfg), s.regs.fault = false → s.script = [] → s.waiting = true →
    step ⟨cfg, s⟩ = .next ⟨cfg, s⟩

/-- R33, for every instance: the registers after reset; and the model's reset machine meets the invariants. -/
def Obligations.ResetMachineIsGood : Prop :=
  State.reset.sys.regs = Regs.reset State.reset.cfg ∧
  ∀ cfg : Config, (Sys.reset cfg).regs.phase = .command ∧ (Sys.reset cfg).regs.cmd = 0#_ ∧
    (Sys.reset cfg).regs.addr = 0#_ ∧ (Sys.reset cfg).regs.len = 0#_ ∧
    (∀ i : Fin cfg.N, (Sys.reset cfg).regs.body[i] = 0#_) ∧ (Sys.reset cfg).regs.valid = 0#_ ∧
    (Sys.reset cfg).regs.idx.val = 0 ∧ (Sys.reset cfg).regs.fault = false ∧
    (Sys.reset cfg).Inv ∧ (Sys.reset cfg).OneOutstanding ∧ (Sys.reset cfg).ready

/-- R31: from every state that meets the invariant, reached or not, a step gives a state that meets it. -/
def Obligations.StepKeepsTheInvariant : Prop :=
  ∀ (cfg : Config) (s t : Sys cfg), s.Inv → step ⟨cfg, s⟩ = .next ⟨cfg, t⟩ → t.Inv

/-- R61, R30: at most one request is outstanding, in WriteAck and ReadData only; a request fires only when no
response is owed; and a step keeps it so. -/
def Obligations.OneRequestOutstanding : Prop :=
  ∀ (cfg : Config) (s : Sys cfg), s.OneOutstanding →
    (∀ r, transferOf (s.inputs s.envNow) (outputs s.regs) = some (.request r) →
      s.responses = [] ∧ (s.regs.phase = .writeIssue ∨ s.regs.phase = .readRequest)) ∧
    s.responses.length ≤ 1 ∧ s.tick.OneOutstanding ∧
    ∀ t : Sys cfg, step ⟨cfg, s⟩ = .next ⟨cfg, t⟩ → t.OneOutstanding

/-- R222: stalls influence no value: with any finite script of stalls, a step ends in the same machine, but for what
is left of the script. -/
def Obligations.StallsChangeNoValue : Prop :=
  ∀ (cfg : Config) (s : Sys cfg), s.cooperative → s.regs.fault = false →
    ∃ t u, step ⟨cfg, s⟩ = .next ⟨cfg, t⟩ ∧ step ⟨cfg, s.calm⟩ = .next ⟨cfg, u⟩ ∧ t.calm = u.calm

/-! ### READ -/

/-- R110: READ completes. The whole end state, and what it leaves alone: memory, the validity mask, the latch, the
environment, and the host's further chunks. -/
def Obligations.ReadCompletes : Prop :=
  ∀ (cfg : Config) (s : Sys cfg) (address len : Nat), s.ready → (Instr.read address len).wellFormed cfg = true →
    firstGetAnswered address len s →
    ∃ t : Sys cfg, exec (.read address len) ⟨cfg, s⟩ = .next ⟨cfg, t⟩ ∧
      t.ready ∧ t.regs.cmd.toNat = 0 ∧ t.regs.len = BitVec.allOnes cfg.wordBits ∧
      t.regs.addr.toNat =
        (address - address % cfg.W + wordCount cfg address len * cfg.W) % 2 ^ cfg.wordBits ∧
      t.regs.idx.val = (startSlot cfg address + len + 1) % cfg.N ∧
      (∃ d, (responsesTaken t.trace).getLast? = some d ∧
        ∀ i : Fin cfg.N, t.regs.body[i] = d.extractLsb' (i.val * cfg.w) cfg.w) ∧
      (emitted t.trace).length = (emitted s.trace).length + len + 1 ∧
      t.regs.valid = s.regs.valid ∧ (∀ a, t.mem.read a = s.mem.read a) ∧ t.mem = s.mem ∧
      t.serialIn = s.serialIn ∧ t.answersMisaligned = s.answersMisaligned ∧ s.trace <+: t.trace

/-- U3, U4 and log 9 (the model's choice): a READ whose first Get is misaligned, on a bus that answers no such Get:
the request is issued, nothing is emitted, and the machine waits in ReadData for ever. -/
def Obligations.UnansweredReadWaits : Prop :=
  ∀ (cfg : Config) (s : Sys cfg) (address len : Nat), s.ready → (Instr.read address len).wellFormed cfg = true →
    (firstGet cfg address len).aligned = false → s.answersMisaligned = false →
    ∃ t : Sys cfg, exec (.read address len) ⟨cfg, s⟩ = .next ⟨cfg, t⟩ ∧ t.regs.phase = .readData ∧
      t.regs.fault = false ∧ t.responses = [] ∧ requests t.trace = requests s.trace ++ [firstGet cfg address len] ∧
      emitted t.trace = emitted s.trace ∧ t.mem = s.mem ∧ step ⟨cfg, t⟩ = .next ⟨cfg, t⟩

/-- R110, pseudocode: READ is its whole operation, word by word, on a machine that stalls nothing. -/
def Obligations.ReadIsTheWholeOperation : Prop :=
  ∀ (cfg : Config) (s : Sys cfg) (address len : Nat), s.ready → s.script = [] →
    (Instr.read address len).wellFormed cfg = true → firstGetAnswered address len s →
    exec (.read address len) ⟨cfg, s⟩ = .next ⟨cfg, wholeRead address len s⟩

/-- R110, result, under the conditions that R110 itself puts on it: with a chunk-aligned address and an aligned first
Get (every later Get is aligned), `Q[j]` is the chunk of memory at `Address + j*c`, modulo the address space, for
`j = 0 .. Len`, and nothing more is emitted. -/
def Obligations.ReadEmitsTheBytesOfMemory : Prop :=
  ∀ (cfg : Config) (s : Sys cfg) (address len : Nat), s.ready → (Instr.read address len).wellFormed cfg = true →
    chunkAligned cfg address → (firstGet cfg address len).aligned = true →
    ∃ t : Sys cfg, exec (.read address len) ⟨cfg, s⟩ = .next ⟨cfg, t⟩ ∧
      emitted t.trace = emitted s.trace ++
        (List.range (len + 1)).map (fun j => memReadChunk cfg s.mem (address + j * cfg.c))

/-- R114, R110: READ issues exactly `nWords` Gets and no Put, one for each word in address order, each computed from
that word's address and the chunks still wanted. -/
def Obligations.ReadIssuesOneGetPerWord : Prop :=
  ∀ (cfg : Config) (s : Sys cfg) (address len : Nat), s.ready → (Instr.read address len).wellFormed cfg = true →
    firstGetAnswered address len s →
    ∃ t : Sys cfg, exec (.read address len) ⟨cfg, s⟩ = .next ⟨cfg, t⟩ ∧
      requests t.trace = requests s.trace ++ (List.range (wordCount cfg address len)).map fun k =>
        getReq (BitVec.ofNat cfg.wordBits (if k = 0 then address else address - address % cfg.W + k * cfg.W))
          (BitVec.ofNat cfg.wordBits (len - chunksBefore cfg address k))

/-! ### WRITE -/

/-- R111: WRITE completes. The whole end state of the CORE, and what it leaves alone: a slot of `body` holds the last
data chunk that was stored in it, and a slot in which none was stored holds what it held. Memory is the subject of
`WriteStoresTheChunks` and `WriteLeavesOtherBytesAlone`. -/
def Obligations.WriteCompletes : Prop :=
  ∀ (cfg : Config) (s : Sys cfg) (address len : Nat) (data : List Nat), s.ready →
    (Instr.write address len data).wellFormed cfg = true →
    ∃ t : Sys cfg, exec (.write address len data) ⟨cfg, s⟩ = .next ⟨cfg, t⟩ ∧
      t.ready ∧ t.regs.cmd.toNat = 1 ∧ t.regs.len = 0#_ ∧
      t.regs.addr.toNat = (if wordCount cfg address len = 1 then address
        else (address - address % cfg.W + (wordCount cfg address len - 1) * cfg.W) % 2 ^ cfg.wordBits) ∧
      t.regs.idx.val = (startSlot cfg address + len) % cfg.N ∧
      t.regs.valid = slotRun cfg (firstSlot cfg address (wordCount cfg address len - 1))
        (slotCount cfg address len (wordCount cfg address len - 1)) ∧
      (∀ i : Fin cfg.N, (∀ j, j ≤ len → (startSlot cfg address + j) % cfg.N ≠ i.val) → t.regs.body[i] = s.regs.body[i]) ∧
      (∀ (i : Fin cfg.N) (j : Nat), j ≤ len → len < j + cfg.N → (startSlot cfg address + j) % cfg.N = i.val →
        t.regs.body[i].toNat = data.getD j 0) ∧
      emitted t.trace = emitted s.trace ∧
      t.serialIn = s.serialIn ∧ t.answersMisaligned = s.answersMisaligned ∧ s.trace <+: t.trace

/-- R111, pseudocode: WRITE is its whole operation, word by word, on a machine that stalls nothing. The Puts are compared
whole, so this also fixes their masked-out data lanes, which are computed as R154 says (log 16). -/
def Obligations.WriteIsTheWholeOperation : Prop :=
  ∀ (cfg : Config) (s : Sys cfg) (address len : Nat) (data : List Nat), s.ready → s.script = [] →
    (Instr.write address len data).wellFormed cfg = true →
    exec (.write address len data) ⟨cfg, s⟩ = .next ⟨cfg, wholeWrite address len data s⟩

/-- R111, result: memory is what `MemWrite(Abase + j*c, c, D[j])` for `j = 0 .. Len`, in that order, makes of it,
with `Abase = Address - (Address mod c)`. -/
def Obligations.WriteStoresTheChunks : Prop :=
  ∀ (cfg : Config) (s : Sys cfg) (address len : Nat) (data : List Nat), s.ready →
    (Instr.write address len data).wellFormed cfg = true →
    ∃ t : Sys cfg, exec (.write address len data) ⟨cfg, s⟩ = .next ⟨cfg, t⟩ ∧
      t.mem = (List.range (len + 1)).foldl
        (fun m j => memWriteChunk cfg m (address - address % cfg.c + j * cfg.c)
          (BitVec.ofNat cfg.w (data.getD j 0))) s.mem

/-- R111, frame: every byte of memory outside the stored bytes reads as before; the stored bytes are the `c` bytes
at `Abase + j*c`, modulo the address space, for `j = 0 .. Len`. -/
def Obligations.WriteLeavesOtherBytesAlone : Prop :=
  ∀ (cfg : Config) (s t : Sys cfg) (address len : Nat) (data : List Nat), s.ready → s.mem.wf = true →
    (Instr.write address len data).wellFormed cfg = true →
    exec (.write address len data) ⟨cfg, s⟩ = .next ⟨cfg, t⟩ →
    ∀ a, (∀ j b, j ≤ len → b < cfg.c →
        a ≠ (address - address % cfg.c + j * cfg.c + b) % 2 ^ cfg.addrBits) →
      t.mem.read a = s.mem.read a

/-- R114, R111, R176: WRITE issues exactly `nWords` Puts and no Get, Put `k` at the base of word `k`, the full word,
its mask exactly the slots used in that word, and those slots hold that word's data chunks. -/
def Obligations.WriteIssuesOnePutPerWord : Prop :=
  ∀ (cfg : Config) (s : Sys cfg) (address len : Nat) (data : List Nat), s.ready →
    (Instr.write address len data).wellFormed cfg = true →
    ∃ (t : Sys cfg) (puts : List (BusReq cfg)), exec (.write address len data) ⟨cfg, s⟩ = .next ⟨cfg, t⟩ ∧
      requests t.trace = requests s.trace ++ puts ∧ puts.length = wordCount cfg address len ∧
      ∀ k r, puts[k]? = some r →
        r.opcode = .put ∧ r.address = wordAddress cfg address k ∧ r.size = cfg.W ∧
        r.mask = expandMask (slotRun cfg (firstSlot cfg address k) (slotCount cfg address len k)) ∧
        ∀ j, j < slotCount cfg address len k →
          (r.data.extractLsb' ((firstSlot cfg address k + j) * cfg.w) cfg.w).toNat =
            data.getD (chunksBefore cfg address k + j) 0

/-! ### Both commands, and the frame of none -/

/-- R116, R63: a WRITE and then a READ of the same address and length emits the data written, when the address is
chunk-aligned and the Gets are aligned. The premise `fitsAddressSpace`, that the operation does not wrap round the whole
address space onto its own bytes, is the model's (log 22): R116 does not write it. -/
def Obligations.WrittenDataIsReadBack : Prop :=
  ∀ (cfg : Config) (s : Sys cfg) (address len : Nat) (data : List Nat), s.ready → s.mem.wf = true →
    (Instr.write address len data).wellFormed cfg = true → chunkAligned cfg address →
    (firstGet cfg address len).aligned = true → fitsAddressSpace cfg len →
    ∃ t u : Sys cfg, exec (.write address len data) ⟨cfg, s⟩ = .next ⟨cfg, t⟩ ∧
      exec (.read address len) ⟨cfg, t⟩ = .next ⟨cfg, u⟩ ∧
      emitted u.trace = emitted s.trace ++ data.map (BitVec.ofNat cfg.w)

/-- R32: nothing carries information from one operation into the next except stale buffer slots: whatever the
registers hold between operations, a READ makes the same transfers and a WRITE makes the same memory, the same
addresses and the same masks. After a READ the registers agree but for `valid`, which a READ neither reads nor writes
(R196); after a WRITE they agree but for the slots of `body`. -/
def Obligations.OnlyStaleSlotsCarryOver : Prop :=
  ∀ (cfg : Config) (s : Sys cfg) (S : Regs cfg) (address len : Nat) (data : List Nat), s.ready →
    S.phase = .command → S.fault = false →
    ((Instr.read address len).wellFormed cfg = true → firstGetAnswered address len s →
      ∃ t u : Sys cfg, exec (.read address len) ⟨cfg, s⟩ = .next ⟨cfg, t⟩ ∧
        exec (.read address len) ⟨cfg, { s with regs := S }⟩ = .next ⟨cfg, u⟩ ∧
        t.trace = u.trace ∧ t.mem = u.mem ∧ t.regs = { u.regs with valid := s.regs.valid }) ∧
    ((Instr.write address len data).wellFormed cfg = true →
      ∃ t u : Sys cfg, exec (.write address len data) ⟨cfg, s⟩ = .next ⟨cfg, t⟩ ∧
        exec (.write address len data) ⟨cfg, { s with regs := S }⟩ = .next ⟨cfg, u⟩ ∧
        t.mem = u.mem ∧ t.regs = { u.regs with body := t.regs.body } ∧
        (requests t.trace).map (fun r => (r.opcode, r.address, r.size, r.mask)) =
          (requests u.trace).map (fun r => (r.opcode, r.address, r.size, r.mask)))

/-- R112, R243, R246: a frame whose command is neither 0 nor 1: its header is consumed, the fault is raised, no
request is issued, no chunk is emitted, memory is as before, and the chunks behind it stay with the host. The last
clause, that a step from there answers the fault `badCommandHalt`, is the model's choice (log 14): R245 says that the
state is held. -/
def Obligations.BadCommandFrameHalts : Prop :=
  ∀ (cfg : Config) (s : Sys cfg) (code address len : Nat) (rest : List (BitVec cfg.w)), s.ready →
    code < 2 ^ cfg.w → code ≠ 0 → code ≠ 1 → address < 2 ^ cfg.wordBits → len < 2 ^ cfg.wordBits →
    s.serialIn = encodeHeader cfg code address len ++ rest →
    ∃ t : Sys cfg, step ⟨cfg, s⟩ = .next ⟨cfg, t⟩ ∧ t.regs.fault = true ∧ t.regs.phase = .length ∧
      t.regs.cmd.toNat = code ∧ t.regs.addr.toNat = address ∧ t.regs.len.toNat = len ∧
      t.regs.idx = slotOf t.regs.addr ∧ t.regs.body = s.regs.body ∧ t.regs.valid = s.regs.valid ∧
      requests t.trace = requests s.trace ∧ emitted t.trace = emitted s.trace ∧ t.mem = s.mem ∧
      t.serialIn = rest ∧ step ⟨cfg, t⟩ = .fault .badCommandHalt

/-- R245, R249 (what the step answers is the model's choice, log 14): a halted machine with no reset to come answers
the halt, whatever it is given; a reset takes it back to the reset registers with its other state as it was. -/
def Obligations.OnlyResetLeavesTheHalt : Prop :=
  ∀ (cfg : Config) (s : Sys cfg), s.regs.fault = true → s.regs.phase = .length →
    (s.noReset → step ⟨cfg, s⟩ = .fault .badCommandHalt ∧
      ∀ i, exec i ⟨cfg, s⟩ = .fault .badCommandHalt) ∧
    (∀ o es, s.script = ⟨true, o⟩ :: es →
      step ⟨cfg, s⟩ = .next ⟨cfg, { s with regs := Regs.reset cfg, script := es }⟩)

/-- R34, R262 (b) (that the bus keeps the response is the model's bus, log 13): a tick with reset gives the reset
registers from every state, and a response that was owed and not taken in that tick is still owed. -/
def Obligations.ResetForgetsTheOutstandingRequest : Prop :=
  ∀ (cfg : Config) (s : Sys cfg) (o : Offers) (es : List EnvTick), s.script = ⟨true, o⟩ :: es →
    s.tick.regs = Regs.reset cfg ∧ s.tick.script = es ∧
    (o.busResp = false → s.regs.phase.presentsRequest = false → s.tick.responses = s.responses)

/-- The interface's placement of an instruction: the very next step runs exactly the command of those bits, whatever
the state was (log 3). -/
def Obligations.PlacedInstructionRunsNext : Prop :=
  ∀ (cfg : Config) (s : Sys cfg) (nbits w : Nat) (i : Instr), decode cfg (tableChunks cfg nbits w) = .ok (i, []) →
    step (State.withFetchWord ⟨cfg, s⟩ nbits w) =
      exec i ⟨cfg, { s with regs := { s.regs with phase := .command, fault := false }, script := [] }⟩
end

