-- ==== Sys2Proof/Laws/Bits.lean ====
section
/-! SUPPORT. Laws/Bits.lean: what the bit and byte helpers of the model compute, bit by bit. -/

namespace Sys2Proof

theorem isPow2_iff (n : Nat) : isPow2 n = true ↔ ∃ k, n = 2 ^ k := by
  constructor
  · intro h
    exact ⟨n.log2, (beq_iff_eq.1 h).symm⟩
  · rintro ⟨k, rfl⟩
    simp [isPow2, Nat.log2_two_pow]

namespace Config

theorem wordBits_eq_pow (cfg : Config) : 2 ^ Nat.log2 cfg.wordBits = cfg.wordBits := by
  simpa [isPow2] using cfg.check_parts.2.2.1

theorem w_eq_pow (cfg : Config) : 2 ^ Nat.log2 cfg.w = cfg.w := by
  simpa [isPow2] using cfg.check_parts.1

theorem w_le_wordBits (cfg : Config) : cfg.w ≤ cfg.wordBits := cfg.check_parts.2.2.2.1

theorem addrBits_le_wordBits (cfg : Config) : cfg.addrBits ≤ cfg.wordBits := cfg.check_parts.2.2.2.2.2.2

theorem three_le_log2_w (cfg : Config) : 3 ≤ Nat.log2 cfg.w := by
  by_contra h
  have h1 := cfg.w_eq_pow
  have h2 := cfg.check_parts.2.1
  have : 2 ^ Nat.log2 cfg.w ≤ 2 ^ 2 := Nat.pow_le_pow_right (by decide) (by omega)
  omega

theorem log2_w_le (cfg : Config) : Nat.log2 cfg.w ≤ Nat.log2 cfg.wordBits := by
  have h := cfg.w_le_wordBits
  rw [← cfg.w_eq_pow, ← cfg.wordBits_eq_pow] at h
  exact (Nat.pow_le_pow_iff_right (by decide)).1 h

theorem c_eq_pow (cfg : Config) : cfg.c = 2 ^ (Nat.log2 cfg.w - 3) := by
  have h1 := cfg.eight_mul_c
  have h2 := cfg.w_eq_pow
  have h3 := cfg.three_le_log2_w
  have : 8 * cfg.c = 8 * 2 ^ (Nat.log2 cfg.w - 3) := by
    rw [h1, show (8 : Nat) = 2 ^ 3 from rfl, ← pow_add, Nat.add_sub_cancel' h3, h2]
  exact Nat.eq_of_mul_eq_mul_left (by decide) this

theorem W_eq_pow (cfg : Config) : cfg.W = 2 ^ (Nat.log2 cfg.wordBits - 3) := by
  have h1 := cfg.eight_mul_W
  have h2 := cfg.wordBits_eq_pow
  have h3 := Nat.le_trans cfg.three_le_log2_w cfg.log2_w_le
  have : 8 * cfg.W = 8 * 2 ^ (Nat.log2 cfg.wordBits - 3) := by
    rw [h1, show (8 : Nat) = 2 ^ 3 from rfl, ← pow_add, Nat.add_sub_cancel' h3, h2]
  exact Nat.eq_of_mul_eq_mul_left (by decide) this

theorem N_eq_pow (cfg : Config) : cfg.N = 2 ^ (Nat.log2 cfg.wordBits - Nat.log2 cfg.w) := by
  have h1 := cfg.w_eq_pow
  have h2 := cfg.wordBits_eq_pow
  have h3 := cfg.log2_w_le
  have : cfg.N * cfg.w = 2 ^ (Nat.log2 cfg.wordBits - Nat.log2 cfg.w) * cfg.w := by
    rw [cfg.N_mul_w]
    conv_rhs => rw [← h1, Nat.log2_two_pow, ← pow_add, Nat.sub_add_cancel h3, h2]
  exact Nat.eq_of_mul_eq_mul_right cfg.w_pos this

/-- The address space is whole words. -/
theorem W_dvd_two_pow_addrBits (cfg : Config) : cfg.W ∣ 2 ^ cfg.addrBits := by
  have h := cfg.check_parts.2.2.2.2.2.1
  have hW := cfg.W_eq_pow
  rw [show cfg.wordBits / 8 = cfg.W from rfl, hW, Nat.log2_two_pow] at h
  rw [hW]
  exact pow_dvd_pow 2 h

theorem W_dvd_two_pow_wordBits (cfg : Config) : cfg.W ∣ 2 ^ cfg.wordBits :=
  cfg.W_dvd_two_pow_addrBits.trans (pow_dvd_pow 2 cfg.addrBits_le_wordBits)

theorem c_dvd_W (cfg : Config) : cfg.c ∣ cfg.W := ⟨cfg.N, by rw [Nat.mul_comm, cfg.N_mul_c]⟩

theorem N_le_wordBits (cfg : Config) : cfg.N ≤ cfg.wordBits := Nat.div_le_self _ _

theorem N_lt_two_pow_wordBits (cfg : Config) : cfg.N < 2 ^ cfg.wordBits :=
  Nat.lt_of_le_of_lt cfg.N_le_wordBits Nat.lt_two_pow_self

end Config

namespace Machine

/-- Bit `k` of a value made of bytes is bit `k % 8` of byte `k / 8`. -/
theorem ofBytesLE_getLsbD (width n : Nat) (f : Nat → Byte) (k : Nat) :
    (ofBytesLE width n f).getLsbD k =
      (decide (k < width) && decide (k / 8 < n) && (f (k / 8)).getLsbD (k % 8)) := by
  induction n generalizing f k with
  | zero => simp [ofBytesLE]
  | succ n ih =>
    rw [ofBytesLE, BitVec.getLsbD_or, BitVec.getLsbD_setWidth, BitVec.getLsbD_shiftLeft, ih]
    by_cases hw : k < width
    · by_cases h8 : k < 8
      · have h0 : k / 8 = 0 := by omega
        simp [hw, h8, h0, Nat.mod_eq_of_lt h8]
      · have h1 : k / 8 = (k - 8) / 8 + 1 := by omega
        have h2 : (k - 8) % 8 = k % 8 := by omega
        have h3 : k - 8 < width := by omega
        have h4 : (f 0).getLsbD k = false := BitVec.getLsbD_of_ge _ _ (by omega)
        simp [hw, h8, h1, h2, h3, h4]
    · simp [hw]

/-- Byte `j` of a value made of bytes is the `j`-th byte. -/
theorem byteOf_ofBytesLE (width n : Nat) (f : Nat → Byte) (j : Nat) (hj : j < n) (hw : 8 * n ≤ width) :
    byteOf (ofBytesLE width n f) j = f j := by
  apply BitVec.eq_of_getLsbD_eq
  intro k hk
  have h1 : (8 * j + k) / 8 = j := by omega
  have h2 : (8 * j + k) % 8 = k := by omega
  have h3 : 8 * j + k < width := by omega
  rw [byteOf, BitVec.getLsbD_extractLsb', ofBytesLE_getLsbD, h1, h2]
  simp only [hk, h3, hj, decide_true, Bool.true_and]

/-- A value of whole bytes is made of its bytes. -/
theorem ofBytesLE_byteOf (width n : Nat) (v : BitVec width) (h : 8 * n = width) :
    ofBytesLE width n (byteOf v) = v := by
  apply BitVec.eq_of_getLsbD_eq
  intro k hk
  have h1 : 8 * (k / 8) + k % 8 = k := by omega
  have h2 : k / 8 < n := by omega
  have h3 : k % 8 < 8 := Nat.mod_lt _ (by decide)
  rw [ofBytesLE_getLsbD, byteOf, BitVec.getLsbD_extractLsb', h1]
  simp only [hk, h2, h3, decide_true, Bool.true_and]

/-- Two values made of bytes that agree on every byte are one. -/
theorem ofBytesLE_congr (width n : Nat) (f g : Nat → Byte) (h : ∀ j < n, f j = g j) :
    ofBytesLE width n f = ofBytesLE width n g := by
  apply BitVec.eq_of_getLsbD_eq
  intro k hk
  simp only [ofBytesLE_getLsbD]
  by_cases hn : k / 8 < n
  · rw [h _ hn]
  · simp [hn]

theorem natOfBits_testBit (n : Nat) (f : Nat → Bool) (j : Nat) :
    (natOfBits n f).testBit j = (decide (j < n) && f j) := by
  induction n generalizing f j with
  | zero => simp [natOfBits]
  | succ n ih =>
    rw [natOfBits]
    cases j with
    | zero => cases h : f 0 <;> simp [Nat.testBit_zero, Nat.add_mod]
    | succ j =>
      rw [Nat.testBit_succ]
      have : ((f 0).toNat + 2 * natOfBits n fun j => f (j + 1)) / 2 = natOfBits n fun j => f (j + 1) := by
        cases f 0 <;> (simp; try omega)
      rw [this, ih]
      simp

/-- R155: bit `j` of the byte mask is the validity bit of the slot that holds lane `j`. -/
theorem expandMask_getLsbD {cfg : Config} (valid : BitVec cfg.N) (j : Nat) :
    (expandMask valid).getLsbD j = (decide (j < cfg.W) && valid.getLsbD (j / cfg.c)) := by
  rw [expandMask, BitVec.getLsbD_ofNat, natOfBits_testBit]
  by_cases h : j < cfg.W <;> simp [h]

theorem slotRun_getLsbD (cfg : Config) (first count i : Nat) :
    (slotRun cfg first count).getLsbD i =
      (decide (i < cfg.N) && (decide (first ≤ i) && decide (i < first + count))) := by
  rw [slotRun, BitVec.getLsbD_ofNat, natOfBits_testBit]
  by_cases h : i < cfg.N <;> simp [h]

theorem markValid_getLsbD {cfg : Config} (valid : BitVec cfg.N) (i : Fin cfg.N) (j : Nat) :
    (markValid valid i).getLsbD j = (valid.getLsbD j || decide (j = i.val)) := by
  rw [markValid, BitVec.getLsbD_or, BitVec.getLsbD_shiftLeft]
  by_cases h : j = i.val
  · subst h
    simp [i.isLt, cfg.N_pos]
  · have : (decide (j < cfg.N) && (!decide (j < i.val) && (1#cfg.N).getLsbD (j - i.val))) = false := by
      by_cases h1 : j < i.val
      · simp [h1]
      · have : j - i.val ≠ 0 := by omega
        simp [BitVec.getLsbD_one, this]
    simp only [Bool.and_eq_false_iff] at this ⊢
    simp [h]
    omega

/-- Bit `k` of a chunk in lane `i`. -/
theorem shiftChunk_getLsbD {cfg : Config} (x : BitVec cfg.w) (i k : Nat) :
    (shiftChunk x i).getLsbD k =
      (decide (k < cfg.wordBits) && decide (i * cfg.w ≤ k) && x.getLsbD (k - i * cfg.w)) := by
  rw [shiftChunk, BitVec.getLsbD_shiftLeft, BitVec.getLsbD_setWidth]
  by_cases h1 : k < cfg.wordBits
  · by_cases h2 : k < i * cfg.w
    · have : ¬ i * cfg.w ≤ k := by omega
      simp [h2, this]
    · have h3 : i * cfg.w ≤ k := by omega
      have h4 : k - i * cfg.w < cfg.wordBits := by omega
      simp [h1, h2, h3, h4]
  · simp [h1]

theorem slotBits_getLsbD {cfg : Config} (d : BitVec cfg.wordBits) (i k : Nat) :
    (slotBits d i).getLsbD k = (decide (k < cfg.w) && d.getLsbD (i * cfg.w + k)) := by
  simp [slotBits]

/-- Bit `k` of chunks side by side is bit `k % w` of chunk `k / w`. -/
theorem packChunks_getLsbD {cfg : Config} (l : List (BitVec cfg.w)) (k : Nat) :
    (packChunks l).getLsbD k =
      (decide (k < cfg.wordBits) && ((l[k / cfg.w]?).getD 0#_).getLsbD (k % cfg.w)) := by
  have hw := cfg.w_pos
  induction l generalizing k with
  | nil => simp [packChunks]
  | cons x xs ih =>
    rw [packChunks, BitVec.getLsbD_or, BitVec.getLsbD_setWidth, BitVec.getLsbD_shiftLeft, ih]
    by_cases h1 : k < cfg.wordBits
    · by_cases h2 : k < cfg.w
      · have h0 : k / cfg.w = 0 := Nat.div_eq_of_lt h2
        simp [h1, h2, h0, Nat.mod_eq_of_lt h2]
      · have h3 : k / cfg.w = (k - cfg.w) / cfg.w + 1 := by
          rw [← Nat.sub_add_cancel (Nat.le_of_not_lt h2), Nat.add_div_right _ hw]
          simp
        have h4 : k % cfg.w = (k - cfg.w) % cfg.w := Nat.mod_eq_sub_mod (Nat.le_of_not_lt h2)
        have h5 : x.getLsbD k = false := BitVec.getLsbD_of_ge _ _ (Nat.le_of_not_lt h2)
        have h6 : k - cfg.w < cfg.wordBits := by omega
        simp [h1, h2, h3, h4, h5, h6]
    · simp [h1]

/-- Lane arithmetic: bit `k` of lane `i` has index `i*w + k`. -/
theorem lane_div {cfg : Config} (i k : Nat) (hk : k < cfg.w) : (i * cfg.w + k) / cfg.w = i := by
  rw [Nat.mul_comm, Nat.mul_add_div cfg.w_pos, Nat.div_eq_of_lt hk, Nat.add_zero]

theorem lane_mod {cfg : Config} (i k : Nat) (hk : k < cfg.w) : (i * cfg.w + k) % cfg.w = k := by
  rw [Nat.mul_comm, Nat.mul_add_mod, Nat.mod_eq_of_lt hk]

theorem lane_lt {cfg : Config} (i k : Nat) (hi : i < cfg.N) (hk : k < cfg.w) : i * cfg.w + k < cfg.wordBits := by
  have h1 : (i + 1) * cfg.w ≤ cfg.N * cfg.w := Nat.mul_le_mul_right _ hi
  rw [cfg.N_mul_w, Nat.add_mul] at h1
  omega

/-- R54: slot `i` of the bus word is `body[i]`. -/
theorem slotBits_packWord {cfg : Config} (body : Vector (BitVec cfg.w) cfg.N) (i : Nat) (hi : i < cfg.N) :
    slotBits (packWord body) i = body[i] := by
  apply BitVec.eq_of_getLsbD_eq
  intro k hk
  rw [slotBits_getLsbD, packWord, packChunks_getLsbD, lane_div i k hk, lane_mod i k hk]
  simp [hk, lane_lt i k hi hk, hi]

/-- R192: slot `i` of a loaded response word. -/
theorem unpackWord_get {cfg : Config} (d : BitVec cfg.wordBits) (i : Nat) (hi : i < cfg.N) :
    (unpackWord d)[i] = slotBits d i := by
  simp [unpackWord]

/-- A chunk put into lane `i` is read back from slot `i`, and from no other slot. -/
theorem slotBits_shiftChunk {cfg : Config} (x : BitVec cfg.w) (i j : Nat) (hj : j < cfg.N) :
    slotBits (shiftChunk x i) j = if i = j then x else 0#_ := by
  apply BitVec.eq_of_getLsbD_eq
  intro k hk
  rw [slotBits_getLsbD, shiftChunk_getLsbD]
  have hlt := lane_lt (cfg := cfg) j k hj hk
  by_cases h : i = j
  · subst h
    simp [hk, hlt]
  · have : (decide (i * cfg.w ≤ j * cfg.w + k) && x.getLsbD (j * cfg.w + k - i * cfg.w)) = false := by
      by_cases h1 : i ≤ j
      · have h2 : (i + 1) * cfg.w ≤ j * cfg.w := Nat.mul_le_mul_right _ (by omega)
        rw [Nat.add_mul] at h2
        rw [BitVec.getLsbD_of_ge x (j * cfg.w + k - i * cfg.w) (by omega)]
        simp
      · have h2 : (j + 1) * cfg.w ≤ i * cfg.w := Nat.mul_le_mul_right _ (by omega)
        rw [Nat.add_mul] at h2
        have : ¬ i * cfg.w ≤ j * cfg.w + k := by omega
        simp [this]
    simp [h, hk, hlt]
    simpa using this

end Machine

end Sys2Proof
end

