-- ==== Sys2Proof/Laws/State.lean ====
section
/-! SUPPORT. Laws/State.lean: one lemma for each field of each named update, so that no proof unfolds a record
update. -/

namespace Sys2Proof.Machine

variable {cfg : Config} (s : Sys cfg) (S : Regs cfg)

section Record
variable (t : Transfer cfg)
@[simp] theorem record_regs : (s.record t).regs = s.regs := rfl
@[simp] theorem record_serialIn : (s.record t).serialIn = s.serialIn := rfl
@[simp] theorem record_trace : (s.record t).trace = s.trace ++ [t] := rfl
@[simp] theorem record_responses : (s.record t).responses = s.responses := rfl
@[simp] theorem record_mem : (s.record t).mem = s.mem := rfl
@[simp] theorem record_answersMisaligned : (s.record t).answersMisaligned = s.answersMisaligned := rfl
@[simp] theorem record_draws : (s.record t).draws = s.draws := rfl
@[simp] theorem record_script : (s.record t).script = s.script := rfl
@[simp] theorem record_steady : (s.record t).steady = s.steady := rfl
end Record

section Offer
variable (q : List (BitVec cfg.w))
@[simp] theorem offer_regs : (s.offer q).regs = s.regs := rfl
@[simp] theorem offer_serialIn : (s.offer q).serialIn = q ++ s.serialIn := rfl
@[simp] theorem offer_trace : (s.offer q).trace = s.trace := rfl
@[simp] theorem offer_responses : (s.offer q).responses = s.responses := rfl
@[simp] theorem offer_mem : (s.offer q).mem = s.mem := rfl
@[simp] theorem offer_answersMisaligned : (s.offer q).answersMisaligned = s.answersMisaligned := rfl
@[simp] theorem offer_draws : (s.offer q).draws = s.draws := rfl
@[simp] theorem offer_script : (s.offer q).script = s.script := rfl
@[simp] theorem offer_steady : (s.offer q).steady = s.steady := rfl
@[simp] theorem withSerialIn_regs : (s.withSerialIn q).regs = s.regs := rfl
@[simp] theorem withSerialIn_serialIn : (s.withSerialIn q).serialIn = q := rfl
@[simp] theorem withSerialIn_trace : (s.withSerialIn q).trace = s.trace := rfl
@[simp] theorem withSerialIn_responses : (s.withSerialIn q).responses = s.responses := rfl
@[simp] theorem withSerialIn_mem : (s.withSerialIn q).mem = s.mem := rfl
@[simp] theorem withSerialIn_answersMisaligned : (s.withSerialIn q).answersMisaligned = s.answersMisaligned := rfl
@[simp] theorem withSerialIn_draws : (s.withSerialIn q).draws = s.draws := rfl
@[simp] theorem withSerialIn_script : (s.withSerialIn q).script = s.script := rfl
@[simp] theorem withSerialIn_steady : (s.withSerialIn q).steady = s.steady := rfl
theorem offer_withSerialIn (rest : List (BitVec cfg.w)) :
    (s.withSerialIn rest).offer q = s.withSerialIn (q ++ rest) := rfl
theorem withSerialIn_self : s.withSerialIn s.serialIn = s := rfl
end Offer

section Calm
@[simp] theorem calm_regs : s.calm.regs = s.regs := rfl
@[simp] theorem calm_serialIn : s.calm.serialIn = s.serialIn := rfl
@[simp] theorem calm_trace : s.calm.trace = s.trace := rfl
@[simp] theorem calm_responses : s.calm.responses = s.responses := rfl
@[simp] theorem calm_mem : s.calm.mem = s.mem := rfl
@[simp] theorem calm_answersMisaligned : s.calm.answersMisaligned = s.answersMisaligned := rfl
@[simp] theorem calm_draws : s.calm.draws = s.draws := rfl
@[simp] theorem calm_script : s.calm.script = [] := rfl
@[simp] theorem calm_steady : s.calm.steady = s.steady := rfl
theorem calm_of_script_nil (h : s.script = []) : s.calm = s := by
  cases s; simp_all [Sys.calm]
end Calm

section Reset
@[simp] theorem reset_phase : (Regs.reset cfg).phase = .command := rfl
@[simp] theorem reset_cmd : (Regs.reset cfg).cmd = 0#_ := rfl
@[simp] theorem reset_addr : (Regs.reset cfg).addr = 0#_ := rfl
@[simp] theorem reset_len : (Regs.reset cfg).len = 0#_ := rfl
@[simp] theorem reset_valid : (Regs.reset cfg).valid = 0#_ := rfl
@[simp] theorem reset_idx : (Regs.reset cfg).idx = slotZero cfg := rfl
@[simp] theorem reset_fault : (Regs.reset cfg).fault = false := rfl
@[simp] theorem reset_body (i : Nat) (h : i < cfg.N) : (Regs.reset cfg).body[i] = 0#_ := by
  simp [Regs.reset]
@[simp] theorem applyReset_eq : applyReset S = Regs.reset cfg := rfl
end Reset

section RaiseBadCommand
@[simp] theorem raiseBadCommand_phase : (raiseBadCommand S).phase = S.phase := rfl
@[simp] theorem raiseBadCommand_cmd : (raiseBadCommand S).cmd = S.cmd := rfl
@[simp] theorem raiseBadCommand_addr : (raiseBadCommand S).addr = S.addr := rfl
@[simp] theorem raiseBadCommand_len : (raiseBadCommand S).len = S.len := rfl
@[simp] theorem raiseBadCommand_body : (raiseBadCommand S).body = S.body := rfl
@[simp] theorem raiseBadCommand_valid : (raiseBadCommand S).valid = S.valid := rfl
@[simp] theorem raiseBadCommand_idx : (raiseBadCommand S).idx = S.idx := rfl
@[simp] theorem raiseBadCommand_fault : (raiseBadCommand S).fault = true := rfl
end RaiseBadCommand

section OnCommand
variable (x : BitVec cfg.w)
@[simp] theorem onCommand_phase : (onCommand x S).phase = .address := rfl
@[simp] theorem onCommand_cmd : (onCommand x S).cmd = x := rfl
@[simp] theorem onCommand_addr : (onCommand x S).addr = 0#_ := rfl
@[simp] theorem onCommand_len : (onCommand x S).len = 0#_ := rfl
@[simp] theorem onCommand_body : (onCommand x S).body = S.body := rfl
@[simp] theorem onCommand_valid : (onCommand x S).valid = S.valid := rfl
@[simp] theorem onCommand_idx : (onCommand x S).idx = slotZero cfg := rfl
@[simp] theorem onCommand_fault : (onCommand x S).fault = S.fault := rfl
end OnCommand

section OnAddress
variable (x : BitVec cfg.w)
@[simp] theorem onAddress_phase :
    (onAddress x S).phase = if isLastSlot S.idx then .length else S.phase := by
  unfold onAddress; split <;> rfl
@[simp] theorem onAddress_cmd : (onAddress x S).cmd = S.cmd := by unfold onAddress; split <;> rfl
@[simp] theorem onAddress_addr : (onAddress x S).addr = S.addr ||| shiftChunk x S.idx.val := by
  unfold onAddress; split <;> rfl
@[simp] theorem onAddress_len : (onAddress x S).len = S.len := by unfold onAddress; split <;> rfl
@[simp] theorem onAddress_body : (onAddress x S).body = S.body := by unfold onAddress; split <;> rfl
@[simp] theorem onAddress_valid : (onAddress x S).valid = S.valid := by unfold onAddress; split <;> rfl
@[simp] theorem onAddress_idx :
    (onAddress x S).idx = if isLastSlot S.idx then slotZero cfg else nextSlot S.idx := by
  unfold onAddress; split <;> rfl
@[simp] theorem onAddress_fault : (onAddress x S).fault = S.fault := by unfold onAddress; split <;> rfl
end OnAddress

section DispatchCommand
@[simp] theorem dispatchCommand_phase :
    (dispatchCommand S).phase =
      if S.cmd.toNat = writeCode then .writeBody else if S.cmd.toNat = readCode then .readRequest else S.phase := by
  unfold dispatchCommand; split <;> [skip; split] <;> rfl
@[simp] theorem dispatchCommand_cmd : (dispatchCommand S).cmd = S.cmd := by
  unfold dispatchCommand; split <;> [skip; split] <;> rfl
@[simp] theorem dispatchCommand_addr : (dispatchCommand S).addr = S.addr := by
  unfold dispatchCommand; split <;> [skip; split] <;> rfl
@[simp] theorem dispatchCommand_len : (dispatchCommand S).len = S.len := by
  unfold dispatchCommand; split <;> [skip; split] <;> rfl
@[simp] theorem dispatchCommand_body : (dispatchCommand S).body = S.body := by
  unfold dispatchCommand; split <;> [skip; split] <;> rfl
@[simp] theorem dispatchCommand_valid :
    (dispatchCommand S).valid = if S.cmd.toNat = writeCode then emptyMask cfg else S.valid := by
  unfold dispatchCommand; split <;> [skip; split] <;> rfl
@[simp] theorem dispatchCommand_idx : (dispatchCommand S).idx = S.idx := by
  unfold dispatchCommand; split <;> [skip; split] <;> rfl
@[simp] theorem dispatchCommand_fault :
    (dispatchCommand S).fault =
      if S.cmd.toNat = writeCode then S.fault else if S.cmd.toNat = readCode then S.fault else true := by
  unfold dispatchCommand; split <;> [skip; split] <;> rfl
end DispatchCommand

section OnLength
variable (x : BitVec cfg.w)
@[simp] theorem onLength_cmd : (onLength x S).cmd = S.cmd := by unfold onLength; split <;> simp
@[simp] theorem onLength_addr : (onLength x S).addr = S.addr := by unfold onLength; split <;> simp
@[simp] theorem onLength_len : (onLength x S).len = S.len ||| shiftChunk x S.idx.val := by
  unfold onLength; split <;> simp
@[simp] theorem onLength_body : (onLength x S).body = S.body := by unfold onLength; split <;> simp
@[simp] theorem onLength_idx :
    (onLength x S).idx = if isLastSlot S.idx then slotOf S.addr else nextSlot S.idx := by
  unfold onLength; split <;> simp
theorem onLength_of_last (h : isLastSlot S.idx = true) :
    onLength x S =
      dispatchCommand { S with len := S.len ||| shiftChunk x S.idx.val, idx := slotOf S.addr } := by
  unfold onLength; rw [if_pos h]
theorem onLength_of_not_last (h : isLastSlot S.idx = false) :
    onLength x S = { S with len := S.len ||| shiftChunk x S.idx.val, idx := nextSlot S.idx } := by
  unfold onLength; rw [if_neg (by simp [h])]
end OnLength

section OnWriteBody
variable (x : BitVec cfg.w)
@[simp] theorem onWriteBody_phase :
    (onWriteBody x S).phase =
      if isLastSlot S.idx || decide (S.len = 0#_) then .writeIssue else S.phase := by
  unfold onWriteBody; split <;> rfl
@[simp] theorem onWriteBody_cmd : (onWriteBody x S).cmd = S.cmd := by unfold onWriteBody; split <;> rfl
@[simp] theorem onWriteBody_addr : (onWriteBody x S).addr = S.addr := by unfold onWriteBody; split <;> rfl
@[simp] theorem onWriteBody_len :
    (onWriteBody x S).len = if isLastSlot S.idx || decide (S.len = 0#_) then S.len else S.len - 1#_ := by
  unfold onWriteBody; split <;> rfl
@[simp] theorem onWriteBody_body : (onWriteBody x S).body = S.body.set S.idx.val x S.idx.isLt := by
  unfold onWriteBody; split <;> rfl
@[simp] theorem onWriteBody_valid : (onWriteBody x S).valid = markValid S.valid S.idx := by
  unfold onWriteBody; split <;> rfl
@[simp] theorem onWriteBody_idx :
    (onWriteBody x S).idx =
      if isLastSlot S.idx || decide (S.len = 0#_) then S.idx else nextSlot S.idx := by
  unfold onWriteBody; split <;> rfl
@[simp] theorem onWriteBody_fault : (onWriteBody x S).fault = S.fault := by unfold onWriteBody; split <;> rfl
end OnWriteBody

section OnWriteIssue
@[simp] theorem onWriteIssue_phase : (onWriteIssue S).phase = .writeAck := rfl
@[simp] theorem onWriteIssue_cmd : (onWriteIssue S).cmd = S.cmd := rfl
@[simp] theorem onWriteIssue_addr : (onWriteIssue S).addr = S.addr := rfl
@[simp] theorem onWriteIssue_len : (onWriteIssue S).len = S.len := rfl
@[simp] theorem onWriteIssue_body : (onWriteIssue S).body = S.body := rfl
@[simp] theorem onWriteIssue_valid : (onWriteIssue S).valid = S.valid := rfl
@[simp] theorem onWriteIssue_idx : (onWriteIssue S).idx = S.idx := rfl
@[simp] theorem onWriteIssue_fault : (onWriteIssue S).fault = S.fault := rfl
end OnWriteIssue

section OnWriteAck
@[simp] theorem onWriteAck_phase :
    (onWriteAck S).phase = if S.len = 0#_ then .command else .writeBody := by unfold onWriteAck; split <;> rfl
@[simp] theorem onWriteAck_cmd : (onWriteAck S).cmd = S.cmd := by unfold onWriteAck; split <;> rfl
@[simp] theorem onWriteAck_addr :
    (onWriteAck S).addr = if S.len = 0#_ then S.addr else nextAddr S.addr := by unfold onWriteAck; split <;> rfl
@[simp] theorem onWriteAck_len :
    (onWriteAck S).len = if S.len = 0#_ then S.len else S.len - 1#_ := by unfold onWriteAck; split <;> rfl
@[simp] theorem onWriteAck_body : (onWriteAck S).body = S.body := by unfold onWriteAck; split <;> rfl
@[simp] theorem onWriteAck_valid :
    (onWriteAck S).valid = if S.len = 0#_ then S.valid else emptyMask cfg := by unfold onWriteAck; split <;> rfl
@[simp] theorem onWriteAck_idx :
    (onWriteAck S).idx = if S.len = 0#_ then S.idx else slotZero cfg := by unfold onWriteAck; split <;> rfl
@[simp] theorem onWriteAck_fault : (onWriteAck S).fault = S.fault := by unfold onWriteAck; split <;> rfl
end OnWriteAck

section OnReadRequest
@[simp] theorem onReadRequest_phase : (onReadRequest S).phase = .readData := rfl
@[simp] theorem onReadRequest_cmd : (onReadRequest S).cmd = S.cmd := rfl
@[simp] theorem onReadRequest_addr : (onReadRequest S).addr = S.addr := rfl
@[simp] theorem onReadRequest_len : (onReadRequest S).len = S.len := rfl
@[simp] theorem onReadRequest_body : (onReadRequest S).body = S.body := rfl
@[simp] theorem onReadRequest_valid : (onReadRequest S).valid = S.valid := rfl
@[simp] theorem onReadRequest_idx : (onReadRequest S).idx = S.idx := rfl
@[simp] theorem onReadRequest_fault : (onReadRequest S).fault = S.fault := rfl
end OnReadRequest

section OnReadData
variable (d : BitVec cfg.wordBits)
@[simp] theorem onReadData_phase : (onReadData d S).phase = .readBody := rfl
@[simp] theorem onReadData_cmd : (onReadData d S).cmd = S.cmd := rfl
@[simp] theorem onReadData_addr : (onReadData d S).addr = nextAddr S.addr := rfl
@[simp] theorem onReadData_len : (onReadData d S).len = S.len := rfl
@[simp] theorem onReadData_body : (onReadData d S).body = unpackWord d := rfl
@[simp] theorem onReadData_valid : (onReadData d S).valid = S.valid := rfl
@[simp] theorem onReadData_idx : (onReadData d S).idx = slotOf S.addr := rfl
@[simp] theorem onReadData_fault : (onReadData d S).fault = S.fault := rfl
end OnReadData

section OnReadBody
@[simp] theorem onReadBody_phase :
    (onReadBody S).phase =
      if S.len = 0#_ then .command else if isLastSlot S.idx then .readRequest else S.phase := by
  unfold onReadBody; split <;> [skip; split] <;> rfl
@[simp] theorem onReadBody_cmd : (onReadBody S).cmd = S.cmd := by
  unfold onReadBody; split <;> [skip; split] <;> rfl
@[simp] theorem onReadBody_addr : (onReadBody S).addr = S.addr := by
  unfold onReadBody; split <;> [skip; split] <;> rfl
@[simp] theorem onReadBody_len : (onReadBody S).len = S.len - 1#_ := by
  unfold onReadBody; split <;> [skip; split] <;> rfl
@[simp] theorem onReadBody_body : (onReadBody S).body = S.body := by
  unfold onReadBody; split <;> [skip; split] <;> rfl
@[simp] theorem onReadBody_valid : (onReadBody S).valid = S.valid := by
  unfold onReadBody; split <;> [skip; split] <;> rfl
@[simp] theorem onReadBody_idx : (onReadBody S).idx = nextSlot S.idx := by
  unfold onReadBody; split <;> [skip; split] <;> rfl
@[simp] theorem onReadBody_fault : (onReadBody S).fault = S.fault := by
  unfold onReadBody; split <;> [skip; split] <;> rfl
end OnReadBody

section Traces
variable (t u : List (Transfer cfg))
@[simp] theorem emitted_append : emitted (t ++ u) = emitted t ++ emitted u := List.filterMap_append ..
@[simp] theorem consumed_append : consumed (t ++ u) = consumed t ++ consumed u := List.filterMap_append ..
@[simp] theorem requests_append : requests (t ++ u) = requests t ++ requests u := List.filterMap_append ..
@[simp] theorem responsesTaken_append : responsesTaken (t ++ u) = responsesTaken t ++ responsesTaken u :=
  List.filterMap_append ..
variable (x : BitVec cfg.w) (r : BusReq cfg) (d : BitVec cfg.wordBits) (l : List (BitVec cfg.w))
@[simp] theorem emitted_nil : emitted ([] : List (Transfer cfg)) = [] := rfl
@[simp] theorem emitted_chunkIn : emitted (.chunkIn x :: t) = emitted t := rfl
@[simp] theorem emitted_chunkOut : emitted (.chunkOut x :: t) = x :: emitted t := rfl
@[simp] theorem emitted_request : emitted (.request r :: t) = emitted t := rfl
@[simp] theorem emitted_response : emitted (.response d :: t) = emitted t := rfl
@[simp] theorem consumed_nil : consumed ([] : List (Transfer cfg)) = [] := rfl
@[simp] theorem consumed_chunkIn : consumed (.chunkIn x :: t) = x :: consumed t := rfl
@[simp] theorem consumed_chunkOut : consumed (.chunkOut x :: t) = consumed t := rfl
@[simp] theorem consumed_request : consumed (.request r :: t) = consumed t := rfl
@[simp] theorem consumed_response : consumed (.response d :: t) = consumed t := rfl
@[simp] theorem requests_nil : requests ([] : List (Transfer cfg)) = [] := rfl
@[simp] theorem requests_chunkIn : requests (.chunkIn x :: t) = requests t := rfl
@[simp] theorem requests_chunkOut : requests (.chunkOut x :: t) = requests t := rfl
@[simp] theorem requests_request : requests (.request r :: t) = r :: requests t := rfl
@[simp] theorem requests_response : requests (.response d :: t) = requests t := rfl
@[simp] theorem emitted_map_chunkIn : emitted (l.map .chunkIn) = [] := by
  induction l <;> simp_all
@[simp] theorem emitted_map_chunkOut : emitted (l.map .chunkOut) = l := by
  induction l <;> simp_all
@[simp] theorem requests_map_chunkIn : requests (l.map .chunkIn) = [] := by
  induction l <;> simp_all
@[simp] theorem requests_map_chunkOut : requests (l.map .chunkOut) = [] := by
  induction l <;> simp_all
end Traces

end Sys2Proof.Machine
end

