-- ==== Sys2Proof/Laws/Core.lean ====
section
/-! SUPPORT. Laws/Core.lean: what a tick of the CORE can do, said once: which transfer fires in which phase, and
what the step function of R220 makes of it. -/

namespace Sys2Proof.Machine

variable {cfg : Config}

/-- The transition of the phases that take a chunk, by phase. -/
def onChunk (x : BitVec cfg.w) (S : Regs cfg) : Regs cfg :=
  match S.phase with
  | .command => onCommand x S
  | .address => onAddress x S
  | .length => onLength x S
  | .writeBody => onWriteBody x S
  | .writeIssue | .writeAck | .readRequest | .readData | .readBody => S

/-- The transition of the phases that present a request, by phase. -/
def onAccepted (S : Regs cfg) : Regs cfg :=
  match S.phase with
  | .writeIssue => onWriteIssue S
  | .readRequest => onReadRequest S
  | .command | .address | .length | .writeBody | .writeAck | .readData | .readBody => S

/-- The transition of the phases that take a response, by phase. -/
def onResponse (d : BitVec cfg.wordBits) (S : Regs cfg) : Regs cfg :=
  match S.phase with
  | .writeAck => onWriteAck S
  | .readData => onReadData d S
  | .command | .address | .length | .writeBody | .writeIssue | .readRequest | .readBody => S

/-- What a transfer does to the registers (R220). -/
def onTransfer (t : Transfer cfg) (S : Regs cfg) : Regs cfg :=
  match t with
  | .chunkIn x => onChunk x S
  | .chunkOut _ => onReadBody S
  | .request _ => onAccepted S
  | .response d => onResponse d S

/-- The registers after a tick, by the transfer that fires in it. -/
theorem coreStep_eq (I : Inputs cfg) (S : Regs cfg) :
    coreStep I S =
      if I.reset then Regs.reset cfg
      else match transferOf I (outputs S) with
        | none => S
        | some t => onTransfer t S := by
  by_cases hr : I.reset = true
  · simp [coreStep, hr]
  by_cases hf : S.fault = true
  · simp [coreStep, transferOf, outputs, fire, hr, hf]
  · cases hp : S.phase <;> cases h1 : I.serialInValid <;> cases h2 : I.serialOutReady <;>
      cases h3 : I.busReqReady <;> cases h4 : I.busRespValid <;>
      simp [coreStep, transferOf, outputs, fire, phaseStep, Phase.takesChunk, Phase.presentsRequest,
        Phase.takesResponse, onTransfer, onChunk, onAccepted, onResponse, hr, hf, hp, h1, h2, h3, h4]

/-- Which transfer fires: a chunk in only in a phase that takes one, offered by the host. -/
theorem transferOf_chunkIn {I : Inputs cfg} {S : Regs cfg} {x : BitVec cfg.w}
    (h : transferOf I (outputs S) = some (.chunkIn x)) :
    S.fault = false ∧ S.phase.takesChunk = true ∧ I.serialInValid = true ∧ x = I.serialInBits := by
  unfold transferOf at h
  split at h
  · simp_all [fire, outputs]
  · repeat' (split at h)
    all_goals simp_all

/-- A chunk out only in ReadBody: the slot under the cursor. -/
theorem transferOf_chunkOut {I : Inputs cfg} {S : Regs cfg} {x : BitVec cfg.w}
    (h : transferOf I (outputs S) = some (.chunkOut x)) :
    S.fault = false ∧ S.phase = .readBody ∧ I.serialOutReady = true ∧ x = S.body[S.idx] := by
  unfold transferOf at h
  split at h
  · simp_all
  · split at h
    · simp_all [fire, outputs]
    · repeat' (split at h)
      all_goals simp_all

/-- A request only in WriteIssue (the Put) and ReadRequest (the Get). -/
theorem transferOf_request {I : Inputs cfg} {S : Regs cfg} {r : BusReq cfg}
    (h : transferOf I (outputs S) = some (.request r)) :
    S.fault = false ∧ I.busReqReady = true ∧
      ((S.phase = .writeIssue ∧ r = putReq S.addr S.body S.valid) ∨
        (S.phase = .readRequest ∧ r = getReq S.addr S.len)) := by
  unfold transferOf at h
  split at h
  · simp_all
  · split at h
    · simp_all
    · split at h
      · rename_i h3
        simp only [Option.some.injEq, Transfer.request.injEq] at h
        subst h
        simp only [fire, outputs, Bool.and_eq_true, Bool.not_eq_true'] at h3
        obtain ⟨⟨hf, hp⟩, hr⟩ := h3
        refine ⟨hf, hr, ?_⟩
        cases hph : S.phase <;> simp_all [Phase.presentsRequest, outputs, presentedRequest]
      · split at h <;> simp_all

/-- A response only in WriteAck and ReadData. -/
theorem transferOf_response {I : Inputs cfg} {S : Regs cfg} {d : BitVec cfg.wordBits}
    (h : transferOf I (outputs S) = some (.response d)) :
    S.fault = false ∧ (S.phase = .writeAck ∨ S.phase = .readData) ∧ I.busRespValid = true ∧ d = I.busRespData := by
  unfold transferOf at h
  split at h
  · simp_all
  · split at h
    · simp_all
    · split at h
      · simp_all
      · split at h
        · rename_i h4
          simp only [Option.some.injEq, Transfer.response.injEq] at h
          subst h
          simp only [fire, outputs, Bool.and_eq_true, Bool.not_eq_true'] at h4
          obtain ⟨hv, hf, hp⟩ := h4
          refine ⟨hf, ?_, hv, rfl⟩
          cases hph : S.phase <;> simp_all [Phase.takesResponse]
        · simp_all

/-- Which transfer fires in each phase of a machine that is not halted (R219, R220). -/
theorem transferOf_eq (I : Inputs cfg) (S : Regs cfg) (hf : S.fault = false) :
    transferOf I (outputs S) =
      match S.phase with
      | .command | .address | .length | .writeBody =>
        if I.serialInValid then some (.chunkIn I.serialInBits) else none
      | .writeIssue => if I.busReqReady then some (.request (putReq S.addr S.body S.valid)) else none
      | .readRequest => if I.busReqReady then some (.request (getReq S.addr S.len)) else none
      | .writeAck | .readData => if I.busRespValid then some (.response I.busRespData) else none
      | .readBody => if I.serialOutReady then some (.chunkOut S.body[S.idx]) else none := by
  cases hp : S.phase <;>
    simp [transferOf, outputs, fire, Phase.takesChunk, Phase.presentsRequest, Phase.takesResponse,
      presentedRequest, hf, hp]

/-- Nothing fires on a halted machine (R245). -/
theorem transferOf_of_fault (I : Inputs cfg) (S : Regs cfg) (hf : S.fault = true) :
    transferOf I (outputs S) = none := by
  simp [transferOf, outputs, fire, hf]

end Sys2Proof.Machine
end

