-- ==== Sys2Proof/Laws/Memory.lean ====
section
/-! SUPPORT. Laws/Memory.lean: the laws of memory: canonical form, read after write, and what the lanes of a Put
and the bytes of a chunk do to it. -/

namespace Sys2Proof.Machine

theorem Memory.wf_cons (a : Nat) (v : Byte) (m : Memory) :
    Memory.wf ((a, v) :: m) = true ↔ v ≠ unlistedByte ∧ (∀ e ∈ m, a < e.1) ∧ Memory.wf m = true := by
  simp [Memory.wf, and_assoc]

/-- An address below every listed one reads as unlisted. -/
theorem Memory.read_of_lt (m : Memory) (a : Nat) (h : ∀ e ∈ m, a < e.1) : m.read a = unlistedByte := by
  induction m with
  | nil => rfl
  | cons e m ih =>
    obtain ⟨k, v⟩ := e
    have hk : a < k := h (k, v) (by simp)
    have : k ≠ a := by omega
    simp only [Memory.read, this, if_false]
    exact ih fun e he => h e (by simp [he])

/-- The addresses of a memory after a write are the old ones and the written one. -/
theorem Memory.mem_write (m : Memory) (a : Nat) (v : Byte) (e : Host.Cell) (h : e ∈ m.write a v) :
    e ∈ m ∨ (e = (a, v) ∧ v ≠ unlistedByte) := by
  induction m with
  | nil =>
    simp only [Memory.write] at h
    split at h <;> simp_all
  | cons f m ih =>
    obtain ⟨k, x⟩ := f
    simp only [Memory.write] at h
    split at h
    · split at h <;> simp_all
      tauto
    · split at h
      · split at h <;> simp_all
        tauto
      · rcases List.mem_cons.1 h with h | h
        · simp [h]
        · rcases ih h with h | h
          · simp [h]
          · simp [h]

/-- Every write keeps the canonical form. -/
theorem Memory.write_wf (m : Memory) (a : Nat) (v : Byte) (h : m.wf = true) : (m.write a v).wf = true := by
  induction m with
  | nil =>
    simp only [Memory.write]
    split
    · rfl
    · simp_all [Memory.wf]
  | cons f m ih =>
    obtain ⟨k, x⟩ := f
    obtain ⟨hx, hk, hm⟩ := (Memory.wf_cons _ _ _).1 h
    simp only [Memory.write]
    split
    · split
      · exact h
      · rename_i hak hv
        refine (Memory.wf_cons _ _ _).2 ⟨hv, ?_, h⟩
        intro e he
        rcases List.mem_cons.1 he with he | he
        · simpa [he] using hak
        · exact Nat.lt_trans hak (hk e he)
    · split
      · split
        · exact hm
        · rename_i _ hak hv
          subst hak
          exact (Memory.wf_cons _ _ _).2 ⟨hv, hk, hm⟩
      · rename_i hak hne
        refine (Memory.wf_cons _ _ _).2 ⟨hx, ?_, ih hm⟩
        intro e he
        rcases Memory.mem_write m a v e he with he | ⟨he, -⟩
        · exact hk e he
        · subst he
          show k < a
          omega

/-- Read after write: the written address gives the value written, every other one what it gave before. -/
theorem Memory.read_write (m : Memory) (a : Nat) (v : Byte) (b : Nat) (h : m.wf = true) :
    (m.write a v).read b = if a = b then v else m.read b := by
  induction m with
  | nil =>
    simp only [Memory.write]
    split
    · simp_all [Memory.read]
    · simp [Memory.read]
  | cons f m ih =>
    obtain ⟨k, x⟩ := f
    obtain ⟨hx, hk, hm⟩ := (Memory.wf_cons _ _ _).1 h
    simp only [Memory.write]
    split
    · rename_i hak
      split
      · rename_i hv
        by_cases hab : a = b
        · subst hab
          rw [if_pos rfl, hv]
          refine Memory.read_of_lt _ _ fun e he => ?_
          rcases List.mem_cons.1 he with he | he
          · simpa [he] using hak
          · exact Nat.lt_trans hak (hk e he)
        · rw [if_neg hab]
      · simp [Memory.read]
    · split
      · rename_i _ hak
        subst hak
        split
        · rename_i hv
          by_cases hab : a = b
          · subst hab
            rw [if_pos rfl, hv]
            exact Memory.read_of_lt _ _ hk
          · simp [Memory.read, hab]
        · by_cases hab : a = b <;> simp [Memory.read, hab]
      · rename_i hak hne
        by_cases hkb : k = b
        · subst hkb
          simp [Memory.read, hne]
        · simp [Memory.read, hkb, ih hm]

/-- Every write keeps the listed addresses inside the address space. -/
theorem Memory.write_inSpace (m : Memory) (a : Nat) (v : Byte) (n : Nat) (h : ∀ e ∈ m, e.1 < n) (ha : a < n) :
    ∀ e ∈ m.write a v, e.1 < n := by
  intro e he
  rcases Memory.mem_write m a v e he with he | ⟨he, -⟩
  · exact h e he
  · simpa [he] using ha

/-- Equal memories are equal data: canonical lists that read the same are the same. -/
theorem Memory.ext_of_read (m m' : Memory) (h : m.wf = true) (h' : m'.wf = true)
    (hr : ∀ a, m.read a = m'.read a) : m = m' := by
  induction m generalizing m' with
  | nil =>
    cases m' with
    | nil => rfl
    | cons e m' =>
      obtain ⟨k, x⟩ := e
      obtain ⟨hx, -, -⟩ := (Memory.wf_cons _ _ _).1 h'
      have := hr k
      simp only [Memory.read, if_true] at this
      exact absurd this.symm hx
  | cons e m ih =>
    obtain ⟨k, x⟩ := e
    obtain ⟨hx, hk, hm⟩ := (Memory.wf_cons _ _ _).1 h
    cases m' with
    | nil =>
      have := hr k
      simp only [Memory.read, if_true] at this
      exact absurd this hx
    | cons e' m' =>
      obtain ⟨k', x'⟩ := e'
      obtain ⟨hx', hk', hm'⟩ := (Memory.wf_cons _ _ _).1 h'
      have hkk : k = k' := by
        rcases Nat.lt_trichotomy k k' with hlt | heq | hgt
        · have h1 := hr k
          have h2 : Memory.read ((k', x') :: m') k = unlistedByte := Memory.read_of_lt _ _ fun e he => by
            rcases List.mem_cons.1 he with he | he
            · simpa [he] using hlt
            · exact Nat.lt_trans hlt (hk' e he)
          rw [h2] at h1
          simp only [Memory.read, if_true] at h1
          exact absurd h1 hx
        · exact heq
        · have h1 := hr k'
          have h2 : Memory.read ((k, x) :: m) k' = unlistedByte := Memory.read_of_lt _ _ fun e he => by
            rcases List.mem_cons.1 he with he | he
            · simpa [he] using hgt
            · exact Nat.lt_trans hgt (hk e he)
          rw [h2] at h1
          simp only [Memory.read, if_true] at h1
          exact absurd h1.symm hx'
      subst hkk
      have hxx : x = x' := by simpa [Memory.read] using hr k
      subst hxx
      congr 1
      refine ih m' hm hm' fun a => ?_
      by_cases hka : k = a
      · subst hka
        rw [Memory.read_of_lt m k hk, Memory.read_of_lt m' k hk']
      · simpa [Memory.read, hka] using hr a

section Lanes

variable {cfg : Config} (base : Nat) (data : BitVec cfg.wordBits) (mask : BitVec cfg.W)

theorem writeLanes_wf (n j : Nat) (m : Memory) (h : m.wf = true) :
    (writeLanes base data mask n j m).wf = true := by
  induction n generalizing j m with
  | zero => exact h
  | succ n ih =>
    rw [writeLanes]
    apply ih
    split
    · exact Memory.write_wf _ _ _ h
    · exact h

theorem writeLanes_inSpace (n j : Nat) (m : Memory) (b : Nat) (h : ∀ e ∈ m, e.1 < b)
    (hb : base + (j + n) ≤ b) : ∀ e ∈ writeLanes base data mask n j m, e.1 < b := by
  induction n generalizing j m with
  | zero => exact h
  | succ n ih =>
    rw [writeLanes]
    apply ih _ _ _ (by omega)
    split
    · exact Memory.write_inSpace _ _ _ _ h (by omega)
    · exact h

/-- What `n` lanes from lane `j` on do to a byte: a masked lane is written, every other byte is as before. -/
theorem read_writeLanes_from (n j : Nat) (m : Memory) (h : m.wf = true) (a : Nat) :
    (writeLanes base data mask n j m).read a =
      if base + j ≤ a ∧ a < base + j + n ∧ mask.getLsbD (a - base) = true then byteOf data (a - base)
      else m.read a := by
  induction n generalizing j m with
  | zero => simp [writeLanes]; omega
  | succ n ih =>
    rw [writeLanes]
    have hwf : (if mask.getLsbD j = true then m.write (base + j) (byteOf data j) else m).wf = true := by
      split
      · exact Memory.write_wf _ _ _ h
      · exact h
    rw [ih _ _ hwf]
    by_cases haj : a = base + j
    · subst haj
      have h1 : ¬ (base + (j + 1) ≤ base + j) := by omega
      simp only [h1, false_and, if_false, Nat.le_refl, true_and, Nat.add_sub_cancel_left]
      by_cases hm : mask.getLsbD j = true
      · rw [if_pos hm, Memory.read_write _ _ _ _ h, if_pos rfl, if_pos ⟨by omega, hm⟩]
      · rw [if_neg hm, if_neg (fun hc => hm hc.2)]
    · have hrd : (if mask.getLsbD j = true then m.write (base + j) (byteOf data j) else m).read a = m.read a := by
        split
        · rw [Memory.read_write _ _ _ _ h, if_neg (fun hc => haj hc.symm)]
        · rfl
      rw [hrd]
      congr 1
      apply propext
      constructor
      · rintro ⟨h1, h2, h3⟩
        exact ⟨by omega, by omega, h3⟩
      · rintro ⟨h1, h2, h3⟩
        exact ⟨by omega, by omega, h3⟩

/-- R57: a Put writes exactly the masked byte lanes of its word and no other byte. -/
theorem read_writeLanes (m : Memory) (h : m.wf = true) (a : Nat) :
    (writeLanes base data mask cfg.W 0 m).read a =
      if base ≤ a ∧ a < base + cfg.W ∧ mask.getLsbD (a - base) = true then byteOf data (a - base)
      else m.read a := by
  simpa using read_writeLanes_from base data mask cfg.W 0 m h a

end Lanes

section Bytes

variable (cfg : Config) {width : Nat} (a : Nat) (v : BitVec width)

theorem memWriteBytes_wf (n b : Nat) (m : Memory) (h : m.wf = true) :
    (memWriteBytes cfg a v n b m).wf = true := by
  induction n generalizing b m with
  | zero => exact h
  | succ n ih => exact ih _ _ (Memory.write_wf _ _ _ h)

/-- A byte that no byte of the chunk falls on reads as before. -/
theorem read_memWriteBytes_of_ne (n b : Nat) (m : Memory) (h : m.wf = true) (x : Nat)
    (hx : ∀ k, b ≤ k → k < b + n → (a + k) % 2 ^ cfg.addrBits ≠ x) :
    (memWriteBytes cfg a v n b m).read x = m.read x := by
  induction n generalizing b m with
  | zero => rfl
  | succ n ih =>
    rw [memWriteBytes, ih _ _ (Memory.write_wf _ _ _ h) (fun k h1 h2 => hx k (by omega) (by omega)),
      Memory.read_write _ _ _ _ h, if_neg (hx b (Nat.le_refl _) (by omega))]

theorem memWriteChunk_wf (m : Memory) (x : BitVec cfg.w) (h : m.wf = true) :
    (memWriteChunk cfg m a x).wf = true := memWriteBytes_wf cfg a x cfg.c 0 m h

end Bytes

end Sys2Proof.Machine
end

