-- ==== Sys2Proof/Laws/Tick.lean ====
section
/-! SUPPORT. Laws/Tick.lean: what a tick of the whole system can do, said once (`tick_cases`), and how a run is made
of ticks (`runTicks_induct`). -/

namespace Sys2Proof.Machine

variable {cfg : Config}

section Bus
variable (r : BusReq cfg) (s : Sys cfg)
@[simp] theorem busAccept_regs : (busAccept r s).regs = s.regs := by
  unfold busAccept; split <;> [skip; split] <;> rfl
@[simp] theorem busAccept_serialIn : (busAccept r s).serialIn = s.serialIn := by
  unfold busAccept; split <;> [skip; split] <;> rfl
@[simp] theorem busAccept_trace : (busAccept r s).trace = s.trace := by
  unfold busAccept; split <;> [skip; split] <;> rfl
@[simp] theorem busAccept_answersMisaligned : (busAccept r s).answersMisaligned = s.answersMisaligned := by
  unfold busAccept; split <;> [skip; split] <;> rfl
@[simp] theorem busAccept_script : (busAccept r s).script = s.script := by
  unfold busAccept; split <;> [skip; split] <;> rfl
@[simp] theorem busAccept_steady : (busAccept r s).steady = s.steady := by
  unfold busAccept; split <;> [skip; split] <;> rfl
theorem busAccept_put (h : r.opcode = .put) :
    busAccept r s =
      { s with mem := writeLanes r.address.toNat r.data r.mask cfg.W 0 s.mem,
               responses := s.responses ++ [freeWord cfg s.draws], draws := s.draws + cfg.W } := by
  unfold busAccept; rw [h]
theorem busAccept_get (h : r.opcode = .get) (ha : r.aligned = true ∨ s.answersMisaligned = true) :
    busAccept r s =
      { s with responses := s.responses ++ [getAnswer s.mem s.draws r], draws := s.draws + cfg.W } := by
  unfold busAccept; rw [h]; simp only [Bool.or_eq_true, ha, if_true]
theorem busAccept_unanswered (h : r.opcode = .get) (ha : r.aligned = false) (hm : s.answersMisaligned = false) :
    busAccept r s = s := by
  unfold busAccept; rw [h]; simp [ha, hm]
end Bus

/-- The registers of a tick in which reset is or is not asserted. -/
def afterReset (e : EnvTick) (S : Regs cfg) : Regs cfg := if e.reset then Regs.reset cfg else S

/-- A tick in which no channel fires: nothing changes but the script, and the registers if reset is asserted. -/
theorem tick_none (s : Sys cfg) (h : transferOf (s.inputs s.envNow) (outputs s.regs) = none) :
    s.tick = { s with regs := afterReset s.envNow s.regs, script := s.script.tail } := by
  simp only [Sys.tick, coreStep_eq, h]
  rfl

/-- A tick in which a transfer happens. -/
theorem tick_some (s : Sys cfg) (t : Transfer cfg)
    (h : transferOf (s.inputs s.envNow) (outputs s.regs) = some t) :
    s.tick =
      { s.applyTransfer t with
        regs := afterReset s.envNow (onTransfer t s.regs), script := s.script.tail } := by
  simp only [Sys.tick, coreStep_eq, h]
  rfl

/-- Everything a tick can do: nothing fires, or exactly one of the four channels transfers. -/
theorem tick_cases (s : Sys cfg) :
    (transferOf (s.inputs s.envNow) (outputs s.regs) = none ∧
      s.tick = { s with regs := afterReset s.envNow s.regs, script := s.script.tail }) ∨
    (∃ x q, s.regs.fault = false ∧ s.regs.phase.takesChunk = true ∧ s.envNow.offers.serialIn = true ∧
      s.serialIn = x :: q ∧
      s.tick = { s with regs := afterReset s.envNow (onChunk x s.regs), serialIn := q,
                        trace := s.trace ++ [.chunkIn x], script := s.script.tail }) ∨
    (s.regs.fault = false ∧ s.regs.phase = .readBody ∧ s.envNow.offers.serialOut = true ∧
      s.tick = { s with regs := afterReset s.envNow (onReadBody s.regs),
                        trace := s.trace ++ [.chunkOut s.regs.body[s.regs.idx]], script := s.script.tail }) ∨
    (∃ r, s.regs.fault = false ∧ s.envNow.offers.busReq = true ∧
      ((s.regs.phase = .writeIssue ∧ r = putReq s.regs.addr s.regs.body s.regs.valid) ∨
        (s.regs.phase = .readRequest ∧ r = getReq s.regs.addr s.regs.len)) ∧
      s.tick = { busAccept r (s.record (.request r)) with
                 regs := afterReset s.envNow (onAccepted s.regs), script := s.script.tail }) ∨
    (∃ d ds, s.regs.fault = false ∧ (s.regs.phase = .writeAck ∨ s.regs.phase = .readData) ∧
      s.envNow.offers.busResp = true ∧ s.responses = d :: ds ∧
      s.tick = { s with regs := afterReset s.envNow (onResponse d s.regs), responses := ds,
                        trace := s.trace ++ [.response d], script := s.script.tail }) := by
  cases ht : transferOf (s.inputs s.envNow) (outputs s.regs) with
  | none => exact .inl ⟨rfl, tick_none s ht⟩
  | some t =>
    right
    have htick := tick_some s t ht
    cases t with
    | chunkIn x =>
      obtain ⟨hf, hp, hv, hx⟩ := transferOf_chunkIn ht
      left
      simp only [Sys.inputs, Bool.and_eq_true, Bool.not_eq_true'] at hv
      cases hq : s.serialIn with
      | nil => simp [hq] at hv
      | cons y q =>
        simp only [Sys.inputs, hq, List.headD_cons] at hx
        subst hx
        refine ⟨x, q, hf, hp, hv.1, rfl, ?_⟩
        rw [htick]
        simp [Sys.applyTransfer, hq, onTransfer, Sys.record]
    | chunkOut x =>
      obtain ⟨hf, hp, hv, hx⟩ := transferOf_chunkOut ht
      right; left
      refine ⟨hf, hp, hv, ?_⟩
      rw [htick, hx]
      simp [Sys.applyTransfer, onTransfer, Sys.record]
    | request r =>
      obtain ⟨hf, hv, hr⟩ := transferOf_request ht
      right; right; left
      exact ⟨r, hf, hv, hr, htick⟩
    | response d =>
      obtain ⟨hf, hp, hv, hx⟩ := transferOf_response ht
      right; right; right
      simp only [Sys.inputs, Bool.and_eq_true, Bool.not_eq_true'] at hv
      cases hq : s.responses with
      | nil => simp [hq] at hv
      | cons y q =>
        simp only [Sys.inputs, hq, List.headD_cons] at hx
        subst hx
        refine ⟨d, q, hf, hp, hv.1, rfl, ?_⟩
        rw [htick]
        simp [Sys.applyTransfer, hq, onTransfer, Sys.record]

@[simp] theorem tick_script (s : Sys cfg) : s.tick.script = s.script.tail := rfl

@[simp] theorem tick_steady (s : Sys cfg) : s.tick.steady = s.steady := by
  rcases tick_cases s with ⟨-, h⟩ | ⟨x, q, -, -, -, -, h⟩ | ⟨-, -, -, h⟩ | ⟨r, -, -, -, h⟩ | ⟨d, ds, -, -, -, -, h⟩ <;>
    simp [h]

@[simp] theorem tick_answersMisaligned (s : Sys cfg) : s.tick.answersMisaligned = s.answersMisaligned := by
  rcases tick_cases s with ⟨-, h⟩ | ⟨x, q, -, -, -, -, h⟩ | ⟨-, -, -, h⟩ | ⟨r, -, -, -, h⟩ | ⟨d, ds, -, -, -, -, h⟩ <;>
    simp [h]

theorem tick_regs (s : Sys cfg) : s.tick.regs = coreStep (s.inputs s.envNow) s.regs := rfl

/-- What every tick keeps, a run keeps. -/
theorem runTicks_induct {P : Sys cfg → Prop} (h : ∀ s, P s → P s.tick) (n : Nat) (s : Sys cfg) (hs : P s) :
    P (Sys.runTicks n s) := by
  induction n generalizing s with
  | zero => exact hs
  | succ n ih =>
    rw [Sys.runTicks]
    split
    · exact h s hs
    · exact ih _ (h s hs)

theorem run_induct {P : Sys cfg → Prop} (h : ∀ s, P s → P s.tick) (s : Sys cfg) (hs : P s) : P s.run :=
  runTicks_induct h _ s hs

end Sys2Proof.Machine
end

