-- ==== Sys2Proof/Laws/Run.lean ====
section
/-! SUPPORT. Laws/Run.lean: a run, without its fuel: `run_unfold`. Every tick that does not settle the machine uses
up work, so the bound of Machine/Run.lean is never reached. -/

namespace Sys2Proof.Machine

variable {cfg : Config}

/-- An upper bound on the transfers left in the operation in flight, by phase (R275). -/
def workLeft (S : Regs cfg) : Nat :=
  match S.phase with
  | .command => 1 + 2 * cfg.N + 3 * 2 ^ cfg.wordBits
  | .address => (cfg.N - S.idx.val) + cfg.N + 3 * 2 ^ cfg.wordBits
  | .length => (cfg.N - S.idx.val) + 3 * 2 ^ cfg.wordBits
  | .writeBody => 3 * (S.len.toNat + 1)
  | .writeIssue => 3 * S.len.toNat + 2
  | .writeAck => 3 * S.len.toNat + 1
  | .readRequest => 3 * S.len.toNat + 3
  | .readData => 3 * S.len.toNat + 2
  | .readBody => 3 * S.len.toNat + 1

theorem len_lt (S : Regs cfg) : S.len.toNat < 2 ^ cfg.wordBits := S.len.isLt

theorem workLeft_le (S : Regs cfg) : workLeft S ≤ 1 + 2 * cfg.N + 3 * 2 ^ cfg.wordBits := by
  have h := len_lt S
  have := S.idx.isLt
  unfold workLeft
  split <;> omega

theorem workLeft_lt_bound (S : Regs cfg) : workLeft S < 2 ^ (cfg.wordBits + 3) := by
  have h1 := workLeft_le S
  have h2 := cfg.N_lt_two_pow_wordBits
  rw [pow_add]
  omega

theorem toNat_sub_one {n : Nat} (v : BitVec n) (h : v ≠ 0#n) : (v - 1#n).toNat = v.toNat - 1 := by
  have h1 : v.toNat ≠ 0 := fun hc => h (BitVec.eq_of_toNat_eq (by simpa using hc))
  have h2 := v.isLt
  have hn : 1 < 2 ^ n := by omega
  rw [BitVec.toNat_sub, BitVec.toNat_ofNat, Nat.mod_eq_of_lt hn]
  rw [show 2 ^ n - 1 + v.toNat = (v.toNat - 1) + 2 ^ n by omega, Nat.add_mod_right]
  exact Nat.mod_eq_of_lt (by omega)

theorem nextSlot_val (i : Fin cfg.N) (h : isLastSlot i = false) : (nextSlot i).val = i.val + 1 := by
  have hi := i.isLt
  simp only [isLastSlot, decide_eq_false_iff_not] at h
  exact Nat.mod_eq_of_lt (by omega)

theorem isLastSlot_iff (i : Fin cfg.N) : isLastSlot i = true ↔ i.val + 1 = cfg.N := by
  have hi := i.isLt
  simp only [isLastSlot, decide_eq_true_eq]
  omega

theorem not_isLastSlot_iff (i : Fin cfg.N) : isLastSlot i = false ↔ i.val + 1 < cfg.N := by
  have hi := i.isLt
  simp only [isLastSlot, decide_eq_false_iff_not]
  omega

theorem nextSlot_of_last (i : Fin cfg.N) (h : isLastSlot i = true) : nextSlot i = slotZero cfg := by
  have h1 := (isLastSlot_iff i).1 h
  apply Fin.ext
  simp [nextSlot, slotZero, h1]

/-- Every transfer either ends the operation, raises the fault or uses up work. -/
theorem workLeft_onChunk (x : BitVec cfg.w) (S : Regs cfg)
    (hp : S.phase.takesChunk = true) (hn : (onChunk x S).fault = false) :
    workLeft (onChunk x S) < workLeft S := by
  have hl := len_lt S
  have hi := S.idx.isLt
  cases hph : S.phase <;> simp only [hph, Phase.takesChunk, Bool.false_eq_true] at hp
  · simp only [onChunk, hph, workLeft, onCommand_phase, onCommand_idx, slotZero]
    omega
  · simp only [onChunk, hph]
    cases hls : isLastSlot S.idx
    · have h1 := nextSlot_val _ hls
      have h2 := (not_isLastSlot_iff _).1 hls
      simp only [workLeft, onAddress_phase, onAddress_idx, hls, hph, Bool.false_eq_true, if_false, h1]
      omega
    · simp only [workLeft, onAddress_phase, onAddress_idx, hls, hph, if_true, slotZero]
      omega
  · simp only [onChunk, hph] at hn ⊢
    cases hls : isLastSlot S.idx
    · have h1 := nextSlot_val _ hls
      have h2 := (not_isLastSlot_iff _).1 hls
      rw [onLength_of_not_last _ _ hls]
      simp only [workLeft, hph, h1]
      omega
    · rw [onLength_of_last _ _ hls] at hn ⊢
      simp only [dispatchCommand_fault] at hn
      have hlt := len_lt (dispatchCommand
        { S with len := S.len ||| shiftChunk x S.idx.val, idx := slotOf S.addr })
      simp only [dispatchCommand_len] at hlt
      by_cases hw : S.cmd.toNat = writeCode
      · simp only [workLeft, dispatchCommand_phase, dispatchCommand_len, hw, if_true, hph]
        omega
      · by_cases hr : S.cmd.toNat = readCode
        · have hrw : readCode ≠ writeCode := by decide
          simp only [workLeft, dispatchCommand_phase, dispatchCommand_len, hr, hrw, if_true, if_false, hph]
          omega
        · simp [hw, hr] at hn
  · simp only [onChunk, hph]
    cases hb : isLastSlot S.idx || decide (S.len = 0#_)
    · simp only [Bool.or_eq_false_iff, decide_eq_false_iff_not] at hb
      have h1 := toNat_sub_one S.len hb.2
      have h2 : S.len.toNat ≠ 0 := fun hc => hb.2 (BitVec.eq_of_toNat_eq (by simpa using hc))
      simp only [workLeft, onWriteBody_phase, onWriteBody_len, hb.1, hb.2, hph, decide_false, Bool.or_false,
        Bool.false_eq_true, if_false, h1]
      omega
    · simp only [workLeft, onWriteBody_phase, onWriteBody_len, hb, hph, if_true]
      omega

theorem workLeft_onAccepted (S : Regs cfg) (hp : S.phase.presentsRequest = true) :
    workLeft (onAccepted S) < workLeft S := by
  cases hph : S.phase <;> simp only [hph, Phase.presentsRequest, Bool.false_eq_true] at hp
  · simp only [onAccepted, hph, workLeft, onWriteIssue_phase, onWriteIssue_len]
    omega
  · simp only [onAccepted, hph, workLeft, onReadRequest_phase, onReadRequest_len]
    omega

theorem workLeft_onResponse (d : BitVec cfg.wordBits) (S : Regs cfg) (hp : S.phase.takesResponse = true)
    (hn : (onResponse d S).phase ≠ .command) : workLeft (onResponse d S) < workLeft S := by
  cases hph : S.phase <;> simp only [hph, Phase.takesResponse, Bool.false_eq_true] at hp
  · simp only [onResponse, hph] at hn ⊢
    by_cases h0 : S.len = 0#_
    · simp [h0] at hn
    · have h1 := toNat_sub_one S.len h0
      have h2 : S.len.toNat ≠ 0 := fun hc => h0 (BitVec.eq_of_toNat_eq (by simpa using hc))
      simp only [workLeft, hph, onWriteAck_phase, onWriteAck_len, h0, if_false, h1]
      omega
  · simp only [onResponse, hph, workLeft, onReadData_phase, onReadData_len]
    omega

theorem workLeft_onReadBody (S : Regs cfg) (hp : S.phase = .readBody)
    (hn : (onReadBody S).phase ≠ .command) : workLeft (onReadBody S) < workLeft S := by
  by_cases h0 : S.len = 0#_
  · simp [h0] at hn
  · have h1 := toNat_sub_one S.len h0
    have h2 : S.len.toNat ≠ 0 := fun hc => h0 (BitVec.eq_of_toNat_eq (by simpa using hc))
    cases hls : isLastSlot S.idx
    · simp only [workLeft, hp, onReadBody_phase, onReadBody_len, h0, hls, Bool.false_eq_true, if_false, h1]
      omega
    · simp only [workLeft, hp, onReadBody_phase, onReadBody_len, h0, hls, if_true, if_false, h1]
      omega

/-- Ticks still needed at most: the script's and the operation's. -/
def ticksLeft (s : Sys cfg) : Nat := s.script.length + workLeft s.regs

theorem ticksLeft_lt_tickBound (s : Sys cfg) : ticksLeft s < s.tickBound := by
  have := workLeft_lt_bound s.regs
  simp only [ticksLeft, Sys.tickBound]
  omega

/-- A tick without a transfer and without a script is no tick at all. -/
theorem tick_of_waiting (s : Sys cfg) (hs : s.script = []) (hw : s.waiting = true) : s.tick = s := by
  have he : s.envNow = ⟨false, s.steady⟩ := by simp [Sys.envNow, hs]
  have ht : transferOf (s.inputs s.envNow) (outputs s.regs) = none := by
    simpa [Sys.waiting, he] using hw
  rw [tick_none s ht]
  cases s
  simp_all [afterReset]

/-- Every tick that does not settle the machine uses up one of the ticks left. -/
theorem ticksLeft_tick (s : Sys cfg) (hn : settled s s.tick = false) : ticksLeft s.tick < ticksLeft s := by
  simp only [settled, Bool.or_eq_false_iff] at hn
  obtain ⟨⟨hop, hft⟩, hw⟩ := hn
  simp only [opEnds, Bool.and_eq_false_iff, decide_eq_false_iff_not, not_not] at hop
  simp only [faultRaised, Bool.and_eq_false_iff, Bool.not_eq_false'] at hft
  -- a tick in which reset is asserted starts from phase Command
  have hreset : ∀ S' : Regs cfg, s.envNow.reset = true → s.tick.regs = afterReset s.envNow S' →
      ticksLeft s.tick < ticksLeft s := by
    intro S' hr hregs
    have hne : s.script ≠ [] := by
      intro hc
      simp [Sys.envNow, hc] at hr
    have hlen : s.script.tail.length + 1 = s.script.length := by
      cases hsc : s.script with
      | nil => exact absurd hsc hne
      | cons e es => simp
    have hcmd : s.tick.regs.phase = .command := by rw [hregs, afterReset, if_pos hr]; rfl
    have hp : s.regs.phase = .command := by
      rcases hop with h | h
      · exact h
      · exact absurd hcmd h
    have : workLeft s.tick.regs = workLeft s.regs := by simp only [workLeft, hcmd, hp]
    simp only [ticksLeft, tick_script, this]
    omega
  have htail : s.script.tail.length ≤ s.script.length := by simp
  rcases tick_cases s with ⟨ht, h⟩ | ⟨x, q, hf, hp, -, -, h⟩ | ⟨hf, hp, -, h⟩ | ⟨r, hf, -, hp, h⟩ |
    ⟨d, ds, hf, hp, -, -, h⟩
  · by_cases hr : s.envNow.reset = true
    · exact hreset s.regs hr (by rw [h])
    · have hregs : s.tick.regs = s.regs := by rw [h]; simp [afterReset, hr]
      by_cases hsc : s.script = []
      · exfalso
        have he : s.envNow = ⟨false, s.steady⟩ := by simp [Sys.envNow, hsc]
        have hws : s.waiting = true := by simp [Sys.waiting, ← he, ht]
        rw [tick_of_waiting s hsc hws] at hw
        simp [hsc, hws] at hw
      · have hlen : s.script.tail.length + 1 = s.script.length := by
          cases hsc' : s.script with
          | nil => exact absurd hsc' hsc
          | cons e es => simp
        simp only [ticksLeft, tick_script, hregs]
        omega
  · by_cases hr : s.envNow.reset = true
    · exact hreset (onChunk x s.regs) hr (by rw [h])
    · have hregs : s.tick.regs = onChunk x s.regs := by rw [h]; simp [afterReset, hr]
      have hfn : (onChunk x s.regs).fault = false := by
        rw [← hregs]
        rcases hft with h' | h'
        · rw [hf] at h'; exact absurd h' (by decide)
        · exact h'
      have := workLeft_onChunk x s.regs hp hfn
      simp only [ticksLeft, tick_script, hregs]
      omega
  · by_cases hr : s.envNow.reset = true
    · exact hreset (onReadBody s.regs) hr (by rw [h])
    · have hregs : s.tick.regs = onReadBody s.regs := by rw [h]; simp [afterReset, hr]
      have := workLeft_onReadBody s.regs hp (by
        rw [← hregs]
        rcases hop with h' | h'
        · rw [hp] at h'; exact absurd h' (by decide)
        · exact h')
      simp only [ticksLeft, tick_script, hregs]
      omega
  · by_cases hr : s.envNow.reset = true
    · exact hreset (onAccepted s.regs) hr (by rw [h])
    · have hregs : s.tick.regs = onAccepted s.regs := by rw [h]; simp [afterReset, hr]
      have := workLeft_onAccepted s.regs (by
        rcases hp with ⟨hp, -⟩ | ⟨hp, -⟩ <;> simp [hp, Phase.presentsRequest])
      simp only [ticksLeft, tick_script, hregs]
      omega
  · by_cases hr : s.envNow.reset = true
    · exact hreset (onResponse d s.regs) hr (by rw [h])
    · have hregs : s.tick.regs = onResponse d s.regs := by rw [h]; simp [afterReset, hr]
      have := workLeft_onResponse d s.regs (by
        rcases hp with hp | hp <;> simp [hp, Phase.takesResponse]) (by
        rw [← hregs]
        rcases hop with h' | h'
        · rw [h'] at hp; rcases hp with hp | hp <;> exact absurd hp (by decide)
        · exact h')
      simp only [ticksLeft, tick_script, hregs]
      omega

/-- Enough fuel is enough: two runs with more fuel than ticks left agree. -/
theorem runTicks_enough (n m : Nat) (s : Sys cfg) (hn : ticksLeft s < n) (hm : ticksLeft s < m) :
    Sys.runTicks n s = Sys.runTicks m s := by
  induction n generalizing m s with
  | zero => omega
  | succ n ih =>
    cases m with
    | zero => omega
    | succ m =>
      rw [Sys.runTicks, Sys.runTicks]
      cases hs : settled s s.tick
      · have := ticksLeft_tick s hs
        simp only [Bool.false_eq_true, if_false]
        exact ih m s.tick (by omega) (by omega)
      · simp

/-- A run is one tick, and then a run unless the machine has settled. -/
theorem run_unfold (s : Sys cfg) : s.run = if settled s s.tick then s.tick else s.tick.run := by
  have h0 := ticksLeft_lt_tickBound s
  have h1 := ticksLeft_lt_tickBound s.tick
  unfold Sys.run
  rw [runTicks_enough s.tickBound (s.tickBound + s.tick.tickBound + 1) s h0 (by omega), Sys.runTicks]
  cases hs : settled s s.tick
  · have := ticksLeft_tick s hs
    simp only [Bool.false_eq_true, if_false]
    exact runTicks_enough _ _ _ (by omega) h1
  · simp

theorem run_of_not_settled (s : Sys cfg) (h : settled s s.tick = false) : s.run = s.tick.run := by
  rw [run_unfold, h]; simp

theorem run_of_settled (s : Sys cfg) (h : settled s s.tick = true) : s.run = s.tick := by
  rw [run_unfold, h]; simp

/-- Induction over a run by its ticks left. -/
theorem run_induction {P : Sys cfg → Prop}
    (h : ∀ s : Sys cfg, (settled s s.tick = false → P s.tick) → P s) (s : Sys cfg) : P s := by
  induction hn : ticksLeft s using Nat.strong_induction_on generalizing s with
  | _ n ih =>
    subst hn
    exact h s fun hs => ih _ (ticksLeft_tick s hs) _ rfl

end Sys2Proof.Machine
end

