-- ==== Sys2Proof/Laws/Words.lean ====
section
/-! SUPPORT. Laws/Words.lean: the ticks of one word: on a bus and a host that stall nothing, the per-tick rules do
to a word what one round of the pseudocode of R110 and R111 does (`run_readWord`, `run_writeWord`). -/

namespace Sys2Proof.Machine

variable {cfg : Config}

/-- No stall and no reset: the script is used up and every handshake is offered. -/
structure Sys.Unstalled (s : Sys cfg) : Prop where
  script : s.script = []
  steady : s.steady = Offers.all
  fault : s.regs.fault = false

theorem Sys.Unstalled.envNow {s : Sys cfg} (h : s.Unstalled) : s.envNow = ⟨false, Offers.all⟩ := by
  simp [Sys.envNow, h.script, h.steady]

/-- In which states an unstalled machine has a transfer to make. -/
theorem Sys.Unstalled.not_waiting {s : Sys cfg} (h : s.Unstalled)
    (hr : s.regs.phase.presentsRequest = true ∨ s.regs.phase = .readBody ∨
      (s.regs.phase.takesChunk = true ∧ s.serialIn ≠ []) ∨
      (s.regs.phase.takesResponse = true ∧ s.responses ≠ [])) : s.waiting = false := by
  have hq : ∀ {α : Type} (l : List α), l ≠ [] → l.isEmpty = false := by
    intro α l hl
    cases l with
    | nil => exact absurd rfl hl
    | cons => rfl
  rw [Sys.waiting, transferOf_eq _ _ h.fault]
  rcases hr with hp | hp | ⟨hp, hne⟩ | ⟨hp, hne⟩ <;>
    cases hph : s.regs.phase <;> simp_all [Phase.takesChunk, Phase.presentsRequest, Phase.takesResponse, Sys.inputs,
      h.steady, Offers.all]

/-- The tick of an unstalled machine that has a chunk to take. -/
theorem Sys.Unstalled.tick_chunk {s : Sys cfg} (h : s.Unstalled) (hp : s.regs.phase.takesChunk = true)
    {x : BitVec cfg.w} {q : List (BitVec cfg.w)} (hq : s.serialIn = x :: q) :
    s.tick = { s with regs := onChunk x s.regs, serialIn := q, trace := s.trace ++ [.chunkIn x] } := by
  have ht : transferOf (s.inputs s.envNow) (outputs s.regs) = some (.chunkIn x) := by
    rw [transferOf_eq _ _ h.fault, h.envNow]
    cases hph : s.regs.phase <;> simp_all [Phase.takesChunk, Sys.inputs, Offers.all]
  rw [tick_some s _ ht, h.envNow]
  simp [afterReset, Sys.applyTransfer, hq, onTransfer, h.script, Sys.record]

/-- The tick of an unstalled machine that presents a request. -/
theorem Sys.Unstalled.tick_request {s : Sys cfg} (h : s.Unstalled) (hp : s.regs.phase.presentsRequest = true) :
    s.tick = { busAccept (presentedRequest s.regs) (s.record (.request (presentedRequest s.regs))) with
               regs := onAccepted s.regs } := by
  have ht : transferOf (s.inputs s.envNow) (outputs s.regs) = some (.request (presentedRequest s.regs)) := by
    rw [transferOf_eq _ _ h.fault, h.envNow]
    cases hph : s.regs.phase <;> simp_all [Phase.presentsRequest, Sys.inputs, Offers.all, presentedRequest]
  rw [tick_some s _ ht, h.envNow]
  simp [afterReset, Sys.applyTransfer, onTransfer, h.script]

/-- The tick of an unstalled machine that has a response to take. -/
theorem Sys.Unstalled.tick_response {s : Sys cfg} (h : s.Unstalled) (hp : s.regs.phase.takesResponse = true)
    {d : BitVec cfg.wordBits} {ds : List (BitVec cfg.wordBits)} (hq : s.responses = d :: ds) :
    s.tick = { s with regs := onResponse d s.regs, responses := ds, trace := s.trace ++ [.response d] } := by
  have ht : transferOf (s.inputs s.envNow) (outputs s.regs) = some (.response d) := by
    rw [transferOf_eq _ _ h.fault, h.envNow]
    cases hph : s.regs.phase <;> simp_all [Phase.takesResponse, Sys.inputs, Offers.all]
  rw [tick_some s _ ht, h.envNow]
  simp [afterReset, Sys.applyTransfer, hq, onTransfer, h.script, Sys.record]

/-- The tick of an unstalled machine that has a chunk to give. -/
theorem Sys.Unstalled.tick_emit {s : Sys cfg} (h : s.Unstalled) (hp : s.regs.phase = .readBody) :
    s.tick = { s with regs := onReadBody s.regs, trace := s.trace ++ [.chunkOut s.regs.body[s.regs.idx]] } := by
  have ht : transferOf (s.inputs s.envNow) (outputs s.regs) = some (.chunkOut s.regs.body[s.regs.idx]) := by
    rw [transferOf_eq _ _ h.fault, h.envNow]
    simp [hp, Sys.inputs, Offers.all]
  rw [tick_some s _ ht, h.envNow]
  simp [afterReset, Sys.applyTransfer, onTransfer, h.script, Sys.record]

/-- When a tick of an unstalled machine does not settle it, the run goes on from there. -/
theorem run_tick {s : Sys cfg} (hc : s.tick.regs.phase ≠ .command)
    (hf : s.tick.regs.fault = false) (hw : s.tick.waiting = false) : s.run = s.tick.run := by
  apply run_of_not_settled
  simp [settled, opEnds, faultRaised, hc, hf, hw]

/-- When a tick of an unstalled machine ends the operation, the run ends there. -/
theorem run_of_opEnd {s : Sys cfg} (h : s.regs.phase ≠ .command) (hc : s.tick.regs.phase = .command) :
    s.run = s.tick := by
  apply run_of_settled
  simp [settled, opEnds, h, hc]

theorem sub_one_sub_ofNat {n : Nat} (v : BitVec n) (k : Nat) :
    v - 1#n - BitVec.ofNat n k = v - BitVec.ofNat n (k + 1) := by
  have : BitVec.ofNat n (k + 1) = BitVec.ofNat n k + 1#n := by simp [BitVec.ofNat_add]
  rw [this]
  simp only [BitVec.sub_eq_add_neg, BitVec.neg_add]
  ac_rfl

/-- The chunks of one word on their way to the host. -/
def emitWord (d : BitVec cfg.wordBits) (s : Sys cfg) : Sys cfg :=
  let count := chunksOfWord s.regs
  { s with
    trace := s.trace ++ (List.range count).map (fun j => .chunkOut (slotBits d (s.regs.idx.val + j))),
    regs := { s.regs with
      len := s.regs.len - BitVec.ofNat cfg.wordBits count,
      idx := ⟨(s.regs.idx.val + count) % cfg.N, Nat.mod_lt _ cfg.N_pos⟩,
      phase := if count = s.regs.len.toNat + 1 then .command else .readRequest } }

theorem chunksOfWord_pos (S : Regs cfg) : 0 < chunksOfWord S := by
  have := S.idx.isLt
  unfold chunksOfWord
  omega

theorem toNat_ne_zero {n : Nat} {v : BitVec n} (h : v ≠ 0#n) : v.toNat ≠ 0 := fun hc =>
  h (BitVec.eq_of_toNat_eq (by simpa using hc))

theorem run_emitWord (d : BitVec cfg.wordBits) (n : Nat) (s : Sys cfg) (h : s.Unstalled)
    (hp : s.regs.phase = .readBody) (hb : s.regs.body = unpackWord d) (hn : chunksOfWord s.regs = n + 1) :
    s.run = if (emitWord d s).regs.phase = .command then emitWord d s else (emitWord d s).run := by
  induction n generalizing s with
  | zero =>
    have ht := h.tick_emit hp
    have hbody : s.regs.body[s.regs.idx] = slotBits d s.regs.idx.val := by
      simp only [hb, Fin.getElem_fin]
      exact unpackWord_get d _ s.regs.idx.isLt
    have htw : s.tick = emitWord d s := by
      rw [ht, hbody, emitWord]
      simp only [hn]
      have hi := s.regs.idx.isLt
      by_cases h0 : s.regs.len = 0#_
      · simp [onReadBody, h0, nextSlot]
      · have h1 := toNat_ne_zero h0
        have hl : isLastSlot s.regs.idx = true := by
          rw [isLastSlot_iff]
          unfold chunksOfWord at hn
          omega
        simp [onReadBody, h0, hl, nextSlot, h1]
    rw [← htw]
    by_cases hc : s.tick.regs.phase = .command
    · rw [if_pos hc]
      exact run_of_opEnd (by rw [hp]; decide) hc
    · rw [if_neg hc]
      have htp : s.tick.regs.phase = .readRequest := by
        rw [htw] at hc ⊢
        simp only [emitWord] at hc ⊢
        split at hc
        · exact absurd rfl hc
        · rename_i hne
          rw [if_neg hne]
      have hu : s.tick.Unstalled := ⟨by simp [h.script], by simp [h.steady], by rw [ht]; simp [h.fault]⟩
      exact run_tick hc hu.fault (hu.not_waiting (.inl (by rw [htp]; rfl)))
  | succ n ih =>
    have ht := h.tick_emit hp
    have hi := s.regs.idx.isLt
    have hbody : s.regs.body[s.regs.idx] = slotBits d s.regs.idx.val := by
      simp only [hb, Fin.getElem_fin]
      exact unpackWord_get d _ s.regs.idx.isLt
    have hl : isLastSlot s.regs.idx = false := by
      rw [not_isLastSlot_iff]
      unfold chunksOfWord at hn
      omega
    have h0 : s.regs.len ≠ 0#_ := by
      intro hc
      simp [chunksOfWord, hc] at hn
      omega
    have h1 := toNat_ne_zero h0
    have hs1 := toNat_sub_one _ h0
    have hsl := nextSlot_val _ hl
    have htr : s.tick.regs = onReadBody s.regs := by rw [ht]
    have htp : s.tick.regs.phase = .readBody := by rw [htr]; simp [h0, hl, hp]
    have hu : s.tick.Unstalled := ⟨by simp [h.script], by simp [h.steady], by rw [ht]; simp [h.fault]⟩
    have hcw : chunksOfWord s.tick.regs = n + 1 := by
      rw [htr]
      unfold chunksOfWord at hn ⊢
      simp only [onReadBody_idx, onReadBody_len, hsl, hs1]
      omega
    have hem : emitWord d s.tick = emitWord d s := by
      rw [emitWord, emitWord]
      simp only [hcw, hn]
      simp only [ht, hbody]
      have hph : ((if n + 1 = (s.regs.len - 1#cfg.wordBits).toNat + 1 then Phase.command else .readRequest) : Phase) =
          if n + 1 + 1 = s.regs.len.toNat + 1 then .command else .readRequest := by
        rw [hs1]
        congr 1
        apply propext
        omega
      have hix : (s.regs.idx.val + 1 + (n + 1)) % cfg.N = (s.regs.idx.val + (n + 1 + 1)) % cfg.N := by
        congr 1
        omega
      have hmap : (List.range (n + 1 + 1)).map (fun j => Transfer.chunkOut (slotBits d (s.regs.idx.val + j))) =
          Transfer.chunkOut (slotBits d s.regs.idx.val) ::
            (List.range (n + 1)).map (fun j => Transfer.chunkOut (slotBits d (s.regs.idx.val + 1 + j))) := by
        rw [List.range_succ_eq_map, List.map_cons, List.map_map]
        congr 1
        apply List.map_congr_left
        intro j _
        simp only [Function.comp_apply]
        congr 2
        omega
      rw [hmap]
      simp only [onReadBody_len, onReadBody_idx, hsl, hph, hix, sub_one_sub_ofNat, List.append_assoc,
        List.singleton_append, onReadBody_cmd, onReadBody_addr, onReadBody_body, onReadBody_valid, onReadBody_fault]
    rw [run_tick (by rw [htp]; decide) hu.fault (hu.not_waiting (.inr (.inl htp))),
      ih s.tick hu htp (by rw [htr]; simp [hb]) hcw, hem]

/-- R110: one round of the outer `repeat`, tick by tick. -/
theorem run_readWord (s : Sys cfg) (h : s.Unstalled) (hp : s.regs.phase = .readRequest) (hq : s.responses = [])
    (hi : s.regs.idx = slotOf s.regs.addr)
    (ha : (getReq s.regs.addr s.regs.len).aligned = true ∨ s.answersMisaligned = true) :
    s.run = if (readWord s).regs.phase = .command then readWord s else (readWord s).run := by
  have hpr : presentedRequest s.regs = getReq s.regs.addr s.regs.len := by simp [presentedRequest, hp]
  have ht1 := h.tick_request (by rw [hp]; rfl)
  rw [hpr, busAccept_get _ _ rfl (by simpa using ha)] at ht1
  simp only [record_mem, record_draws, record_responses, hq, List.nil_append, onAccepted, hp] at ht1
  have hu1 : s.tick.Unstalled := ⟨by simp [h.script], by simp [h.steady], by rw [ht1]; simp [h.fault]⟩
  have hp1 : s.tick.regs.phase = .readData := by rw [ht1]; rfl
  have hr1 : s.tick.responses = [getAnswer s.mem s.draws (getReq s.regs.addr s.regs.len)] := by rw [ht1]
  rw [run_tick (by rw [hp1]; decide) hu1.fault
    (hu1.not_waiting (.inr (.inr (.inr ⟨by rw [hp1]; rfl, by rw [hr1]; simp⟩))))]
  have ht2 := hu1.tick_response (by rw [hp1]; rfl) hr1
  have hreg1 : s.tick.regs = onReadRequest s.regs := by rw [ht1]
  have hu2 : s.tick.tick.Unstalled :=
    ⟨by simp [h.script], by simp [h.steady], by rw [ht2, hreg1]; simp [onResponse, h.fault]⟩
  have hreg2 : s.tick.tick.regs =
      onReadData (getAnswer s.mem s.draws (getReq s.regs.addr s.regs.len)) (onReadRequest s.regs) := by
    rw [ht2, hreg1]; rfl
  have hp2 : s.tick.tick.regs.phase = .readBody := by rw [hreg2]; rfl
  rw [run_tick (by rw [hp2]; decide) hu2.fault (hu2.not_waiting (.inr (.inl hp2)))]
  obtain ⟨n, hn⟩ := Nat.exists_eq_succ_of_ne_zero (Nat.pos_iff_ne_zero.1 (chunksOfWord_pos s.tick.tick.regs))
  rw [run_emitWord (getAnswer s.mem s.draws (getReq s.regs.addr s.regs.len)) n _ hu2 hp2 (by rw [hreg2]; rfl) hn]
  have hem : emitWord (getAnswer s.mem s.draws (getReq s.regs.addr s.regs.len)) s.tick.tick = readWord s := by
    have hix : (slotOf s.regs.addr).val = s.regs.idx.val := by rw [hi]
    rw [emitWord, readWord, ht2, hreg1]
    rw [ht1]
    simp [onResponse, chunksOfWord, hix, hq, Sys.record]
  rw [hem]

/-- The state when the data chunks of a word are in the buffer: phase WriteIssue, the deferred decrement of the last
chunk not yet made (R171). -/
def filledWord (ds : List (BitVec cfg.w)) (q : List (BitVec cfg.w)) (s : Sys cfg) : Sys cfg :=
  { s with
    serialIn := q, trace := s.trace ++ ds.map .chunkIn,
    regs := { s.regs with
      body := fillSlots ds s.regs.idx.val s.regs.body,
      valid := s.regs.valid ||| slotRun cfg s.regs.idx.val ds.length,
      len := s.regs.len - BitVec.ofNat cfg.wordBits (ds.length - 1),
      idx := ⟨(s.regs.idx.val + (ds.length - 1)) % cfg.N, Nat.mod_lt _ cfg.N_pos⟩,
      phase := .writeIssue } }

theorem setIfInBounds_eq_set (body : Vector (BitVec cfg.w) cfg.N) (i : Fin cfg.N) (x : BitVec cfg.w) :
    body.setIfInBounds i.val x = body.set i.val x i.isLt := by
  ext j hj
  simp [Vector.getElem_setIfInBounds, Vector.getElem_set]

theorem markValid_or_slotRun (v : BitVec cfg.N) (i : Fin cfg.N) (n : Nat) :
    markValid v i ||| slotRun cfg (i.val + 1) n = v ||| slotRun cfg i.val (n + 1) := by
  have hi := i.isLt
  apply BitVec.eq_of_getLsbD_eq
  intro j hj
  rw [BitVec.getLsbD_or, BitVec.getLsbD_or, markValid_getLsbD, slotRun_getLsbD, slotRun_getLsbD]
  simp only [hj, decide_true, Bool.true_and, Bool.or_assoc]
  congr 1
  rw [Bool.eq_iff_iff]
  simp only [Bool.or_eq_true, Bool.and_eq_true, decide_eq_true_eq]
  omega

theorem run_filledWord (ds : List (BitVec cfg.w)) (x : BitVec cfg.w) (q : List (BitVec cfg.w)) (s : Sys cfg)
    (h : s.Unstalled) (hp : s.regs.phase = .writeBody) (hq : s.serialIn = x :: ds ++ q)
    (hn : chunksOfWord s.regs = ds.length + 1) : s.run = (filledWord (x :: ds) q s).run := by
  induction ds generalizing x s with
  | nil =>
    have ht := h.tick_chunk (by rw [hp]; rfl) (x := x) (q := q) (by simpa using hq)
    have hi := s.regs.idx.isLt
    have hcond : (isLastSlot s.regs.idx || decide (s.regs.len = 0#_)) = true := by
      by_cases h0 : s.regs.len = 0#_
      · simp [h0]
      · have h1 := toNat_ne_zero h0
        have hl : isLastSlot s.regs.idx = true := by
          rw [isLastSlot_iff]
          simp only [chunksOfWord, List.length_nil] at hn
          omega
        simp [hl]
    have htw : s.tick = filledWord [x] q s := by
      have hv : markValid s.regs.valid s.regs.idx = s.regs.valid ||| slotRun cfg s.regs.idx.val 1 := by
        rw [← markValid_or_slotRun]
        have : slotRun cfg (s.regs.idx.val + 1) 0 = 0#_ := by
          apply BitVec.eq_of_getLsbD_eq
          intro j hj
          rw [slotRun_getLsbD]
          simp
        rw [this, BitVec.or_zero]
      rw [ht, filledWord]
      simp only [onChunk, hp, onWriteBody, hcond, if_true, fillSlots, setIfInBounds_eq_set, hv, List.length_singleton,
        Nat.sub_self, Nat.add_zero, Nat.mod_eq_of_lt hi, BitVec.sub_zero, List.map_cons,
        List.map_nil]
    have htp : s.tick.regs.phase = .writeIssue := by rw [htw]; rfl
    have hu : s.tick.Unstalled := ⟨by simp [h.script], by simp [h.steady], by rw [htw]; simp [filledWord, h.fault]⟩
    rw [run_tick (by rw [htp]; decide) hu.fault (hu.not_waiting (.inl (by rw [htp]; rfl))), htw]
  | cons y ds ih =>
    have ht := h.tick_chunk (by rw [hp]; rfl) (x := x) (q := y :: ds ++ q) (by simpa using hq)
    have hi := s.regs.idx.isLt
    simp only [List.length_cons] at hn
    have hl : isLastSlot s.regs.idx = false := by
      rw [not_isLastSlot_iff]
      unfold chunksOfWord at hn
      omega
    have h0 : s.regs.len ≠ 0#_ := by
      intro hc
      simp [chunksOfWord, hc] at hn
      omega
    have hs1 := toNat_sub_one _ h0
    have h1 := toNat_ne_zero h0
    have hsl := nextSlot_val _ hl
    have htr : s.tick.regs = onWriteBody x s.regs := by rw [ht]; simp [onChunk, hp]
    have htp : s.tick.regs.phase = .writeBody := by rw [htr]; simp [h0, hl, hp]
    have hu : s.tick.Unstalled := ⟨by simp [h.script], by simp [h.steady], by rw [htr]; simp [h.fault]⟩
    have hcw : chunksOfWord s.tick.regs = ds.length + 1 := by
      rw [htr]
      unfold chunksOfWord at hn ⊢
      simp only [onWriteBody_idx, onWriteBody_len, hl, h0, decide_false, Bool.or_false, Bool.false_eq_true, if_false,
        hsl, hs1]
      omega
    rw [run_tick (by rw [htp]; decide) hu.fault
        (hu.not_waiting (.inr (.inr (.inl ⟨by rw [htp]; rfl, by rw [ht]; simp⟩)))),
      ih y s.tick hu htp (by rw [ht]) hcw]
    congr 1
    have hix : (s.regs.idx.val + 1 + ds.length) % cfg.N = (s.regs.idx.val + (ds.length + 1)) % cfg.N := by
      congr 1
      omega
    have hcond : (isLastSlot s.regs.idx || decide (s.regs.len = 0#_)) = false := by simp [hl, h0]
    rw [filledWord, filledWord]
    simp only [ht]
    simp only [onChunk, hp, onWriteBody_body, onWriteBody_valid, onWriteBody_len, onWriteBody_idx, hcond,
      Bool.false_eq_true, if_false, hsl, onWriteBody_cmd, onWriteBody_addr, onWriteBody_fault, List.length_cons,
      Nat.add_sub_cancel, sub_one_sub_ofNat, hix, List.map_cons, List.append_assoc, List.singleton_append,
      markValid_or_slotRun, fillSlots, setIfInBounds_eq_set]

/-- R111: one round of the outer `repeat`, tick by tick. -/
theorem run_writeWord (s : Sys cfg) (h : s.Unstalled) (hp : s.regs.phase = .writeBody) (hr : s.responses = [])
    (hv : s.regs.valid = emptyMask cfg) (hq : chunksOfWord s.regs ≤ s.serialIn.length)
    (hw : (writeWord s).regs.phase ≠ .command → (writeWord s).serialIn ≠ []) :
    s.run = if (writeWord s).regs.phase = .command then writeWord s else (writeWord s).run := by
  have hpos := chunksOfWord_pos s.regs
  have htk : (s.serialIn.take (chunksOfWord s.regs)).length = chunksOfWord s.regs := by
    rw [List.length_take]; omega
  obtain ⟨x, ds, hds⟩ : ∃ x ds, s.serialIn.take (chunksOfWord s.regs) = x :: ds := by
    cases hc : s.serialIn.take (chunksOfWord s.regs) with
    | nil => rw [hc] at htk; simp at htk; omega
    | cons x ds => exact ⟨x, ds, rfl⟩
  have hlen : chunksOfWord s.regs = ds.length + 1 := by rw [← htk, hds]; rfl
  have hsplit : s.serialIn = x :: ds ++ s.serialIn.drop (chunksOfWord s.regs) := by
    rw [← hds, List.take_append_drop]
  rw [run_filledWord ds x _ s h hp hsplit hlen]
  have hfw : filledWord (x :: ds) (s.serialIn.drop (chunksOfWord s.regs)) s =
      { s with
        serialIn := s.serialIn.drop (chunksOfWord s.regs),
        trace := s.trace ++ (s.serialIn.take (chunksOfWord s.regs)).map .chunkIn,
        regs := { s.regs with
          body := fillSlots (s.serialIn.take (chunksOfWord s.regs)) s.regs.idx.val s.regs.body,
          valid := slotRun cfg s.regs.idx.val (chunksOfWord s.regs),
          len := s.regs.len - BitVec.ofNat cfg.wordBits (chunksOfWord s.regs - 1),
          idx := ⟨(s.regs.idx.val + (chunksOfWord s.regs - 1)) % cfg.N, Nat.mod_lt _ cfg.N_pos⟩,
          phase := .writeIssue } } := by
    rw [filledWord, hv, hds]
    simp only [emptyMask, BitVec.zero_or, List.length_cons, ← hlen]
  rw [hfw]
  generalize hs1 : Sys.mk _ _ _ _ _ _ _ _ _ = s1
  have hu1 : s1.Unstalled := by subst hs1; exact ⟨h.script, h.steady, h.fault⟩
  have hp1 : s1.regs.phase = .writeIssue := by subst hs1; rfl
  have ht1 := hu1.tick_request (by rw [hp1]; rfl)
  have hpr : presentedRequest s1.regs = putReq s1.regs.addr s1.regs.body s1.regs.valid := by
    simp [presentedRequest, hp1]
  rw [hpr, busAccept_put _ _ rfl] at ht1
  have hr1 : s1.responses = [] := by subst hs1; exact hr
  simp only [record_mem, record_draws, record_responses, hr1, List.nil_append, onAccepted, hp1] at ht1
  have hu2 : s1.tick.Unstalled := ⟨by simp [hu1.script], by simp [hu1.steady], by rw [ht1]; simp [hu1.fault]⟩
  have hp2 : s1.tick.regs.phase = .writeAck := by rw [ht1]; rfl
  have hr2 : s1.tick.responses = [freeWord cfg s1.draws] := by rw [ht1]
  rw [run_tick (by rw [hp2]; decide) hu2.fault
    (hu2.not_waiting (.inr (.inr (.inr ⟨by rw [hp2]; rfl, by rw [hr2]; simp⟩))))]
  have ht2 := hu2.tick_response (by rw [hp2]; rfl) hr2
  have hreg2 : s1.tick.regs = onWriteIssue s1.regs := by rw [ht1]
  have hresp : onResponse (freeWord cfg s1.draws) s1.tick.regs = onWriteAck (onWriteIssue s1.regs) := by
    simp [onResponse, hreg2]
  rw [hresp] at ht2
  -- the two ticks make the round of the pseudocode
  have hcl : chunksOfWord s.regs ≤ s.regs.len.toNat + 1 := by unfold chunksOfWord; omega
  have hl1 : s1.regs.len = s.regs.len - BitVec.ofNat cfg.wordBits (chunksOfWord s.regs - 1) := by subst hs1; rfl
  have hlt := s.regs.len.isLt
  have hl1n : s1.regs.len.toNat = s.regs.len.toNat - (chunksOfWord s.regs - 1) := by
    rw [hl1, BitVec.toNat_sub_of_le, BitVec.toNat_ofNat, Nat.mod_eq_of_lt (by omega)]
    rw [BitVec.le_def, BitVec.toNat_ofNat, Nat.mod_eq_of_lt (by omega)]
    omega
  have hl0 : s1.regs.len = 0#_ ↔ chunksOfWord s.regs = s.regs.len.toNat + 1 := by
    constructor
    · intro hc
      have : s1.regs.len.toNat = 0 := by rw [hc]; simp
      omega
    · intro hc
      apply BitVec.eq_of_toNat_eq
      rw [hl1n]
      simp
      omega
  have hlsub : s1.regs.len - 1#_ = s.regs.len - BitVec.ofNat cfg.wordBits (chunksOfWord s.regs) := by
    have h3 : BitVec.ofNat cfg.wordBits (chunksOfWord s.regs) =
        BitVec.ofNat cfg.wordBits (chunksOfWord s.regs - 1) + 1#_ := by
      rw [← BitVec.ofNat_add]
      congr 1
      omega
    rw [hl1, h3]
    simp only [BitVec.sub_eq_add_neg, BitVec.neg_add]
    ac_rfl
  have hww : s1.tick.tick = writeWord s := by
    rw [ht2]
    simp only [ht1]
    by_cases hlast : chunksOfWord s.regs = s.regs.len.toNat + 1
    · have h0 := hl0.2 hlast
      simp only [writeWord, hlast, decide_true, if_true, onWriteAck, onWriteIssue, h0]
      subst hs1
      simp [hlast, Sys.record, hr]
    · have h0 : ¬ s1.regs.len = 0#_ := fun hc => hlast (hl0.1 hc)
      simp only [writeWord, hlast, decide_false, Bool.false_eq_true, if_false, onWriteAck, onWriteIssue, h0, hlsub]
      subst hs1
      simp [Sys.record, hr]
  by_cases hc : (writeWord s).regs.phase = .command
  · rw [if_pos hc, run_of_opEnd (by rw [hp2]; decide) (by rw [hww]; exact hc), hww]
  · rw [if_neg hc]
    have hph : (writeWord s).regs.phase = .writeBody := by
      simp only [writeWord] at hc ⊢
      split at hc
      · exact absurd rfl hc
      · rename_i hne
        rw [if_neg hne]
    have hu3 : s1.tick.tick.Unstalled :=
      ⟨by simp [hu1.script], by simp [hu1.steady], by rw [ht2]; simp [hu1.fault]⟩
    rw [run_tick (by rw [hww]; exact hc) hu3.fault
      (hu3.not_waiting (.inr (.inr (.inl ⟨by rw [hww, hph]; rfl, by rw [hww]; exact hw hc⟩)))), hww]

end Sys2Proof.Machine
end

