-- ==== Sys2Proof/Laws/Header.lean ====
section
/-! SUPPORT. Laws/Header.lean: the header of a frame, tick by tick (R137): the fields are the numbers that were
encoded, and the dispatch is on the command. -/

namespace Sys2Proof.Machine

variable {cfg : Config}

/-- The field register when `i` chunks of the number `v` have been accumulated. -/
def partialField (cfg : Config) (v i : Nat) : BitVec cfg.wordBits := BitVec.ofNat cfg.wordBits (v % 2 ^ (i * cfg.w))

@[simp] theorem partialField_zero (v : Nat) : partialField cfg v 0 = 0#_ := by
  simp [partialField, Nat.mod_one]

theorem partialField_all (v : Nat) : partialField cfg v cfg.N = BitVec.ofNat cfg.wordBits v := by
  apply BitVec.eq_of_toNat_eq
  simp [partialField, cfg.N_mul_w]

/-- R131, R135: the next chunk of `v` in its lane. -/
theorem partialField_succ (v i : Nat) :
    partialField cfg v i ||| shiftChunk (chunkOf cfg v i) i = partialField cfg v (i + 1) := by
  apply BitVec.eq_of_getLsbD_eq
  intro k hk
  rw [BitVec.getLsbD_or, shiftChunk_getLsbD, partialField, partialField, BitVec.getLsbD_ofNat, BitVec.getLsbD_ofNat,
    chunkOf, BitVec.getLsbD_ofNat, Nat.testBit_mod_two_pow, Nat.testBit_mod_two_pow, Nat.testBit_div_two_pow,
    Nat.add_mul]
  simp only [hk, decide_true, Bool.true_and, Nat.one_mul]
  by_cases h1 : k < i * cfg.w
  · have h2 : k < i * cfg.w + cfg.w := by omega
    have h3 : ¬ i * cfg.w ≤ k := by omega
    simp [h1, h2, h3]
  · have h3 : i * cfg.w ≤ k := by omega
    have h4 : k - i * cfg.w + i * cfg.w = k := by omega
    have h5 : (k - i * cfg.w < cfg.w) ↔ (k < i * cfg.w + cfg.w) := by omega
    simp [h1, h3, h4, h5]

theorem drop_fieldChunks (v i : Nat) (hi : i < cfg.N) :
    (fieldChunks cfg v).drop i = chunkOf cfg v i :: (fieldChunks cfg v).drop (i + 1) := by
  have hlen : i < (fieldChunks cfg v).length := by simpa [fieldChunks] using hi
  rw [List.drop_eq_getElem_cons hlen]
  simp [fieldChunks]

theorem drop_fieldChunks_all (v : Nat) : (fieldChunks cfg v).drop cfg.N = [] := by
  simp [fieldChunks]

@[simp] theorem length_fieldChunks (v : Nat) : (fieldChunks cfg v).length = cfg.N := by simp [fieldChunks]

/-- Phase Address from its `i`-th chunk on. -/
theorem run_addressPhase (A n : Nat) (q : List (BitVec cfg.w)) (hq : q ≠ []) (s : Sys cfg) (h : s.Unstalled)
    (hp : s.regs.phase = .address) (hn : s.regs.idx.val + n + 1 = cfg.N)
    (ha : s.regs.addr = partialField cfg A s.regs.idx.val)
    (hs : s.serialIn = (fieldChunks cfg A).drop s.regs.idx.val ++ q) :
    s.run = ({ s with
      serialIn := q, trace := s.trace ++ ((fieldChunks cfg A).drop s.regs.idx.val).map .chunkIn,
      regs := { s.regs with addr := BitVec.ofNat cfg.wordBits A, idx := slotZero cfg, phase := .length } } :
        Sys cfg).run := by
  induction n generalizing s with
  | zero =>
    have hl : isLastSlot s.regs.idx = true := (isLastSlot_iff _).2 (by omega)
    have hd : (fieldChunks cfg A).drop s.regs.idx.val = [chunkOf cfg A s.regs.idx.val] := by
      rw [drop_fieldChunks _ _ s.regs.idx.isLt, show s.regs.idx.val + 1 = cfg.N by omega, drop_fieldChunks_all]
    have ht := h.tick_chunk (by rw [hp]; rfl) (x := chunkOf cfg A s.regs.idx.val) (q := q) (by rw [hs, hd]; rfl)
    have haddr : s.regs.addr ||| shiftChunk (chunkOf cfg A s.regs.idx.val) s.regs.idx.val =
        BitVec.ofNat cfg.wordBits A := by
      rw [ha, partialField_succ, show s.regs.idx.val + 1 = cfg.N by omega, partialField_all]
    have htr : s.tick.regs = onAddress (chunkOf cfg A s.regs.idx.val) s.regs := by rw [ht]; simp [onChunk, hp]
    have htp : s.tick.regs.phase = .length := by rw [htr]; simp [hl]
    have hu : s.tick.Unstalled := ⟨by simp [h.script], by simp [h.steady], by rw [htr]; simp [h.fault]⟩
    rw [run_tick (by rw [htp]; decide) hu.fault
      (hu.not_waiting (.inr (.inr (.inl ⟨by rw [htp]; rfl, by rw [ht]; exact hq⟩)))), ht, hd]
    simp only [onChunk, hp, onAddress, hl, if_true, haddr, List.map_cons, List.map_nil]
  | succ n ih =>
    have hl : isLastSlot s.regs.idx = false := (not_isLastSlot_iff _).2 (by omega)
    have hsl := nextSlot_val _ hl
    have hd := drop_fieldChunks (cfg := cfg) A _ s.regs.idx.isLt
    have ht := h.tick_chunk (by rw [hp]; rfl) (x := chunkOf cfg A s.regs.idx.val)
      (q := (fieldChunks cfg A).drop (s.regs.idx.val + 1) ++ q) (by rw [hs, hd]; rfl)
    have htr : s.tick.regs = onAddress (chunkOf cfg A s.regs.idx.val) s.regs := by rw [ht]; simp [onChunk, hp]
    have htp : s.tick.regs.phase = .address := by rw [htr]; simp [hl, hp]
    have hti : s.tick.regs.idx.val = s.regs.idx.val + 1 := by rw [htr]; simp [hl, hsl]
    have hu : s.tick.Unstalled := ⟨by simp [h.script], by simp [h.steady], by rw [htr]; simp [h.fault]⟩
    rw [run_tick (by rw [htp]; decide) hu.fault
        (hu.not_waiting (.inr (.inr (.inl ⟨by rw [htp]; rfl, by rw [ht]; simp [hq]⟩)))),
      ih s.tick hu htp (by omega) (by rw [htr]; simp [hl, hsl, ha, partialField_succ])
        (by rw [hti, ht])]
    congr 1
    rw [hti, hd]
    simp only [ht, onChunk, hp, onAddress, hl, Bool.false_eq_true, if_false, List.append_assoc, List.map_cons,
      List.singleton_append]

/-- The registers when the last length chunk has been taken (R134), by command. -/
def dispatched (L : Nat) (S : Regs cfg) : Regs cfg :=
  dispatchCommand { S with len := BitVec.ofNat cfg.wordBits L, idx := slotOf S.addr, phase := .length }

/-- Phase Length from its `i`-th chunk on, as far as the tick that completes it. -/
theorem run_lengthPhase (L n : Nat) (q : List (BitVec cfg.w)) (s : Sys cfg) (h : s.Unstalled)
    (hp : s.regs.phase = .length) (hn : s.regs.idx.val + n + 1 = cfg.N)
    (ha : s.regs.len = partialField cfg L s.regs.idx.val)
    (hs : s.serialIn = (fieldChunks cfg L).drop s.regs.idx.val ++ q) :
    ∃ u : Sys cfg, s.run = u.run ∧ u.regs.phase = .length ∧ u.regs.fault = false ∧
      u.tick = { s with
        serialIn := q, trace := s.trace ++ ((fieldChunks cfg L).drop s.regs.idx.val).map .chunkIn,
        regs := dispatched L s.regs } := by
  induction n generalizing s with
  | zero =>
    have hl : isLastSlot s.regs.idx = true := (isLastSlot_iff _).2 (by omega)
    have hd : (fieldChunks cfg L).drop s.regs.idx.val = [chunkOf cfg L s.regs.idx.val] := by
      rw [drop_fieldChunks _ _ s.regs.idx.isLt, show s.regs.idx.val + 1 = cfg.N by omega, drop_fieldChunks_all]
    have ht := h.tick_chunk (by rw [hp]; rfl) (x := chunkOf cfg L s.regs.idx.val) (q := q) (by rw [hs, hd]; rfl)
    have hlen : s.regs.len ||| shiftChunk (chunkOf cfg L s.regs.idx.val) s.regs.idx.val =
        BitVec.ofNat cfg.wordBits L := by
      rw [ha, partialField_succ, show s.regs.idx.val + 1 = cfg.N by omega, partialField_all]
    refine ⟨s, rfl, hp, h.fault, ?_⟩
    rw [ht, hd]
    simp only [onChunk, hp, onLength_of_last _ _ hl, hlen, dispatched, List.map_cons, List.map_nil]
  | succ n ih =>
    have hl : isLastSlot s.regs.idx = false := (not_isLastSlot_iff _).2 (by omega)
    have hsl := nextSlot_val _ hl
    have hd := drop_fieldChunks (cfg := cfg) L _ s.regs.idx.isLt
    have ht := h.tick_chunk (by rw [hp]; rfl) (x := chunkOf cfg L s.regs.idx.val)
      (q := (fieldChunks cfg L).drop (s.regs.idx.val + 1) ++ q) (by rw [hs, hd]; rfl)
    have htr : s.tick.regs =
        { s.regs with len := partialField cfg L (s.regs.idx.val + 1), idx := nextSlot s.regs.idx } := by
      rw [ht]; simp [onChunk, hp, onLength_of_not_last _ _ hl, ha, partialField_succ]
    have htp : s.tick.regs.phase = .length := by rw [htr]; exact hp
    have hti : s.tick.regs.idx.val = s.regs.idx.val + 1 := by rw [htr]; exact hsl
    have hu : s.tick.Unstalled := ⟨by simp [h.script], by simp [h.steady], by rw [htr]; exact h.fault⟩
    have hne : (fieldChunks cfg L).drop (s.regs.idx.val + 1) ≠ [] := by
      rw [drop_fieldChunks _ _ (by omega)]; simp
    obtain ⟨u, hu1, hu2, hu3, hu4⟩ := ih s.tick hu htp (by omega) (by rw [htr, hsl]) (by rw [hti, ht])
    refine ⟨u, ?_, hu2, hu3, ?_⟩
    · rw [run_tick (by rw [htp]; decide) hu.fault
        (hu.not_waiting (.inr (.inr (.inl ⟨by rw [htp]; rfl, by rw [ht]; simp [hne]⟩)))), hu1]
    · rw [hu4, hti, hd]
      simp only [htr, dispatched]
      simp only [ht, List.append_assoc, List.map_cons, List.singleton_append]

/-- R137: the `1 + 2N` chunks of a header, as far as the tick that completes it. -/
theorem run_header (code A L : Nat) (q : List (BitVec cfg.w)) (s : Sys cfg) (h : s.Unstalled)
    (hp : s.regs.phase = .command) (hs : s.serialIn = encodeHeader cfg code A L ++ q) :
    ∃ u : Sys cfg, s.run = u.run ∧ u.regs.phase = .length ∧ u.regs.fault = false ∧
      u.tick =
        { afterHeader code A L .length (s.withSerialIn q) with
          regs := dispatchCommand (afterHeader code A L .length (s.withSerialIn q)).regs } := by
  have hN := cfg.N_pos
  have hne : ∀ (v : Nat) (r : List (BitVec cfg.w)), fieldChunks cfg v ++ r ≠ [] := by
    intro v r hc
    have := congrArg List.length hc
    rw [List.length_append, length_fieldChunks, List.length_nil] at this
    omega
  have ht := h.tick_chunk (by rw [hp]; rfl) (x := BitVec.ofNat cfg.w code)
    (q := fieldChunks cfg A ++ (fieldChunks cfg L ++ q)) (by rw [hs, encodeHeader]; simp)
  have htr : s.tick.regs = onCommand (BitVec.ofNat cfg.w code) s.regs := by rw [ht]; simp [onChunk, hp]
  have hu : s.tick.Unstalled := ⟨by simp [h.script], by simp [h.steady], by rw [htr]; exact h.fault⟩
  have h1 : s.run = s.tick.run := run_tick (by rw [htr]; simp) hu.fault
    (hu.not_waiting (.inr (.inr (.inl ⟨by rw [htr]; rfl, by rw [ht]; exact hne _ _⟩))))
  have h2 := run_addressPhase A (cfg.N - 1) (fieldChunks cfg L ++ q) (hne _ _) s.tick hu (by rw [htr]; rfl)
    (by rw [htr]; simp [slotZero]; omega) (by rw [htr]; simp [slotZero])
    (by rw [htr]; simp only [onCommand_idx, slotZero, List.drop_zero]; rw [ht])
  have hz : s.tick.regs.idx.val = 0 := by rw [htr]; rfl
  rw [hz, List.drop_zero] at h2
  obtain ⟨u, hu1, hu2, hu3, hu4⟩ := run_lengthPhase L (cfg.N - 1) q
    { s.tick with
      serialIn := fieldChunks cfg L ++ q, trace := s.tick.trace ++ (fieldChunks cfg A).map .chunkIn,
      regs := { s.tick.regs with addr := BitVec.ofNat cfg.wordBits A, idx := slotZero cfg, phase := .length } }
    ⟨hu.script, hu.steady, hu.fault⟩ rfl (by simp [slotZero]; omega) (by rw [htr]; simp [slotZero])
    (by simp [slotZero])
  refine ⟨u, by rw [h1, h2, hu1], hu2, hu3, ?_⟩
  rw [hu4]
  simp only [htr, dispatched, afterHeader, slotZero, List.drop_zero, Sys.withSerialIn, encodeHeader]
  simp only [ht, List.map_cons, List.map_append, List.append_assoc, List.cons_append, List.nil_append, onCommand]

/-- R137 for READ: the run goes on in phase ReadRequest. -/
theorem run_readHeader (A L : Nat) (q : List (BitVec cfg.w)) (s : Sys cfg) (h : s.Unstalled)
    (hp : s.regs.phase = .command) (hs : s.serialIn = encodeRead cfg A L ++ q) :
    s.run = (afterHeader readCode A L .readRequest (s.withSerialIn q)).run := by
  obtain ⟨u, hu1, hu2, hu3, hu4⟩ := run_header readCode A L q s h hp hs
  have hcmd : (BitVec.ofNat cfg.w readCode).toNat = readCode := by simp [readCode]
  have hrw : readCode ≠ writeCode := by decide
  have htick : u.tick = afterHeader readCode A L .readRequest (s.withSerialIn q) := by
    rw [hu4]
    simp only [dispatchCommand, afterHeader, hcmd, hrw, if_true, if_false]
  rw [hu1, ← htick]
  have hf : (afterHeader readCode A L .readRequest (s.withSerialIn q)).Unstalled :=
    ⟨h.script, h.steady, h.fault⟩
  exact run_tick (by rw [htick]; simp [afterHeader]) (by rw [htick]; exact hf.fault)
    (by rw [htick]; exact hf.not_waiting (.inl rfl))

/-- R137 for WRITE: the run goes on in phase WriteBody with no slot valid. -/
theorem run_writeHeader (A L : Nat) (q : List (BitVec cfg.w)) (hq : q ≠ []) (s : Sys cfg) (h : s.Unstalled)
    (hp : s.regs.phase = .command) (hs : s.serialIn = encodeHeader cfg writeCode A L ++ q) :
    s.run = ({ afterHeader writeCode A L .writeBody (s.withSerialIn q) with
      regs := { (afterHeader writeCode A L .writeBody (s.withSerialIn q)).regs with valid := emptyMask cfg } } :
        Sys cfg).run := by
  obtain ⟨u, hu1, hu2, hu3, hu4⟩ := run_header writeCode A L q s h hp hs
  have hcmd : (BitVec.ofNat cfg.w writeCode).toNat = writeCode := by
    have h8 : 1 < 2 ^ cfg.w := Nat.one_lt_two_pow (Nat.pos_iff_ne_zero.1 cfg.w_pos)
    simp [writeCode, Nat.mod_eq_of_lt h8]
  have htick : u.tick = { afterHeader writeCode A L .writeBody (s.withSerialIn q) with
      regs := { (afterHeader writeCode A L .writeBody (s.withSerialIn q)).regs with valid := emptyMask cfg } } := by
    rw [hu4]
    simp only [dispatchCommand, afterHeader, hcmd, if_true]
  rw [hu1, ← htick]
  have hf : u.tick.Unstalled := by rw [htick]; exact ⟨h.script, h.steady, h.fault⟩
  exact run_tick (by rw [htick]; simp [afterHeader]) hf.fault
    (hf.not_waiting (.inr (.inr (.inl ⟨by rw [htick]; rfl, by rw [htick]; exact hq⟩))))

/-- R112, R243: the header of an unrecognised command ends in the fault. -/
theorem run_badHeader (code A L : Nat) (q : List (BitVec cfg.w)) (s : Sys cfg) (h : s.Unstalled)
    (hp : s.regs.phase = .command) (hs : s.serialIn = encodeHeader cfg code A L ++ q)
    (hc : code < 2 ^ cfg.w) (hr : code ≠ readCode) (hw : code ≠ writeCode) :
    s.run = wholeBadCommand code A L (s.withSerialIn q) := by
  obtain ⟨u, hu1, hu2, hu3, hu4⟩ := run_header code A L q s h hp hs
  have hcmd : (BitVec.ofNat cfg.w code).toNat = code := by simp [Nat.mod_eq_of_lt hc]
  have htick : u.tick = wholeBadCommand code A L (s.withSerialIn q) := by
    rw [hu4]
    simp only [dispatchCommand, afterHeader, hcmd, hr, hw, if_false, wholeBadCommand]
  rw [hu1, ← htick]
  apply run_of_settled
  have hf : u.tick.regs.fault = true := by rw [htick]; rfl
  simp [settled, faultRaised, hu3, hf]

end Sys2Proof.Machine
end

