-- ==== Sys2Proof/Laws/PerInstr.lean ====
section
/-! SUPPORT. Laws/PerInstr.lean: what holds of every instruction as syntax, one lemma for each constructor. -/

/-- R80, R87: the frame of the instruction begins with a chunk that selects one of the two rows of the table. -/
def Sys2Proof.Laws.FrameHead.Statement (i : Sys2Proof.Instr) : Prop :=
  ∀ cfg : Sys2Proof.Config, ∃ x q, Sys2Proof.encode cfg i = x :: q ∧
    (x.toNat = Sys2Proof.readCode ∨ x.toNat = Sys2Proof.writeCode)

theorem Sys2Proof.Laws.FrameHead.read (address len : Nat) :
    Sys2Proof.Laws.FrameHead.Statement (.read address len) :=
  fun _ => ⟨_, _, rfl, .inl rfl⟩

theorem Sys2Proof.Laws.FrameHead.write (address len : Nat) (data : List Nat) :
    Sys2Proof.Laws.FrameHead.Statement (.write address len data) :=
  fun cfg => ⟨_, _, rfl, .inr (Nat.mod_eq_of_lt (Nat.one_lt_two_pow (Nat.pos_iff_ne_zero.1 cfg.w_pos)))⟩
end

