-- ==== Sys2Proof/Laws/Stalls.lean ====
section
/-! SUPPORT. Laws/Stalls.lean: one tick of a machine whose environment stalls, beside the machine that nothing
stalls (R222, R224). -/

namespace Sys2Proof.Machine

variable {cfg : Config}

theorem Sys.cooperative.envNow_reset {s : Sys cfg} (h : s.cooperative) : s.envNow.reset = false := by
  obtain ⟨-, hn⟩ := h
  unfold Sys.noReset at hn
  unfold Sys.envNow
  cases hs : s.script with
  | nil => rfl
  | cons e es =>
    rw [hs] at hn
    simp only [List.all_cons, Bool.and_eq_true, Bool.not_eq_true'] at hn
    exact hn.1

/-- A tick keeps the environment cooperative. -/
theorem Sys.cooperative.tick {s : Sys cfg} (h : s.cooperative) : s.tick.cooperative := by
  obtain ⟨hs, hn⟩ := h
  refine ⟨by rw [tick_steady, hs], ?_⟩
  unfold Sys.noReset at *
  rw [tick_script]
  cases hq : s.script with
  | nil => rfl
  | cons e es =>
    rw [hq] at hn
    simp only [List.all_cons, Bool.and_eq_true] at hn
    exact hn.2

/-- The unstalled copy of a cooperative machine that is not halted. -/
theorem Sys.cooperative.unstalled_calm {s : Sys cfg} (h : s.cooperative) (hf : s.regs.fault = false) :
    s.calm.Unstalled := ⟨rfl, h.1, hf⟩

/-- A tick either stalls, and only the script moves, or does what the unstalled machine does. -/
theorem Sys.cooperative.tick_calm {s : Sys cfg} (h : s.cooperative) (hf : s.regs.fault = false) :
    s.tick = { s with script := s.script.tail } ∨ s.tick.calm = s.calm.tick := by
  have hu := h.unstalled_calm hf
  have hr := h.envNow_reset
  rcases tick_cases s with ⟨-, ht⟩ | ⟨x, q, -, hp, -, hq, ht⟩ | ⟨-, hp, -, ht⟩ | ⟨r, -, -, hp, ht⟩ |
    ⟨d, ds, -, hp, -, hq, ht⟩
  · left
    rw [ht, afterReset, hr]
    rfl
  · right
    rw [hu.tick_chunk hp hq, ht, afterReset, hr]
    rfl
  · right
    rw [hu.tick_emit hp, ht, afterReset, hr]
    rfl
  · right
    have hpr : s.calm.regs.phase.presentsRequest = true := by
      rcases hp with ⟨hp, -⟩ | ⟨hp, -⟩ <;> rw [calm_regs, hp] <;> rfl
    have hreq : presentedRequest s.calm.regs = r := by
      rcases hp with ⟨hp, rfl⟩ | ⟨hp, rfl⟩ <;> simp [presentedRequest, hp]
    rw [hu.tick_request hpr, hreq, ht, afterReset, hr]
    have hb : (busAccept r (s.record (.request r))).calm = busAccept r (s.calm.record (.request r)) := by
      cases ho : r.opcode with
      | put => rw [busAccept_put _ _ ho, busAccept_put _ _ ho]; rfl
      | get =>
        by_cases ha : r.aligned = true ∨ s.answersMisaligned = true
        · rw [busAccept_get _ (s.record _) ho ha, busAccept_get _ (s.calm.record _) ho ha]; rfl
        · simp only [not_or, Bool.not_eq_true] at ha
          rw [busAccept_unanswered _ (s.record _) ho ha.1 ha.2,
            busAccept_unanswered _ (s.calm.record _) ho ha.1 ha.2]; rfl
    rw [← hb]
    rfl
  · right
    have hpr : s.calm.regs.phase.takesResponse = true := by
      rcases hp with hp | hp <;> rw [calm_regs, hp] <;> rfl
    rw [hu.tick_response hpr hq, ht, afterReset, hr]
    rfl

end Sys2Proof.Machine
end

