-- ==== Sys2Proof/Tests/Slice0.lean ====
section
/-! SUPPORT. Tests/Slice0.lean: the well-formedness smoke test, words written out from the spec's encoding, one-step
tests whose expected values stand in spec/ (the comment says where), and for each statement with hypotheses a witness
that meets them all. -/

open Sys2Proof Sys2Proof.Machine

namespace Sys2Proof.Tests

/-! ### Well-formedness: each check refuses an ill-formed term -/

theorem test_wf_read_accepts : (Instr.read 0xFFFFFFFF 0xFFFFFFFF).wellFormed Config.cfgB = true := by decide
theorem test_wf_read_address_too_big : (Instr.read 0x100000000 0).wellFormed Config.cfgB = false := by decide
theorem test_wf_read_len_too_big : (Instr.read 0 0x100000000).wellFormed Config.cfgB = false := by decide
theorem test_wf_write_accepts : (Instr.write 0xFFFFFFFF 1 [0, 0xFF]).wellFormed Config.cfgB = true := by decide
theorem test_wf_write_address_too_big : (Instr.write 0x100000000 0 [0]).wellFormed Config.cfgB = false := by decide
theorem test_wf_write_len_too_big :
    (Instr.write 0 0x100000000 [0]).wellFormed Config.cfgB = false := by decide
theorem test_wf_write_one_chunk_short : (Instr.write 0 1 [0]).wellFormed Config.cfgB = false := by decide
theorem test_wf_write_one_chunk_more : (Instr.write 0 1 [0, 0, 0]).wellFormed Config.cfgB = false := by decide
theorem test_wf_write_chunk_too_big : (Instr.write 0 1 [0, 0x100]).wellFormed Config.cfgB = false := by decide

/-! ### Decoding: words written out from R80, R83, R84, R87 -/

/-- READ in CFG-B: CMD 0, four address chunks, four length chunks, least significant first. -/
theorem test_decode_read :
    decode Config.cfgB [0x00#8, 0x01#8, 0x02#8, 0x03#8, 0x04#8, 0x05#8, 0x06#8, 0x07#8, 0x08#8, 0x99#8] =
      .ok (.read 0x04030201 0x08070605, [0x99#8]) := by decide

/-- WRITE in CFG-B: CMD 1, the header, `Len + 1` data chunks. -/
theorem test_decode_write :
    decode Config.cfgB [0x01#8, 0x01#8, 0x02#8, 0x03#8, 0x04#8, 0x01#8, 0x00#8, 0x00#8, 0x00#8, 0xAA#8, 0xBB#8, 0xCC#8] =
      .ok (.write 0x04030201 1 [0xAA, 0xBB], [0xCC#8]) := by decide

/-- One chunk per word: CFG-C. -/
theorem test_decode_read_one_chunk_per_word :
    decode Config.cfgC [0x0#64, 0x2000#64, 0x1#64] = .ok (.read 0x2000 1, []) := by decide

/-- All `w` bits of the command chunk are compared (R87). -/
theorem test_decode_compares_all_bits :
    decode Config.cfgA [0x80000001#32, 0#32, 0#32, 0#32, 0#32] = .error (.unrecognisedCommand 0x80000001) := by decide

theorem test_decode_rejects_nothing : decode Config.cfgB [] = .error .noChunk := by decide
theorem test_decode_rejects_short_header :
    decode Config.cfgA [0#32, 0#32, 0#32, 0#32] = .error .truncatedHeader := by decide
theorem test_decode_rejects_short_data :
    decode Config.cfgA [1#32, 0#32, 0#32, 1#32, 0#32, 5#32] = .error .truncatedData := by decide
theorem test_decode_table_words :
    decodeTableWord 32 0 = some (.read 0 0) ∧ decodeTableWord 32 1 = some (.write 0 0 [0]) ∧
      decodeTableWord 32 2 = none := by decide

/-! ### One step on a small state -/

/-- The CORE and environment that an outcome holds, as far as `f` looks at them. -/
def look {α : Type} (o : Host.Outcome State Fault Refusal) (f : (cfg : Config) → Sys cfg → α) : Option α :=
  match o with
  | .next s => some (f s.cfg s.sys)
  | .fault _ => none
  | .refused _ => none

/-- A machine in CFG-A with this memory, right after reset. -/
def machineA (mem : Memory) : State := ⟨Config.cfgA, { Sys.reset Config.cfgA with mem := mem }⟩

/-- The bytes of spec/95_test_vectors.md P2 at `0x80002000 .. 0x80002003`. -/
def bytesP2 : Memory :=
  [(0x80002000, 0xE0), (0x80002001, 0xE1), (0x80002002, 0xE2), (0x80002003, 0xE3)]

/-- spec/95_test_vectors.md P2, first frame: the start slot is 1, so the first Put leaves the lower four bytes alone and
the second chunk goes to the next word. -/
theorem test_write_unaligned_start :
    look (exec (.write 0x80002004 1 [0xAAAAAAAA, 0xBBBBBBBB]) (machineA bytesP2))
      (fun _ s => (s.mem, s.regs.addr.toNat, s.regs.idx.val, s.regs.valid.toNat)) =
    some (bytesP2 ++
      [(0x80002004, 0xAA), (0x80002005, 0xAA), (0x80002006, 0xAA), (0x80002007, 0xAA),
       (0x80002008, 0xBB), (0x80002009, 0xBB), (0x8000200A, 0xBB), (0x8000200B, 0xBB)], 0x80002008, 0, 1) := by
  decide

/-- spec/95_test_vectors.md P1: the two Puts, their addresses and masks. -/
theorem test_write_two_words_requests :
    look (exec (.write 0x80001000 2 [0x11111111, 0x22222222, 0x33333333]) (machineA []))
      (fun _ s => (requests s.trace).map fun r => (r.address.toNat, r.size, r.data.toNat, r.mask.toNat)) =
    some [(0x80001000, 8, 0x2222222211111111, 0xFF), (0x80001008, 8, 0x2222222233333333, 0x0F)] := by decide

/-- spec/95_test_vectors.md P1, the first word: one Get of 8 bytes and its two slots, low slot first; the end state by
R110. -/
theorem test_read_whole_word :
    look (exec (.read 0x80001000 1) (machineA [(0x80001000, 0x11), (0x80001003, 0x12), (0x80001004, 0x22)]))
      (fun _ s => ((emitted s.trace).map BitVec.toNat, s.regs.addr.toNat, s.regs.len.toNat, s.regs.idx.val)) =
    some ([0x12000011, 0x22], 0x80001008, 0xFFFFFFFFFFFFFFFF, 0) := by decide

/-- spec/95_test_vectors.md P1, the short read of its second word: the Gets. -/
theorem test_read_two_words_requests :
    look (exec (.read 0x80001000 2) (machineA []))
      (fun _ s => (requests s.trace).map fun r => (r.address.toNat, r.size)) =
    some [(0x80001000, 8), (0x80001008, 4)] := by decide

/-- R243, example: the registers after the frame of an unrecognised command. -/
theorem test_bad_command :
    look (step ⟨Config.cfgA, (Sys.reset Config.cfgA).offer [3#32, 0x10#32, 0#32, 0#32, 0#32, 7#32]⟩)
      (fun _ s => (s.regs.fault, decide (s.regs.phase = .length),
        [s.regs.cmd.toNat, s.regs.addr.toNat, s.regs.len.toNat, s.regs.idx.val, s.serialIn.length])) =
    some (true, true, [3, 0x10, 0, 0, 1]) := by decide

/-- The interface's placement: the READ of opcode-table word 0 runs as the first step after
reset (the four upper lanes of its answer are free values, so its request and chunk count are what is looked at). -/
theorem test_fetch_word_runs :
    look (step (State.reset.withFetchWord 32 0))
      (fun _ s => ((requests s.trace).map fun r => (r.address.toNat, r.size), (emitted s.trace).length)) =
    some ([(0, 4)], 1) := by decide

/-- R151, examples. -/
theorem test_nextAddr_wraps :
    (nextAddr (cfg := Config.cfgA) 0xFFFFFFFFFFFFFFFC#64).toNat = 0 ∧
      (nextAddr (cfg := Config.cfgA) 0x80001004#64).toNat = 0x80001008 := by decide

/-- R157, examples: the true address, and the fallback to the whole word. -/
theorem test_getReq_examples :
    (getReq (cfg := Config.cfgA) 0x80001004#64 5#64).size = 4 ∧
      (getReq (cfg := Config.cfgB) 0x0101#32 4#32).address.toNat = 0x0100 ∧
      (getReq (cfg := Config.cfgB) 0x0101#32 4#32).size = 4 ∧
      (getReq (cfg := Config.cfgB) 0x0101#32 0#32).address.toNat = 0x0101 := by decide

/-- R155, examples. -/
theorem test_expandMask_examples :
    (expandMask (cfg := Config.cfgA) 0b10#2).toNat = 0xF0 ∧ (expandMask (cfg := Config.cfgB) 0b0100#4).toNat = 4 := by
  decide

/-! ### Witnesses: the hypotheses of each statement together, at boundary values -/

/-- Registers of a CFG-B machine. -/
def regsB (phase : Phase) (cmd : BitVec 8) (len : BitVec 32) (idx : Nat) (valid : BitVec 4) : Regs Config.cfgB where
  phase := phase
  cmd := cmd
  addr := 0x00000102#32
  len := len
  body := Vector.replicate 4 0x5A#8
  valid := valid
  idx := ⟨idx % Config.cfgB.N, Nat.mod_lt _ Config.cfgB.N_pos⟩
  fault := false

/-- Every handshake offered, no reset. -/
def goB : Inputs Config.cfgB := ⟨false, true, 0xAB#8, true, true, true, 0x44332211#32⟩

/-- No handshake offered, no reset. -/
def stallB : Inputs Config.cfgB := ⟨false, false, 0xAB#8, false, false, false, 0x44332211#32⟩

/-- One stalled tick, then everything is offered; memory and the host's queue are not empty. -/
def busyB : Sys Config.cfgB :=
  { Sys.reset Config.cfgB with
    serialIn := [0x77#8], mem := [(0x101, 0x11), (0x102, 0x22)], script := [⟨false, ⟨false, false, false, false⟩⟩] }

/-- The halted CFG-B machine, with this script. -/
def haltedB (script : List EnvTick) : Sys Config.cfgB :=
  { busyB with regs := { regsB .length 2 0 2 0 with fault := true }, script := script }

theorem busyB_ready : busyB.ready := ⟨⟨rfl, rfl⟩, rfl, rfl, rfl⟩

theorem witness_ConstructionRefusesExactlyBadParameters :
    (∃ a, 8 = 2 ^ a) ∧ configCheck 8 8 0 = true ∧ configCheck 8 8 8 = true ∧ configCheck 4 64 32 = false ∧
      configCheck 24 64 32 = false ∧ configCheck 128 64 32 = false ∧ configCheck 8 24 16 = false ∧
      configCheck 8 64 2 = false ∧ configCheck 8 64 65 = false ∧ configCheck 0 0 0 = false :=
  ⟨⟨3, rfl⟩, by decide⟩

theorem witness_DecodingAnEncodedFrameGivesTheCommand :
    (Instr.read 0xFFFFFFFF 0).wellFormed Config.cfgB = true ∧
      (Instr.write 0 0 [0xFF]).wellFormed Config.cfgB = true := by decide

theorem witness_DecodingTakesExactlyOneFrame :
    decode Config.cfgC [1#64, 0x2000#64, 0#64, 5#64, 6#64] = .ok (.write 0x2000 0 [5], [6#64]) := by decide

theorem witness_FrameLengthsAreAsListed : (Instr.write 0 2 [0, 1, 0xFF]).wellFormed Config.cfgB = true := by decide

theorem witness_FieldsAreLittleEndianSums :
    0 < 2 ^ Config.cfgB.wordBits ∧ 0xFFFFFFFF < 2 ^ Config.cfgB.wordBits := by decide

theorem witness_OtherCommandValuesAreUnrecognised :
    (0xFF#8).toNat ≠ 0 ∧ (0xFF#8).toNat ≠ 1 ∧ (2#8).toNat ≠ 0 ∧ (2#8).toNat ≠ 1 ∧
      2 * Config.cfgB.N ≤ [0#8, 0#8, 0#8, 0#8, 0#8, 0#8, 0#8, 0#8].length := by decide

theorem witness_PseudoFormsExpand :
    0x80001008 % Config.cfgA.W = 0 ∧ 0 % Config.cfgA.W = 0 ∧ 0 < 4 ∧ 4 % Config.cfgA.c = 0 ∧
      [0x11].length = 4 / Config.cfgA.c := by decide

theorem witness_ResetTickGivesResetValues : ({ goB with reset := true } : Inputs Config.cfgB).reset = true := rfl

theorem witness_HaltHoldsTheMachine : (haltedB []).regs.fault = true ∧ goB.reset = false := ⟨rfl, rfl⟩

theorem witness_NoFireNoChange :
    stallB.reset = false ∧
      fire stallB.serialInValid (outputs (regsB .writeBody 1 0 3 0)).serialInReady = false ∧
      fire (outputs (regsB .writeBody 1 0 3 0)).serialOutValid stallB.serialOutReady = false ∧
      fire (outputs (regsB .writeBody 1 0 3 0)).busReqValid stallB.busReqReady = false ∧
      fire stallB.busRespValid (outputs (regsB .writeBody 1 0 3 0)).busRespReady = false := by decide

theorem witness_CommandPhaseCapturesTheChunk :
    goB.reset = false ∧ (regsB .command 9 0 3 0).fault = false ∧ (regsB .command 9 0 3 0).phase = .command ∧
      goB.serialInValid = true ∧ stallB.serialInValid = false := by decide

/-- Both clauses: the last slot and the first. -/
theorem witness_AddressPhaseAccumulates :
    goB.reset = false ∧ (regsB .address 1 0 3 0).fault = false ∧ (regsB .address 1 0 3 0).phase = .address ∧
      goB.serialInValid = true ∧ (regsB .address 1 0 3 0).idx.val = Config.cfgB.N - 1 ∧
      (regsB .address 1 0 0 0).idx.val ≠ Config.cfgB.N - 1 := by decide

theorem witness_LengthPhaseAccumulates :
    goB.reset = false ∧ (regsB .length 1 0 2 0).fault = false ∧ (regsB .length 1 0 2 0).phase = .length ∧
      goB.serialInValid = true ∧ (regsB .length 1 0 2 0).idx.val ≠ Config.cfgB.N - 1 := by decide

/-- The three clauses: commands 1, 0 and the smallest and greatest unrecognised ones. -/
theorem witness_LengthCompletionDispatches :
    goB.reset = false ∧ (regsB .length 1 0 3 0).fault = false ∧ (regsB .length 1 0 3 0).phase = .length ∧
      goB.serialInValid = true ∧ (regsB .length 1 0 3 0).idx.val = Config.cfgB.N - 1 ∧
      (regsB .length 1 0 3 0).cmd.toNat = 1 ∧ (regsB .length 0 0 3 0).cmd.toNat = 0 ∧
      (regsB .length 2 0 3 0).cmd.toNat ≠ 1 ∧ (regsB .length 0xFF 0 3 0).cmd.toNat ≠ 0 := by decide

theorem witness_OnlyABadCommandRaisesTheFault :
    (regsB .length 2 0 3 0).fault = false ∧ (coreStep goB (regsB .length 2 0 3 0)).fault = true := by decide

/-- Both clauses: the last slot, `remaining = 0` in another slot, and neither. -/
theorem witness_WriteBodyStoresTheChunk :
    goB.reset = false ∧ (regsB .writeBody 1 7 3 0).fault = false ∧ (regsB .writeBody 1 7 3 0).phase = .writeBody ∧
      goB.serialInValid = true ∧ (regsB .writeBody 1 7 3 0).idx.val = Config.cfgB.N - 1 ∧
      (regsB .writeBody 1 0 0 0).len = 0#_ ∧ (regsB .writeBody 1 1 2 0).idx.val ≠ Config.cfgB.N - 1 ∧
      (regsB .writeBody 1 1 2 0).len ≠ 0#_ := by decide

theorem witness_IssuingPhasesPresentOneRequest :
    goB.reset = false ∧ (regsB .writeIssue 1 0 0 1).fault = false ∧ (regsB .writeIssue 1 0 0 1).phase = .writeIssue ∧
      (regsB .readRequest 0 0 0 1).phase = .readRequest := by decide

theorem witness_WriteAckEndsOrBeginsAWord :
    goB.reset = false ∧ (regsB .writeAck 1 0 0 1).fault = false ∧ (regsB .writeAck 1 0 0 1).phase = .writeAck ∧
      goB.busRespValid = true ∧ (regsB .writeAck 1 0 0 1).len = 0#_ ∧ (regsB .writeAck 1 1 3 8).len ≠ 0#_ := by
  decide

theorem witness_ReadDataLoadsTheWord :
    goB.reset = false ∧ (regsB .readData 0 0 2 0).fault = false ∧ (regsB .readData 0 0 2 0).phase = .readData ∧
      goB.busRespValid = true := by decide

theorem witness_ReadBodyEmitsTheSlot :
    goB.reset = false ∧ (regsB .readBody 0 0 3 0).fault = false ∧ (regsB .readBody 0 0 3 0).phase = .readBody ∧
      goB.serialOutReady = true ∧ stallB.serialOutReady = false := by decide

theorem witness_OnlyListedPhaseEdges : goB.reset = false := rfl

theorem witness_OffersStayUntilTaken :
    stallB.reset = false ∧ (outputs (regsB .readBody 0 0 3 0)).serialOutValid = true ∧
      stallB.serialOutReady = false ∧ (outputs (regsB .writeIssue 1 0 3 8)).busReqValid = true ∧
      stallB.busReqReady = false := by decide

theorem witness_HeaderAssemblesTheFields :
    let ticks := (encodeHeader Config.cfgB 2 0xFFFFFFFF 0).map fun x => { goB with serialInBits := x }
    (regsB .command 0 5 3 0).phase = .command ∧ (regsB .command 0 5 3 0).fault = false ∧ 2 < 2 ^ Config.cfgB.w ∧
      0xFFFFFFFF < 2 ^ Config.cfgB.wordBits ∧ 0 < 2 ^ Config.cfgB.wordBits ∧
      ticks.map (·.serialInBits) = encodeHeader Config.cfgB 2 0xFFFFFFFF 0 ∧
      ∀ I ∈ ticks, I.reset = false ∧ I.serialInValid = true := by decide

theorem witness_SlotOfIsTheOffsetField : Config.cfgC.N = 1 := by decide

theorem witness_UpperAddressBitsReachNoOutput :
    busAddr (cfg := Config.cfgB) (regsB .readRequest 0 0 2 0).addr = busAddr (cfg := Config.cfgB) 0xFFFF0102#32 := by
  decide

theorem witness_PutCarriesWordAndMask : 3 < Config.cfgB.N ∧ 0 < Config.cfgB.c ∧ 3 < Config.cfgA.c := by decide

/-- Both clauses: a raw size of 1, of the whole word, and of 3. -/
theorem witness_GetIsRawBytesOrTheWord :
    Config.cfgB.lenBytesWraps = false ∧ (∃ k, min (4 - 0x103 % 4) ((5 + 1) * 1) = 2 ^ k) ∧
      (∃ k, min (4 - 0x100 % 4) ((5 + 1) * 1) = 2 ^ k) ∧
      isPow2 (rawSize (cfg := Config.cfgB) 0x101#32 4#32) = false :=
  ⟨rfl, ⟨0, by decide⟩, ⟨2, by decide⟩, by decide⟩

theorem witness_GetStaysInsideOneWord :
    isPow2 (rawSize (cfg := Config.cfgB) 0x103#32 0xFFFFFFFF#32) = true ∧
      isPow2 (rawSize (cfg := Config.cfgB.withLenBytesWraps) 0x103#32 0xFFFFFFFF#32) = false := by decide

/-- Both sides: the smallest misaligned Get of R159, and its neighbours that are aligned. -/
theorem witness_MisalignedGetsAreExactlyTheListed :
    (0x101#32).toNat % Config.cfgB.c = 0 ∧ (getReq (cfg := Config.cfgB) 0x101#32 1#32).aligned = false ∧
      (getReq (cfg := Config.cfgB) 0x102#32 1#32).aligned = true ∧
      (getReq (cfg := Config.cfgB) 0x101#32 0#32).aligned = true ∧
      (getReq (cfg := Config.cfgB) 0x101#32 2#32).aligned = true := by decide

theorem witness_EmittedSlotsAreCovered :
    (0x101#32).toNat % Config.cfgB.c = 0 ∧ (slotOf (cfg := Config.cfgB) 0x101#32).val ≤ 3 ∧
      3 < (slotOf (cfg := Config.cfgB) 0x101#32).val +
        min (Config.cfgB.N - (slotOf (cfg := Config.cfgB) 0x101#32).val) (4 + 1) ∧ 0 < Config.cfgB.c := by decide

/-- Both branches: a masked lane at the top of the word, and the address just above it. -/
theorem witness_PutWritesExactlyTheMaskedLanes :
    let r := putReq (cfg := Config.cfgB) 0x102#32 (Vector.replicate 4 0x5A#8) 0b1000#4
    busyB.mem.wf = true ∧ r.opcode = .put ∧ r.address.toNat ≤ 0x103 ∧ 0x103 < r.address.toNat + Config.cfgB.W ∧
      r.mask.getLsbD (0x103 - r.address.toNat) = true ∧ ¬ 0x104 < r.address.toNat + Config.cfgB.W := by decide

theorem witness_GetAnswersInNaturalLanes :
    let r := getReq (cfg := Config.cfgB) 0x102#32 1#32
    r.opcode = .get ∧ r.aligned = true ∧ 3 < Config.cfgB.W ∧ laneCovered r 3 = true ∧ laneCovered r 1 = false := by
  decide

theorem witness_StepRunsTheDecodedCommand :
    busyB.regs.phase = .command ∧ busyB.regs.fault = false ∧
      decode Config.cfgB (busyB.offer (encode Config.cfgB (.read 0x100 0))).serialIn =
        .ok (.read 0x100 0, [0x77#8]) := by decide

/-- Both answers of a step: a halted machine and a running one. -/
theorem witness_EveryStepIsTicksUntilSettled : (haltedB []).halted = true ∧ busyB.halted = false := by decide

/-- A machine that waits for the host, and one that waits for the bus. -/
theorem witness_AWaitingMachineHolds :
    (Sys.reset Config.cfgB).regs.fault = false ∧ (Sys.reset Config.cfgB).script = [] ∧
      (Sys.reset Config.cfgB).waiting = true ∧
      ({ Sys.reset Config.cfgB with regs := regsB .readData 0 0 2 0 } : Sys Config.cfgB).waiting = true := by decide

/-- A machine in the middle of a word of a WRITE, with no chunk to take. -/
def midWriteB : Sys Config.cfgB := { Sys.reset Config.cfgB with regs := regsB .writeBody 1 3 3 0b0100#4 }

theorem midWriteB_inv : midWriteB.Inv where
  memWf := rfl
  memInSpace := fun _ h => nomatch h
  faultPhase := fun h => nomatch h
  writePhases := fun _ => rfl
  readPhases := fun h => by rcases h with h | h | h <;> exact nomatch h
  bodyMask := fun _ => ⟨2, by decide, fun i => by
    show (0b0100#4).getLsbD i = (decide (2 ≤ i) && decide (i < 3))
    by_cases h : i < 4
    · exact (by decide : ∀ j < 4, (0b0100#4).getLsbD j = (decide (2 ≤ j) && decide (j < 3))) i h
    · rw [BitVec.getLsbD_of_ge _ _ (Nat.le_of_not_lt h), decide_eq_false (show ¬ i < 3 by omega), Bool.and_false]⟩
  issueMask := fun h => by rcases h with h | h <;> exact nomatch h
  readSlot := fun h => by rcases h with h | h <;> exact nomatch h
  readBodyAligned := fun h => nomatch h

theorem witness_StepKeepsTheInvariant :
    midWriteB.Inv ∧ ∃ t, step ⟨Config.cfgB, midWriteB⟩ = .next ⟨Config.cfgB, t⟩ :=
  ⟨midWriteB_inv, midWriteB.run, if_neg (by decide)⟩

/-- A machine about to issue a Get. -/
def issuingB : Sys Config.cfgB := { Sys.reset Config.cfgB with regs := regsB .readRequest 0 0 2 0 }

theorem witness_OneRequestOutstanding :
    issuingB.OneOutstanding ∧
      transferOf (issuingB.inputs issuingB.envNow) (outputs issuingB.regs) =
        some (.request (getReq issuingB.regs.addr issuingB.regs.len)) ∧
      ∃ t, step ⟨Config.cfgB, issuingB⟩ = .next ⟨Config.cfgB, t⟩ :=
  ⟨⟨rfl, (fun h => nomatch h), (fun h => nomatch h), fun _ _ => rfl⟩, by decide, issuingB.run, if_neg (by decide)⟩

theorem witness_StallsChangeNoValue : busyB.cooperative ∧ busyB.regs.fault = false := ⟨⟨rfl, rfl⟩, rfl⟩

/-- The READs of the greatest address and of the only misaligned Get that this bus answers. -/
theorem witness_ReadCompletes :
    busyB.ready ∧ (Instr.read 0xFFFFFFFF 0).wellFormed Config.cfgB = true ∧
      firstGetAnswered 0xFFFFFFFF 0 busyB ∧ firstGetAnswered 0x101 1 busyB :=
  ⟨busyB_ready, by decide, .inr rfl, .inr rfl⟩

theorem witness_ReadIsTheWholeOperation :
    busyB.calm.ready ∧ busyB.calm.script = [] ∧ (Instr.read 0x103 5).wellFormed Config.cfgB = true ∧
      firstGetAnswered 0x103 5 busyB.calm :=
  ⟨⟨⟨rfl, rfl⟩, rfl, rfl, rfl⟩, rfl, by decide, .inl (by decide)⟩

theorem witness_UnansweredReadWaits :
    ({ busyB with answersMisaligned := false } : Sys Config.cfgB).ready ∧
      (Instr.read 0x101 1).wellFormed Config.cfgB = true ∧ (firstGet Config.cfgB 0x101 1).aligned = false ∧
      ({ busyB with answersMisaligned := false } : Sys Config.cfgB).answersMisaligned = false :=
  ⟨⟨⟨rfl, rfl⟩, rfl, rfl, rfl⟩, by decide, by decide, rfl⟩

theorem witness_ReadEmitsTheBytesOfMemory :
    busyB.ready ∧ (Instr.read 0xFFFFFFFF 3).wellFormed Config.cfgB = true ∧ chunkAligned Config.cfgB 0xFFFFFFFF ∧
      (firstGet Config.cfgB 0xFFFFFFFF 3).aligned = true :=
  ⟨busyB_ready, by decide, rfl, by decide⟩

theorem witness_ReadIssuesOneGetPerWord :
    busyB.ready ∧ (Instr.read 0x103 8).wellFormed Config.cfgB = true ∧ firstGetAnswered 0x103 8 busyB :=
  ⟨busyB_ready, by decide, .inr rfl⟩

/-- Both clauses about `body`: with the start slot 3 and two chunks, slot 1 is not stored to, and slot 0 holds the
chunk 1 that was stored last in it. -/
theorem witness_WriteCompletes :
    busyB.ready ∧ (Instr.write 0xFFFFFFFF 1 [1, 2]).wellFormed Config.cfgB = true ∧
      (∀ j, j ≤ 1 → (startSlot Config.cfgB 0xFFFFFFFF + j) % Config.cfgB.N ≠ 1) ∧ 1 < 1 + Config.cfgB.N ∧
      (startSlot Config.cfgB 0xFFFFFFFF + 1) % Config.cfgB.N = 0 :=
  ⟨busyB_ready, by decide, by decide, by decide, by decide⟩

theorem witness_WriteIsTheWholeOperation :
    busyB.calm.ready ∧ busyB.calm.script = [] ∧ (Instr.write 0x103 1 [1, 2]).wellFormed Config.cfgB = true :=
  ⟨⟨⟨rfl, rfl⟩, rfl, rfl, rfl⟩, rfl, by decide⟩

theorem witness_WriteStoresTheChunks :
    busyB.ready ∧ (Instr.write 0xFFFFFFFF 1 [1, 2]).wellFormed Config.cfgB = true := ⟨busyB_ready, by decide⟩

/-- The stored bytes are `0xFFFF` and `0x0000`; the addresses next to them are outside. -/
theorem witness_WriteLeavesOtherBytesAlone :
    busyB.ready ∧ busyB.mem.wf = true ∧ (Instr.write 0xFFFFFFFF 1 [1, 2]).wellFormed Config.cfgB = true ∧
      (∃ t, exec (.write 0xFFFFFFFF 1 [1, 2]) ⟨Config.cfgB, busyB⟩ = .next ⟨Config.cfgB, t⟩) ∧
      (∀ j, j ≤ 1 → ∀ b, b < Config.cfgB.c →
        0xFFFE ≠ (0xFFFFFFFF - 0xFFFFFFFF % Config.cfgB.c + j * Config.cfgB.c + b) % 2 ^ Config.cfgB.addrBits) ∧
      (∀ j, j ≤ 1 → ∀ b, b < Config.cfgB.c →
        1 ≠ (0xFFFFFFFF - 0xFFFFFFFF % Config.cfgB.c + j * Config.cfgB.c + b) % 2 ^ Config.cfgB.addrBits) :=
  ⟨busyB_ready, by decide, by decide, ⟨_, show runState (busyB.offer (encodeWrite Config.cfgB 0xFFFFFFFF 1 [1, 2])) = _ from
    if_neg (by decide)⟩, by decide, by decide⟩

/-- The first and the last slot of the one Put of a whole word. -/
theorem witness_WriteIssuesOnePutPerWord :
    busyB.ready ∧ (Instr.write 0x100 3 [1, 2, 3, 4]).wellFormed Config.cfgB = true ∧
      0 < slotCount Config.cfgB 0x100 3 0 ∧ 3 < slotCount Config.cfgB 0x100 3 0 :=
  ⟨busyB_ready, by decide, by decide, by decide⟩

theorem witness_WrittenDataIsReadBack :
    busyB.ready ∧ busyB.mem.wf = true ∧ (Instr.write 0x103 1 [1, 2]).wellFormed Config.cfgB = true ∧
      chunkAligned Config.cfgB 0x103 ∧ (firstGet Config.cfgB 0x103 1).aligned = true ∧
      fitsAddressSpace Config.cfgB 1 :=
  ⟨busyB_ready, by decide, by decide, rfl, by decide, (by decide : (1 + 1) * Config.cfgB.c ≤ 2 ^ Config.cfgB.addrBits)⟩

/-- Both clauses, on registers that differ from the machine's own in every field. -/
theorem witness_OnlyStaleSlotsCarryOver :
    busyB.ready ∧ (regsB .command 7 9 3 0b1111#4).phase = .command ∧ (regsB .command 7 9 3 0b1111#4).fault = false ∧
      (Instr.read 0x103 1).wellFormed Config.cfgB = true ∧ firstGetAnswered 0x103 1 busyB ∧
      (Instr.write 0x103 1 [1, 2]).wellFormed Config.cfgB = true :=
  ⟨busyB_ready, rfl, rfl, by decide, .inr rfl, by decide⟩

theorem witness_BadCommandFrameHalts :
    let s : Sys Config.cfgB := busyB.offer (encodeHeader Config.cfgB 2 0xFFFFFFFF 0)
    s.ready ∧ 2 < 2 ^ Config.cfgB.w ∧ 0xFF < 2 ^ Config.cfgB.w ∧ 0xFFFFFFFF < 2 ^ Config.cfgB.wordBits ∧
      0 < 2 ^ Config.cfgB.wordBits ∧ s.serialIn = encodeHeader Config.cfgB 2 0xFFFFFFFF 0 ++ [0x77#_] :=
  ⟨⟨⟨rfl, rfl⟩, rfl, rfl, rfl⟩, by decide, by decide, by decide, by decide, rfl⟩

/-- Both clauses: a stalled tick and no reset, and a reset at once. -/
theorem witness_OnlyResetLeavesTheHalt :
    (haltedB [⟨false, Offers.all⟩]).regs.fault = true ∧ (haltedB [⟨false, Offers.all⟩]).regs.phase = .length ∧
      (haltedB [⟨false, Offers.all⟩]).noReset ∧
      (haltedB [⟨true, Offers.all⟩]).script = ⟨true, Offers.all⟩ :: [] := ⟨rfl, rfl, rfl, rfl⟩

/-- A reset in WriteAck, the acknowledgement not offered in that tick. -/
theorem witness_ResetForgetsTheOutstandingRequest :
    let o : Offers := ⟨true, true, true, false⟩
    let s : Sys Config.cfgB :=
      { busyB with regs := regsB .writeAck 1 0 3 8, responses := [0#32], script := [⟨true, o⟩] }
    s.script = ⟨true, o⟩ :: [] ∧ o.busResp = false ∧ s.regs.phase.presentsRequest = false := ⟨rfl, rfl, rfl⟩

theorem witness_PlacedInstructionRunsNext :
    decode Config.cfgA (tableChunks Config.cfgA 32 0) = .ok (.read 0 0, []) ∧
      decode Config.cfgA (tableChunks Config.cfgA 32 1) = .ok (.write 0 0 [0], []) := by decide

end Sys2Proof.Tests
end

