-- ==== Sys2Proof/Proofs/Constants.lean ====
section
/-! Proofs/Constants.lean: the three bit counts of R7 as differences of the exponents of the parameters, and as
exact logarithms of `W`, `c` and `N`. -/

namespace Sys2Proof.Config

theorem offBits_eq (cfg : Config) : cfg.offBits = Nat.log2 cfg.wordBits - 3 := by
  rw [offBits, W_eq_pow, Nat.log2_two_pow]

theorem cOffBits_eq (cfg : Config) : cfg.cOffBits = Nat.log2 cfg.w - 3 := by
  rw [cOffBits, c_eq_pow, Nat.log2_two_pow]

theorem idxBits_eq (cfg : Config) : cfg.idxBits = Nat.log2 cfg.wordBits - Nat.log2 cfg.w := by
  rw [idxBits, N_eq_pow, Nat.log2_two_pow]

theorem two_pow_offBits (cfg : Config) : 2 ^ cfg.offBits = cfg.W := by
  rw [offBits_eq, W_eq_pow]

theorem two_pow_cOffBits (cfg : Config) : 2 ^ cfg.cOffBits = cfg.c := by
  rw [cOffBits_eq, c_eq_pow]

theorem two_pow_idxBits (cfg : Config) : 2 ^ cfg.idxBits = cfg.N := by
  rw [idxBits_eq, N_eq_pow]

/-- The byte offset inside a word is the slot number followed by the byte offset inside the chunk. -/
theorem offBits_eq_idxBits_add_cOffBits (cfg : Config) : cfg.offBits = cfg.idxBits + cfg.cOffBits := by
  have hc : 3 ≤ Nat.log2 cfg.w := cfg.three_le_log2_w
  have hN : Nat.log2 cfg.w ≤ Nat.log2 cfg.wordBits := cfg.log2_w_le
  rw [offBits_eq, idxBits_eq, cOffBits_eq]
  omega

/-- The constraint of R8 on the address width, in the words of R7. -/
theorem offBits_le_addrBits (cfg : Config) : cfg.offBits ≤ cfg.addrBits := by
  obtain ⟨-, -, -, -, -, h, -⟩ := cfg.check_parts
  exact h

end Sys2Proof.Config

/-- Settles O2: every constant of R7 is a power of two, its exponent the difference of the parameters' exponents. -/
theorem derivedConstantsAreExact : Obligations.DerivedConstantsAreExact := fun cfg =>
  ⟨rfl, cfg.N_mul_c.symm, cfg.eight_mul_c, cfg.eight_mul_W, cfg.two_pow_offBits, cfg.two_pow_cOffBits,
    cfg.two_pow_idxBits, cfg.offBits_eq_idxBits_add_cOffBits, cfg.offBits_le_addrBits⟩
end

section
/-! Proofs/Reset.lean: a tick in which reset is asserted, for every value of the registers and the other inputs. -/

namespace Sys2Proof.Machine

/-- R260: reset comes before the halt and before every phase. -/
theorem coreStep_of_reset {cfg : Config} {I : Inputs cfg} (h : I.reset = true) (S : Regs cfg) :
    coreStep I S = Regs.reset cfg := by
  rw [coreStep_eq, if_pos h]

end Sys2Proof.Machine

open Sys2Proof.Machine in
/-- Settles O10: a tick with reset gives `Regs.reset`, and each of its registers has the value of R33. -/
theorem resetTickGivesResetValues : Obligations.ResetTickGivesResetValues := by
  intro cfg I S h
  rw [coreStep_of_reset h S]
  exact ⟨reset_phase, reset_cmd, reset_addr, reset_len, fun i => reset_body i i.isLt, reset_valid, rfl, reset_fault⟩
end

section
/-! Proofs/PseudoForms.lean: the chunks of a field one by one (R94), and the expansion of each pseudo-form of R93 under
its condition. -/

namespace Sys2Proof

variable {cfg : Config}

@[simp] theorem toNat_chunkOf (v i : Nat) : (chunkOf cfg v i).toNat = v / 2 ^ (i * cfg.w) % 2 ^ cfg.w :=
  BitVec.toNat_ofNat _ _

theorem getElem?_fieldChunks (v : Nat) {i : Nat} (hi : i < cfg.N) :
    (fieldChunks cfg v)[i]? = some (chunkOf cfg v i) := by
  rw [fieldChunks, List.getElem?_map, List.getElem?_range hi, Option.map_some]

theorem pseudoReadB_eq_some {address nbytes : Nat} (hpos : 0 < nbytes) (hc : nbytes % cfg.c = 0) :
    pseudoReadB cfg address nbytes = some (.read address (nbytes / cfg.c - 1)) :=
  if_pos ⟨hpos, hc⟩

theorem pseudoWriteB_eq_some {address nbytes : Nat} {data : List Nat} (hpos : 0 < nbytes) (hc : nbytes % cfg.c = 0)
    (hd : data.length = nbytes / cfg.c) :
    pseudoWriteB cfg address nbytes data = some (.write address (nbytes / cfg.c - 1) data) :=
  if_pos ⟨hpos, hc, hd⟩

theorem pseudoReadW_eq_some {address : Nat} (ha : address % cfg.W = 0) :
    pseudoReadW cfg address = some (.read address (cfg.N - 1)) :=
  if_pos ha

theorem pseudoWriteW_eq_some {address : Nat} (word : Nat) (ha : address % cfg.W = 0) :
    pseudoWriteW cfg address word = some (.write address (cfg.N - 1) ((fieldChunks cfg word).map BitVec.toNat)) :=
  if_pos ha

end Sys2Proof

open Sys2Proof Sys2Proof.Machine in
/-- Settles O9: each pseudo-form takes the branch of its condition, and data chunk `k` of `WRITEW` is chunk `k` of the
word. -/
theorem pseudoFormsExpand : Obligations.PseudoFormsExpand := by
  intro cfg address word nbytes data
  refine ⟨fun ha => ⟨pseudoReadW_eq_some ha, _, pseudoWriteW_eq_some word ha, ?_, fun k hk => ?_⟩, fun hpos hc =>
    ⟨pseudoReadB_eq_some hpos hc, pseudoWriteB_eq_some hpos hc⟩⟩
  · rw [List.length_map, length_fieldChunks]
  · rw [List.getElem?_map, getElem?_fieldChunks word hk, Option.map_some, toNat_chunkOf]
end

section
/-! Proofs/Reassembler.lean: the chunk reassembler tick by tick (R130 to R134): what a tick of a phase that takes
chunks does, and the branches of phases Address and Length with the registers they write. -/

namespace Sys2Proof.Machine

variable {cfg : Config}

/-- R245, R220: without reset and without the halt a tick is the transition of its phase. -/
theorem coreStep_of_running {I : Inputs cfg} {S : Regs cfg} (hr : I.reset = false) (hf : S.fault = false) :
    coreStep I S = phaseStep I S := by
  simp [coreStep, hr, hf]

/-- R214: a phase that takes chunks moves on a chunk and holds without one (R136). -/
theorem phaseStep_of_takesChunk (I : Inputs cfg) {S : Regs cfg} (hp : S.phase.takesChunk = true) :
    phaseStep I S = if I.serialInValid then onChunk I.serialInBits S else S := by
  unfold phaseStep onChunk
  cases hphase : S.phase with
  | command | address | length | writeBody => rfl
  | writeIssue | writeAck | readRequest | readData | readBody => simp [hphase, Phase.takesChunk] at hp

/-- A tick in which `serial_in` fires is the phase's transition on the chunk. -/
theorem coreStep_of_chunk {I : Inputs cfg} {S : Regs cfg} (hr : I.reset = false) (hv : I.serialInValid = true)
    (hf : S.fault = false) (hp : S.phase.takesChunk = true) : coreStep I S = onChunk I.serialInBits S := by
  rw [coreStep_of_running hr hf, phaseStep_of_takesChunk I hp, if_pos hv]

theorem onChunk_of_command (x : BitVec cfg.w) {S : Regs cfg} (hp : S.phase = .command) :
    onChunk x S = onCommand x S := by
  simp only [onChunk, hp]

theorem coreStep_of_address {I : Inputs cfg} {S : Regs cfg} (hr : I.reset = false) (hv : I.serialInValid = true)
    (hf : S.fault = false) (hp : S.phase = .address) : coreStep I S = onAddress I.serialInBits S := by
  rw [coreStep_of_chunk hr hv hf (by rw [hp]; rfl)]
  simp only [onChunk, hp]

theorem coreStep_of_length {I : Inputs cfg} {S : Regs cfg} (hr : I.reset = false) (hv : I.serialInValid = true)
    (hf : S.fault = false) (hp : S.phase = .length) : coreStep I S = onLength I.serialInBits S := by
  rw [coreStep_of_chunk hr hv hf (by rw [hp]; rfl)]
  simp only [onChunk, hp]

theorem onAddress_of_last (x : BitVec cfg.w) {S : Regs cfg} (h : isLastSlot S.idx = true) :
    onAddress x S =
      { S with addr := S.addr ||| shiftChunk x S.idx.val, idx := slotZero cfg, phase := .length } := by
  rw [onAddress, if_pos h]

theorem onAddress_of_not_last (x : BitVec cfg.w) {S : Regs cfg} (h : isLastSlot S.idx = false) :
    onAddress x S = { S with addr := S.addr ||| shiftChunk x S.idx.val, idx := nextSlot S.idx } := by
  rw [onAddress, if_neg (by simp [h])]

theorem dispatchCommand_of_write {S : Regs cfg} (h : S.cmd.toNat = writeCode) :
    dispatchCommand S = { S with valid := emptyMask cfg, phase := .writeBody } :=
  if_pos h

theorem dispatchCommand_of_read {S : Regs cfg} (h : S.cmd.toNat = readCode) :
    dispatchCommand S = { S with phase := .readRequest } := by
  rw [dispatchCommand, if_neg (by rw [h]; decide), if_pos h]

theorem dispatchCommand_of_unrecognised {S : Regs cfg} (hr : S.cmd.toNat ≠ readCode) (hw : S.cmd.toNat ≠ writeCode) :
    dispatchCommand S = raiseBadCommand S := by
  rw [dispatchCommand, if_neg hw, if_neg hr]

end Sys2Proof.Machine

open Sys2Proof Sys2Proof.Machine

/-- Settles O16: the last chunk of phase Length completes the field, and each code takes its branch of the dispatch. -/
theorem lengthCompletionDispatches : Obligations.LengthCompletionDispatches := by
  intro cfg I S hr hf hp hv hlast
  rw [coreStep_of_length hr hv hf hp, onLength_of_last _ _ (decide_eq_true hlast)]
  exact ⟨fun hw => dispatchCommand_of_write hw, fun hrd => dispatchCommand_of_read hrd,
    fun hrd hw => dispatchCommand_of_unrecognised hrd hw⟩

/-- Settles O13: phase Command moves on a chunk by `onCommand`, and holds without one. -/
theorem commandPhaseCapturesTheChunk : Obligations.CommandPhaseCapturesTheChunk := by
  intro cfg I S hr hf hp
  rw [coreStep_of_running hr hf, phaseStep_of_takesChunk I (by rw [hp]; rfl), onChunk_of_command _ hp]
  rfl

/-- Settles O14: the two branches of `onAddress`, by whether the cursor is at the last slot. -/
theorem addressPhaseAccumulates : Obligations.AddressPhaseAccumulates := by
  intro cfg I S hr hf hp hv
  rw [coreStep_of_address hr hv hf hp]
  refine ⟨fun hlast => onAddress_of_last _ (decide_eq_true hlast), fun hmore => ?_⟩
  have hnot : isLastSlot S.idx = false := decide_eq_false hmore
  rw [onAddress_of_not_last _ hnot]
  exact ⟨nextSlot_val _ hnot, rfl⟩

/-- Settles O15: the branch of `onLength` in which chunks of the field are to come. -/
theorem lengthPhaseAccumulates : Obligations.LengthPhaseAccumulates := by
  intro cfg I S hr hf hp hv hmore
  have hnot : isLastSlot S.idx = false := decide_eq_false hmore
  rw [coreStep_of_length hr hv hf hp, onLength_of_not_last _ _ hnot]
  exact ⟨nextSlot_val _ hnot, rfl⟩
end

section
/-! Proofs/ShiftChunk.lean: a chunk in its lane as a number (R135). -/

namespace Sys2Proof.Machine

variable {cfg : Config}

/-- R135: lane `i` ends inside the word, `(i+1)*w ≤ N*w = wordBits`. -/
theorem lane_end_le {i : Nat} (hi : i < cfg.N) : cfg.w + i * cfg.w ≤ cfg.wordBits := by
  rw [Nat.add_comm, ← Nat.succ_mul, ← cfg.N_mul_w]
  exact Nat.mul_le_mul_right _ hi

theorem toNat_mul_lane_lt (x : BitVec cfg.w) {i : Nat} (hi : i < cfg.N) :
    x.toNat * 2 ^ (i * cfg.w) < 2 ^ cfg.wordBits :=
  calc x.toNat * 2 ^ (i * cfg.w)
      < 2 ^ cfg.w * 2 ^ (i * cfg.w) := Nat.mul_lt_mul_of_pos_right x.isLt (Nat.two_pow_pos _)
    _ = 2 ^ (cfg.w + i * cfg.w) := (Nat.pow_add ..).symm
    _ ≤ 2 ^ cfg.wordBits := Nat.pow_le_pow_right Nat.two_pos (lane_end_le hi)

end Sys2Proof.Machine

open Sys2Proof Sys2Proof.Machine in
/-- Settles O27: neither the widening of the chunk nor the shift of its lane reaches bit `wordBits`. -/
theorem shiftChunkLosesNoBits : Obligations.ShiftChunkLosesNoBits := by
  intro cfg x i
  rw [shiftChunk, BitVec.toNat_shiftLeft, BitVec.toNat_setWidth_of_le cfg.w_le_wordBits, Nat.shiftLeft_eq,
    Nat.mod_eq_of_lt (toNat_mul_lane_lt x i.isLt)]
end

section
/-! Proofs/HeaderFields.lean: the `1 + 2N` ticks of a header (R137). A field's `N` ticks are followed through the
registers after each of its chunks; phases Address and Length differ only in those registers. -/

namespace Sys2Proof.Machine

variable {cfg : Config}

/-- The registers after `i` of the `N` chunks of the address `A` have been taken (R131). -/
def addressRegs (A : Nat) (S : Regs cfg) (i : Nat) : Regs cfg :=
  if h : i < cfg.N then { S with addr := partialField cfg A i, idx := ⟨i, h⟩, phase := .address }
  else { S with addr := BitVec.ofNat cfg.wordBits A, idx := slotZero cfg, phase := .length }

/-- The registers after `i` of the `N` chunks of the length `L` have been taken (R133, R134). -/
def lengthRegs (L : Nat) (S : Regs cfg) (i : Nat) : Regs cfg :=
  if h : i < cfg.N then { S with len := partialField cfg L i, idx := ⟨i, h⟩, phase := .length }
  else dispatched L S

theorem addressRegs_of_lt (A : Nat) (S : Regs cfg) {i : Nat} (h : i < cfg.N) :
    addressRegs A S i = { S with addr := partialField cfg A i, idx := ⟨i, h⟩, phase := .address } :=
  dif_pos h

theorem addressRegs_all (A : Nat) (S : Regs cfg) :
    addressRegs A S cfg.N =
      { S with addr := BitVec.ofNat cfg.wordBits A, idx := slotZero cfg, phase := .length } :=
  dif_neg (Nat.lt_irrefl _)

theorem lengthRegs_of_lt (L : Nat) (S : Regs cfg) {i : Nat} (h : i < cfg.N) :
    lengthRegs L S i = { S with len := partialField cfg L i, idx := ⟨i, h⟩, phase := .length } :=
  dif_pos h

theorem lengthRegs_all (L : Nat) (S : Regs cfg) : lengthRegs L S cfg.N = dispatched L S :=
  dif_neg (Nat.lt_irrefl _)

/-- The last chunk of a number completes its field register. -/
theorem partialField_last {i : Nat} (v : Nat) (h : i + 1 = cfg.N) :
    partialField cfg v i ||| shiftChunk (chunkOf cfg v i) i = BitVec.ofNat cfg.wordBits v := by
  rw [partialField_succ, h, partialField_all]

theorem nextSlot_mk {i : Nat} (h : i < cfg.N) (h' : i + 1 < cfg.N) : nextSlot (⟨i, h⟩ : Fin cfg.N) = ⟨i + 1, h'⟩ :=
  Fin.ext (nextSlot_val _ ((not_isLastSlot_iff _).2 h'))

/-- R131: a tick of phase Address takes the next chunk of the address. -/
theorem coreStep_addressRegs {A i : Nat} {S : Regs cfg} (hf : S.fault = false) (hi : i < cfg.N) {I : Inputs cfg}
    (hI : I.reset = false ∧ I.serialInValid = true) (hx : I.serialInBits = chunkOf cfg A i) :
    coreStep I (addressRegs A S i) = addressRegs A S (i + 1) := by
  obtain ⟨hr, hv⟩ := hI
  rw [addressRegs_of_lt A S hi]
  refine Eq.trans (coreStep_of_address hr hv hf rfl) ?_
  rw [hx]
  by_cases hlast : i + 1 = cfg.N
  · rw [onAddress_of_last _ ((isLastSlot_iff _).2 hlast), hlast, addressRegs_all]
    simp only [partialField_last A hlast]
  · have hmore : i + 1 < cfg.N := by omega
    rw [onAddress_of_not_last _ ((not_isLastSlot_iff _).2 hmore), addressRegs_of_lt A S hmore]
    simp only [partialField_succ, nextSlot_mk hi hmore]

/-- R133, R134: a tick of phase Length takes the next chunk of the length; the last one dispatches. -/
theorem coreStep_lengthRegs {L i : Nat} {S : Regs cfg} (hf : S.fault = false) (hi : i < cfg.N) {I : Inputs cfg}
    (hI : I.reset = false ∧ I.serialInValid = true) (hx : I.serialInBits = chunkOf cfg L i) :
    coreStep I (lengthRegs L S i) = lengthRegs L S (i + 1) := by
  obtain ⟨hr, hv⟩ := hI
  rw [lengthRegs_of_lt L S hi]
  refine Eq.trans (coreStep_of_length hr hv hf rfl) ?_
  rw [hx]
  by_cases hlast : i + 1 = cfg.N
  · rw [onLength_of_last _ _ ((isLastSlot_iff _).2 hlast), hlast, lengthRegs_all, dispatched]
    simp only [partialField_last L hlast]
  · have hmore : i + 1 < cfg.N := by omega
    rw [onLength_of_not_last _ _ ((not_isLastSlot_iff _).2 hmore), lengthRegs_of_lt L S hmore]
    simp only [partialField_succ, nextSlot_mk hi hmore]

/-- The ticks that bring the first `n` chunks of the number `v`, when each takes the registers `R i` to `R (i + 1)`. -/
theorem foldl_coreStep_chunks {v n : Nat} {R : Nat → Regs cfg} {ticks : List (Inputs cfg)}
    (hstep : ∀ i < n, ∀ I : Inputs cfg, I.reset = false ∧ I.serialInValid = true →
      I.serialInBits = chunkOf cfg v i → coreStep I (R i) = R (i + 1))
    (hbits : ticks.map (·.serialInBits) = (List.range n).map (chunkOf cfg v))
    (hacc : ∀ I ∈ ticks, I.reset = false ∧ I.serialInValid = true) :
    ticks.foldl (fun S I => coreStep I S) (R 0) = R n := by
  induction n generalizing ticks with
  | zero =>
    rw [List.range_zero, List.map_nil, List.map_eq_nil_iff] at hbits
    rw [hbits, List.foldl_nil]
  | succ n ih =>
    rw [List.range_succ, List.map_append, List.map_eq_append_iff] at hbits
    obtain ⟨init, last, rfl, hinit, hlast⟩ := hbits
    obtain ⟨I, rfl, hI⟩ := List.map_eq_singleton_iff.1 hlast
    rw [List.foldl_append, ih (fun i hi => hstep i (by omega)) hinit (fun J hJ => hacc J (by simp [hJ])),
      List.foldl_cons, List.foldl_nil, hstep n (Nat.lt_succ_self n) I (hacc I (by simp)) hI]

/-- Phase Command leaves the registers as they are before the first address chunk (R130). -/
theorem addressRegs_onCommand (A : Nat) (x : BitVec cfg.w) (S : Regs cfg) :
    addressRegs A (onCommand x S) 0 = onCommand x S := by
  rw [addressRegs_of_lt A _ cfg.N_pos, partialField_zero]
  rfl

/-- Phase Address leaves cursor and length as they are before the first length chunk (R132). -/
theorem lengthRegs_addressRegs (A L : Nat) (x : BitVec cfg.w) (S : Regs cfg) :
    lengthRegs L (addressRegs A (onCommand x S) cfg.N) 0 = addressRegs A (onCommand x S) cfg.N := by
  rw [addressRegs_all, lengthRegs_of_lt L _ cfg.N_pos, partialField_zero]
  rfl

/-- R137: the ticks of a header assemble the three fields and dispatch on the command. -/
theorem foldl_coreStep_header {code A L : Nat} {S : Regs cfg} {ticks : List (Inputs cfg)} (hp : S.phase = .command)
    (hf : S.fault = false) (hbits : ticks.map (·.serialInBits) = encodeHeader cfg code A L)
    (hacc : ∀ I ∈ ticks, I.reset = false ∧ I.serialInValid = true) :
    ticks.foldl (fun S I => coreStep I S) S =
      dispatched L { S with cmd := BitVec.ofNat cfg.w code, addr := BitVec.ofNat cfg.wordBits A } := by
  obtain ⟨I, fields, rfl, hcode, hfields⟩ := List.map_eq_cons_iff.1 hbits
  obtain ⟨as, ls, rfl, has, hls⟩ := List.map_eq_append_iff.1 hfields
  obtain ⟨hr, hv⟩ := hacc I (by simp)
  have hcommand : coreStep I S = onCommand (BitVec.ofNat cfg.w code) S := by
    rw [coreStep_of_chunk hr hv hf (by rw [hp]; rfl), onChunk_of_command _ hp, hcode]
  have hfA : (onCommand (BitVec.ofNat cfg.w code) S).fault = false := hf
  have hfL : (addressRegs A (onCommand (BitVec.ofNat cfg.w code) S) cfg.N).fault = false := by
    rw [addressRegs_all]; exact hf
  have haddress := foldl_coreStep_chunks (fun _ hi _ => coreStep_addressRegs hfA hi) has
    (fun J hJ => hacc J (by simp [hJ]))
  have hlength := foldl_coreStep_chunks (fun _ hi _ => coreStep_lengthRegs hfL hi) hls
    (fun J hJ => hacc J (by simp [hJ]))
  rw [addressRegs_onCommand] at haddress
  rw [lengthRegs_addressRegs] at hlength
  rw [List.foldl_cons, List.foldl_append, hcommand, haddress, hlength, lengthRegs_all, addressRegs_all]
  rfl

end Sys2Proof.Machine

open Sys2Proof Sys2Proof.Machine in
/-- Settles O26: the fields are the numbers sent, because each fits its register, and what depends on the command is
read off the dispatch. -/
theorem headerAssemblesTheFields : Obligations.HeaderAssemblesTheFields := by
  intro cfg S code address len ticks hp hf hcode haddress hlen hbits hacc T
  have hT : T = dispatched len _ := foldl_coreStep_header hp hf hbits hacc
  rw [hT, dispatched]
  simp only [dispatchCommand_cmd, dispatchCommand_addr, dispatchCommand_len, dispatchCommand_idx, dispatchCommand_body,
    dispatchCommand_valid, dispatchCommand_fault, dispatchCommand_phase, BitVec.toNat_ofNat, Nat.mod_eq_of_lt hcode,
    Nat.mod_eq_of_lt haddress, Nat.mod_eq_of_lt hlen, hf, writeCode, readCode, emptyMask, true_and, and_true]
  by_cases hw : code = 1
  · simp [hw]
  · by_cases hr : code = 0
    · simp [hr]
    · simp [hw, hr]
end

section
/-! Proofs/AddressHelpers.lean: the address helpers of spec/42_request_builder.md section 1 as numbers (R150 to R153).
Both widths hold whole words, so a multiple of `W` stays one when it is truncated. -/

namespace Sys2Proof.Config

/-- R152: the slot number is the bits of the byte offset above the offset inside the chunk. -/
theorem offBits_sub_cOffBits (cfg : Config) : cfg.offBits - cfg.cOffBits = cfg.idxBits := by
  rw [offBits_eq_idxBits_add_cOffBits, Nat.add_sub_cancel]

end Sys2Proof.Config

namespace Sys2Proof.Machine

variable {cfg : Config} (a : BitVec cfg.wordBits)

@[simp] theorem toNat_busAddr : (busAddr a).toNat = a.toNat % 2 ^ cfg.addrBits := BitVec.toNat_setWidth ..

@[simp] theorem toNat_wordStart : (wordStart a).toNat = a.toNat - a.toNat % cfg.W := by
  rw [wordStart, BitVec.toNat_ofNat, Nat.mod_eq_of_lt (Nat.lt_of_le_of_lt (Nat.sub_le ..) a.isLt)]

@[simp] theorem toNat_nextAddr :
    (nextAddr a).toNat = (a.toNat - a.toNat % cfg.W + cfg.W) % 2 ^ cfg.wordBits := BitVec.toNat_ofNat ..

@[simp] theorem toNat_wordBase : (wordBase a).toNat = (a.toNat - a.toNat % cfg.W) % 2 ^ cfg.addrBits := by
  rw [wordBase, toNat_busAddr, toNat_wordStart]

/-- R151: the next address is word-aligned, the wrap at `2^wordBits` included. -/
theorem nextAddr_mod_W : (nextAddr a).toNat % cfg.W = 0 := by
  rw [toNat_nextAddr, Nat.mod_mod_of_dvd _ cfg.W_dvd_two_pow_wordBits, Nat.add_mod_right]
  exact Nat.mod_eq_zero_of_dvd (Nat.dvd_sub_mod _)

/-- R153: the base of a word has its low `offBits` bits zero. -/
theorem wordBase_mod_W : (wordBase a).toNat % cfg.W = 0 := by
  rw [toNat_wordBase, Nat.mod_mod_of_dvd _ cfg.W_dvd_two_pow_addrBits]
  exact Nat.mod_eq_zero_of_dvd (Nat.dvd_sub_mod _)

theorem val_slotOf : (slotOf a).val = a.toNat % cfg.W / cfg.c := rfl

/-- R152: `a[offBits-1:cOffBits]`, because `W = c * N` and all three are powers of two. -/
theorem val_slotOf_eq_extractLsb' :
    (slotOf a).val = (a.extractLsb' cfg.cOffBits (cfg.offBits - cfg.cOffBits)).toNat := by
  rw [BitVec.extractLsb'_toNat, Nat.shiftRight_eq_div_pow, cfg.offBits_sub_cOffBits, cfg.two_pow_idxBits,
    cfg.two_pow_cOffBits, val_slotOf, ← cfg.N_mul_c, Nat.mul_comm, Nat.mod_mul_right_div_self]

end Sys2Proof.Machine

open Sys2Proof Sys2Proof.Machine in
/-- Settles O28: each helper is a truncation of a number, and truncation to whole words keeps a multiple of `W`. -/
theorem addressHelpersCompute : Obligations.AddressHelpersCompute := fun _ a =>
  ⟨toNat_busAddr a, toNat_nextAddr a, nextAddr_mod_W a, toNat_wordBase a, wordBase_mod_W a⟩

open Sys2Proof Sys2Proof.Machine in
/-- Settles O29: the quotient is the bit field, and with one slot the only slot is slot 0. -/
theorem slotOfIsTheOffsetField : Obligations.SlotOfIsTheOffsetField := fun _ a =>
  ⟨val_slotOf a, val_slotOf_eq_extractLsb' a, fun hN => Nat.lt_one_iff.1 (hN ▸ (slotOf a).isLt)⟩
end

section
/-! Proofs/Requests.lean: the two requests of spec/42_request_builder.md sections 2 and 3 (R154 to R157): the byte
lanes of a slot, the bounds of the raw size, and the Get on each side of its test. -/

namespace Sys2Proof.Machine

variable {cfg : Config}

/-- Byte lane `b` of slot `i` is lane `i*c + b` of the word. -/
theorem byteLane_div {i b : Nat} (hb : b < cfg.c) : (i * cfg.c + b) / cfg.c = i := by
  rw [Nat.mul_comm, Nat.mul_add_div cfg.c_pos, Nat.div_eq_of_lt hb, Nat.add_zero]

theorem byteLane_lt {i b : Nat} (hi : i < cfg.N) (hb : b < cfg.c) : i * cfg.c + b < cfg.W :=
  calc i * cfg.c + b
      < (i + 1) * cfg.c := by rw [Nat.succ_mul]; exact Nat.add_lt_add_left hb _
    _ ≤ cfg.N * cfg.c := Nat.mul_le_mul_right _ hi
    _ = cfg.W := cfg.N_mul_c

/-- R155: every byte lane of slot `i` has the slot's validity bit. -/
theorem expandMask_getLsbD_byteLane (valid : BitVec cfg.N) {i b : Nat} (hi : i < cfg.N) (hb : b < cfg.c) :
    (expandMask valid).getLsbD (i * cfg.c + b) = valid.getLsbD i := by
  rw [expandMask_getLsbD, byteLane_div hb, decide_eq_true (byteLane_lt hi hb), Bool.true_and]

theorem one_le_wordDistance (addr : BitVec cfg.wordBits) : 1 ≤ wordDistance addr :=
  Nat.sub_pos_of_lt (Nat.mod_lt _ cfg.W_pos)

/-- R156: the Get never asks for more than the rest of a word. -/
theorem rawSize_le_W (addr len : BitVec cfg.wordBits) : rawSize addr len ≤ cfg.W :=
  Nat.le_trans (Nat.min_le_left ..) (Nat.sub_le ..)

/-- R156: `remaining + 1` does not wrap (the variant of U10 apart). -/
theorem lenBytes_of_not_wraps (h : cfg.lenBytesWraps = false) (len : BitVec cfg.wordBits) :
    lenBytes len = (len.toNat + 1) * cfg.c := by
  simp [lenBytes, chunksWanted, h]

theorem rawSize_of_not_wraps (h : cfg.lenBytesWraps = false) (addr len : BitVec cfg.wordBits) :
    rawSize addr len = min (cfg.W - addr.toNat % cfg.W) ((len.toNat + 1) * cfg.c) := by
  rw [rawSize, lenBytes_of_not_wraps h]
  rfl

theorem one_le_rawSize (h : cfg.lenBytesWraps = false) (addr len : BitVec cfg.wordBits) : 1 ≤ rawSize addr len := by
  refine Nat.le_min.2 ⟨one_le_wordDistance addr, ?_⟩
  rw [lenBytes_of_not_wraps h]
  exact Nat.mul_pos (Nat.succ_pos _) cfg.c_pos

/-- R157: a raw size that is a power of two is asked for at the true address. -/
theorem getReq_of_isPow2 {addr len : BitVec cfg.wordBits} (h : isPow2 (rawSize addr len) = true) :
    getReq addr len = ⟨.get, busAddr addr, rawSize addr len, 0#_, 0#_⟩ := by
  rw [getReq, if_pos h, if_pos h]

/-- R157: any other raw size falls back to the whole word at its base. -/
theorem getReq_of_not_isPow2 {addr len : BitVec cfg.wordBits} (h : isPow2 (rawSize addr len) = false) :
    getReq addr len = ⟨.get, wordBase addr, cfg.W, 0#_, 0#_⟩ := by
  rw [getReq, h]
  rfl

end Sys2Proof.Machine

open Sys2Proof Sys2Proof.Machine in
/-- Settles O31: opcode, address and size are the Put's fields; data and mask are read lane by lane. -/
theorem putCarriesWordAndMask : Obligations.PutCarriesWordAndMask := fun _ _ body valid =>
  ⟨rfl, rfl, rfl, fun i => slotBits_packWord body i.val i.isLt, fun _ _ => expandMask_getLsbD_byteLane valid⟩

open Sys2Proof Sys2Proof.Machine in
/-- Settles O32: the bounds are those of the raw size, and the two forms are the sides of the test on it. -/
theorem getIsRawBytesOrTheWord : Obligations.GetIsRawBytesOrTheWord := by
  intro cfg addr len hwraps
  simp only [← rawSize_of_not_wraps hwraps, ← isPow2_iff]
  refine ⟨one_le_rawSize hwraps addr len, rawSize_le_W addr len, rfl, fun h => ?_, fun h => ?_⟩
  · rw [getReq_of_isPow2 h]
    exact ⟨rfl, rfl⟩
  · rw [getReq_of_not_isPow2 (Bool.eq_false_of_not_eq_true h)]
    exact ⟨rfl, rfl⟩
end

section
/-! Proofs/WriteAndIssuePhases.lean: phases WriteBody, WriteIssue and WriteAck, and ReadRequest beside WriteIssue
(R170 to R175, R190): what the phases that present a request have in common, and the branches of WriteBody and
WriteAck with the registers they write. -/

namespace Sys2Proof.Machine

variable {cfg : Config}

/-- The decrement of `remaining` cannot wrap where the model makes it (R171, R175). -/
theorem toNat_sub_one_add_one {n : Nat} {v : BitVec n} (h : v ≠ 0#n) : (v - 1#n).toNat + 1 = v.toNat := by
  rw [toNat_sub_one v h, Nat.sub_add_cancel (Nat.pos_of_ne_zero (toNat_ne_zero h))]

/-- R216: a phase that presents a request moves when it is accepted and holds until then. -/
theorem phaseStep_of_presentsRequest (I : Inputs cfg) {S : Regs cfg} (hp : S.phase.presentsRequest = true) :
    phaseStep I S = if I.busReqReady then onAccepted S else S := by
  unfold phaseStep onAccepted
  cases hphase : S.phase with
  | writeIssue | readRequest => rfl
  | command | address | length | writeBody | writeAck | readData | readBody =>
    simp [hphase, Phase.presentsRequest] at hp

/-- R217: a phase that takes a response moves on it and holds without one. -/
theorem phaseStep_of_takesResponse (I : Inputs cfg) {S : Regs cfg} (hp : S.phase.takesResponse = true) :
    phaseStep I S = if I.busRespValid then onResponse I.busRespData S else S := by
  unfold phaseStep onResponse
  cases hphase : S.phase with
  | writeAck | readData => rfl
  | command | address | length | writeBody | writeIssue | readRequest | readBody =>
    simp [hphase, Phase.takesResponse] at hp

theorem coreStep_of_presentsRequest {I : Inputs cfg} {S : Regs cfg} (hr : I.reset = false) (hf : S.fault = false)
    (hp : S.phase.presentsRequest = true) : coreStep I S = if I.busReqReady then onAccepted S else S := by
  rw [coreStep_of_running hr hf, phaseStep_of_presentsRequest I hp]

/-- A tick in which `bus_resp` fires is the phase's transition on the response. -/
theorem coreStep_of_response {I : Inputs cfg} {S : Regs cfg} (hr : I.reset = false) (hv : I.busRespValid = true)
    (hf : S.fault = false) (hp : S.phase.takesResponse = true) : coreStep I S = onResponse I.busRespData S := by
  rw [coreStep_of_running hr hf, phaseStep_of_takesResponse I hp, if_pos hv]

/-- R219: a phase that presents a request opens `bus_req` and no other handshake. -/
theorem handshakes_of_presentsRequest {S : Regs cfg} (hf : S.fault = false) (hp : S.phase.presentsRequest = true) :
    (outputs S).busReqValid = true ∧ (outputs S).serialInReady = false ∧ (outputs S).serialOutValid = false ∧
      (outputs S).busRespReady = false := by
  unfold outputs
  cases hphase : S.phase with
  | writeIssue | readRequest => simp [hf, Phase.presentsRequest, Phase.takesChunk, Phase.takesResponse]
  | command | address | length | writeBody | writeAck | readData | readBody =>
    simp [hphase, Phase.presentsRequest] at hp

theorem presentedRequest_of_writeIssue {S : Regs cfg} (hp : S.phase = .writeIssue) :
    presentedRequest S = putReq S.addr S.body S.valid :=
  if_pos hp

theorem presentedRequest_of_readRequest {S : Regs cfg} (hp : S.phase = .readRequest) :
    presentedRequest S = getReq S.addr S.len :=
  if_neg (by rw [hp]; decide)

theorem onAccepted_of_writeIssue {S : Regs cfg} (hp : S.phase = .writeIssue) :
    onAccepted S = { S with phase := .writeAck } := by
  simp only [onAccepted, hp, onWriteIssue]

theorem onAccepted_of_readRequest {S : Regs cfg} (hp : S.phase = .readRequest) :
    onAccepted S = { S with phase := .readData } := by
  simp only [onAccepted, hp, onReadRequest]

theorem coreStep_of_writeBody {I : Inputs cfg} {S : Regs cfg} (hr : I.reset = false) (hv : I.serialInValid = true)
    (hf : S.fault = false) (hp : S.phase = .writeBody) : coreStep I S = onWriteBody I.serialInBits S := by
  rw [coreStep_of_chunk hr hv hf (by rw [hp]; rfl)]
  simp only [onChunk, hp]

theorem coreStep_of_writeAck {I : Inputs cfg} {S : Regs cfg} (hr : I.reset = false) (hv : I.busRespValid = true)
    (hf : S.fault = false) (hp : S.phase = .writeAck) : coreStep I S = onWriteAck S := by
  rw [coreStep_of_response hr hv hf (by rw [hp]; rfl)]
  simp only [onResponse, hp]

/-- R170: the chunk is in the slot under the cursor, and every other slot holds. -/
theorem onWriteBody_body_getElem (x : BitVec cfg.w) (S : Regs cfg) (j : Fin cfg.N) :
    (onWriteBody x S).body[j] = if j = S.idx then x else S.body[j] := by
  simp only [onWriteBody_body, Fin.getElem_fin, Vector.getElem_set, Fin.ext_iff, eq_comm]

/-- R171: the chunk completes the word. -/
theorem onWriteBody_of_complete (x : BitVec cfg.w) {S : Regs cfg} (h : isLastSlot S.idx = true ∨ S.len = 0#_) :
    onWriteBody x S =
      { S with body := S.body.set S.idx.val x S.idx.isLt, valid := markValid S.valid S.idx, phase := .writeIssue } := by
  rw [onWriteBody, if_pos (by simpa using h)]

/-- R171: chunks of the word are to come. -/
theorem onWriteBody_of_not_complete (x : BitVec cfg.w) {S : Regs cfg} (hi : isLastSlot S.idx = false)
    (hl : S.len ≠ 0#_) :
    onWriteBody x S =
      { S with body := S.body.set S.idx.val x S.idx.isLt, valid := markValid S.valid S.idx, idx := nextSlot S.idx,
               len := S.len - 1#_ } := by
  rw [onWriteBody, if_neg (by simp [hi, hl])]

theorem onWriteAck_of_last {S : Regs cfg} (h : S.len = 0#_) : onWriteAck S = { S with phase := .command } :=
  if_pos h

theorem onWriteAck_of_not_last {S : Regs cfg} (h : S.len ≠ 0#_) :
    onWriteAck S =
      { S with addr := nextAddr S.addr, idx := slotZero cfg, valid := emptyMask cfg, len := S.len - 1#_,
               phase := .writeBody } :=
  if_neg h

end Sys2Proof.Machine

open Sys2Proof Sys2Proof.Machine

/-- Settles O18: slot and mark are written in both branches of `onWriteBody`, which are those of its test. -/
theorem writeBodyStoresTheChunk : Obligations.WriteBodyStoresTheChunk := by
  intro cfg I S hr hf hp hv
  rw [coreStep_of_writeBody hr hv hf hp]
  refine ⟨onWriteBody_body_getElem _ S, fun j => ?_, fun hdone => ?_, fun hidx hlen => ?_⟩
  · rw [onWriteBody_valid, markValid_getLsbD]
  · rw [onWriteBody_of_complete _ (hdone.imp_left decide_eq_true)]
  · have hnot : isLastSlot S.idx = false := decide_eq_false hidx
    rw [onWriteBody_of_not_complete _ hnot hlen]
    exact ⟨nextSlot_val _ hnot, toNat_sub_one_add_one hlen, rfl⟩

/-- Settles O19: both phases present a request, and differ in which one and in the phase that follows. -/
theorem issuingPhasesPresentOneRequest : Obligations.IssuingPhasesPresentOneRequest := by
  intro cfg I S hr hf
  refine ⟨fun hp => ?_, fun hp => ?_⟩
  all_goals
    have hreq : S.phase.presentsRequest = true := by rw [hp]; rfl
    obtain ⟨hvalid, hin, hout, hresp⟩ := handshakes_of_presentsRequest hf hreq
    rw [coreStep_of_presentsRequest hr hf hreq]
  · rw [onAccepted_of_writeIssue hp]
    exact ⟨hvalid, presentedRequest_of_writeIssue hp, hin, hout, hresp, rfl⟩
  · rw [onAccepted_of_readRequest hp]
    exact ⟨hvalid, presentedRequest_of_readRequest hp, hin, hout, hresp, rfl⟩

/-- Settles O20: the two branches of `onWriteAck`, by whether chunks remain. -/
theorem writeAckEndsOrBeginsAWord : Obligations.WriteAckEndsOrBeginsAWord := by
  intro cfg I S hr hf hp hv
  rw [coreStep_of_writeAck hr hv hf hp]
  refine ⟨fun hlen => onWriteAck_of_last hlen, fun hlen => ?_⟩
  rw [onWriteAck_of_not_last hlen]
  exact ⟨toNat_sub_one_add_one hlen, rfl⟩
end

section
/-! Proofs/ReadPhases.lean: phases ReadData and ReadBody (R191 to R194): the registers a response writes, what ReadBody
opens, and the update and the phase that follow a chunk the host takes. -/

namespace Sys2Proof.Machine

variable {cfg : Config}

theorem coreStep_of_readData {I : Inputs cfg} {S : Regs cfg} (hr : I.reset = false) (hv : I.busRespValid = true)
    (hf : S.fault = false) (hp : S.phase = .readData) : coreStep I S = onReadData I.busRespData S := by
  rw [coreStep_of_response hr hv hf (by rw [hp]; rfl)]
  simp only [onResponse, hp]

/-- R193: ReadBody moves when the host takes the chunk and holds until then. -/
theorem coreStep_of_readBody {I : Inputs cfg} {S : Regs cfg} (hr : I.reset = false) (hf : S.fault = false)
    (hp : S.phase = .readBody) : coreStep I S = if I.serialOutReady then onReadBody S else S := by
  rw [coreStep_of_running hr hf]
  simp only [phaseStep, hp]

/-- R219: ReadBody opens `serial_out` and no other handshake. -/
theorem handshakes_of_readBody {S : Regs cfg} (hf : S.fault = false) (hp : S.phase = .readBody) :
    (outputs S).serialOutValid = true ∧ (outputs S).serialInReady = false ∧ (outputs S).busReqValid = false ∧
      (outputs S).busRespReady = false := by
  simp [outputs, hf, hp, Phase.takesChunk, Phase.presentsRequest, Phase.takesResponse]

/-- The decrement of `remaining` as R194 writes it, the wrap at 0 included. -/
theorem toNat_sub_one_wraps {n : Nat} (hn : 0 < n) (v : BitVec n) :
    (v - 1#n).toNat = (v.toNat + 2 ^ n - 1) % 2 ^ n := by
  rw [BitVec.toNat_sub, BitVec.toNat_one hn, Nat.add_comm, Nat.add_sub_assoc Nat.one_le_two_pow]

/-- R194: cursor, countdown and phase are all that an emitted chunk writes. -/
theorem onReadBody_frame (S : Regs cfg) :
    onReadBody S =
      { S with idx := (onReadBody S).idx, len := (onReadBody S).len, phase := (onReadBody S).phase } := by
  unfold onReadBody
  by_cases hlen : S.len = 0#_
  · simp only [if_pos hlen]
  · by_cases hlast : isLastSlot S.idx = true
    · simp only [if_neg hlen, if_pos hlast]
    · simp only [if_neg hlen, if_neg hlast]

end Sys2Proof.Machine

open Sys2Proof Sys2Proof.Machine

/-- Settles O22: ReadBody holds or takes `onReadBody`, whose cursor and countdown move in all three branches of its
phase. -/
theorem readBodyEmitsTheSlot : Obligations.ReadBodyEmitsTheSlot := by
  intro cfg I S hr hf hp
  obtain ⟨hout, hin, hreq, hresp⟩ := handshakes_of_readBody hf hp
  rw [coreStep_of_readBody hr hf hp]
  refine ⟨hout, rfl, hin, hreq, hresp, fun hwait => ?_, fun hready => ?_⟩
  · rw [hwait]
    rfl
  · rw [if_pos hready]
    refine ⟨congrArg Fin.val (onReadBody_idx S), ?_, ?_, onReadBody_frame S⟩
    · rw [onReadBody_len, toNat_sub_one_wraps (Nat.lt_of_lt_of_le (by decide) cfg.eight_le_wordBits)]
    · simp only [onReadBody_phase, isLastSlot, decide_eq_true_eq, hp]

/-- Settles O21: the tick is `onReadData`, whose word buffer is the response slot by slot. -/
theorem readDataLoadsTheWord : Obligations.ReadDataLoadsTheWord := by
  intro cfg I S hr hf hp hv
  rw [coreStep_of_readData hr hv hf hp]
  exact ⟨fun i => unpackWord_get _ i.val i.isLt, rfl⟩
end

section
/-! Proofs/Handshakes.lean: R219 and R224: the four handshake outputs of a halted machine and of each kind of phase,
and the tick in which no channel transfers. -/

namespace Sys2Proof.Machine

variable {cfg : Config}

/-- R245: a halted machine opens no handshake. -/
theorem handshakes_of_fault {S : Regs cfg} (hf : S.fault = true) :
    (outputs S).serialInReady = false ∧ (outputs S).serialOutValid = false ∧ (outputs S).busReqValid = false ∧
      (outputs S).busRespReady = false := by
  simp [outputs, hf]

/-- R219: a phase that takes a chunk opens `serial_in` and no other handshake. -/
theorem handshakes_of_takesChunk {S : Regs cfg} (hf : S.fault = false) (hp : S.phase.takesChunk = true) :
    (outputs S).serialInReady = true ∧ (outputs S).serialOutValid = false ∧ (outputs S).busReqValid = false ∧
      (outputs S).busRespReady = false := by
  unfold outputs
  cases hphase : S.phase with
  | command | address | length | writeBody =>
    simp [hf, Phase.takesChunk, Phase.presentsRequest, Phase.takesResponse]
  | writeIssue | writeAck | readRequest | readData | readBody => simp [hphase, Phase.takesChunk] at hp

/-- R219: a phase that takes a response opens `bus_resp` and no other handshake. -/
theorem handshakes_of_takesResponse {S : Regs cfg} (hf : S.fault = false) (hp : S.phase.takesResponse = true) :
    (outputs S).busRespReady = true ∧ (outputs S).serialInReady = false ∧ (outputs S).serialOutValid = false ∧
      (outputs S).busReqValid = false := by
  unfold outputs
  cases hphase : S.phase with
  | writeAck | readData => simp [hf, Phase.takesChunk, Phase.presentsRequest, Phase.takesResponse]
  | command | address | length | writeBody | writeIssue | readRequest | readBody =>
    simp [hphase, Phase.takesResponse] at hp

/-- R213: without a firing channel there is no transfer. -/
theorem transferOf_of_no_fire {I : Inputs cfg} {O : Outputs cfg}
    (hin : fire I.serialInValid O.serialInReady = false) (hout : fire O.serialOutValid I.serialOutReady = false)
    (hreq : fire O.busReqValid I.busReqReady = false) (hresp : fire I.busRespValid O.busRespReady = false) :
    transferOf I O = none := by
  simp [transferOf, hin, hout, hreq, hresp]

/-- R224: without reset, the registers change only through a transfer. -/
theorem coreStep_of_no_transfer {I : Inputs cfg} {S : Regs cfg} (hr : I.reset = false)
    (ht : transferOf I (outputs S) = none) : coreStep I S = S := by
  simp [coreStep_eq, hr, ht]

end Sys2Proof.Machine

open Sys2Proof Sys2Proof.Machine

/-- Settles O12: where none of the four channels fires there is no transfer, and only a transfer writes registers. -/
theorem noFireNoChange : Obligations.NoFireNoChange := fun _ _ _ hr hin hout hreq hresp =>
  coreStep_of_no_transfer hr (transferOf_of_no_fire hin hout hreq hresp)

/-- Settles O24: the data outputs are the listed functions by definition; the handshakes are those of the halt or of
the kind of the phase. -/
theorem exactlyOneHandshakeIsOpen : Obligations.ExactlyOneHandshakeIsOpen := by
  intro cfg S O
  refine ⟨rfl, rfl, rfl, ?_⟩
  cases hf : S.fault with
  | true =>
    obtain ⟨hin, hout, hreq, hresp⟩ := handshakes_of_fault hf
    simp [O, hin, hout, hreq, hresp]
  | false =>
    cases hp : S.phase with
    | command | address | length | writeBody =>
      obtain ⟨hin, hout, hreq, hresp⟩ := handshakes_of_takesChunk hf (by rw [hp]; rfl)
      simp [O, hin, hout, hreq, hresp]
    | writeIssue | readRequest =>
      obtain ⟨hreq, hin, hout, hresp⟩ := handshakes_of_presentsRequest hf (by rw [hp]; rfl)
      simp [O, hin, hout, hreq, hresp]
    | writeAck | readData =>
      obtain ⟨hresp, hin, hout, hreq⟩ := handshakes_of_takesResponse hf (by rw [hp]; rfl)
      simp [O, hin, hout, hreq, hresp]
    | readBody =>
      obtain ⟨hout, hin, hreq, hresp⟩ := handshakes_of_readBody hf hp
      simp [O, hin, hout, hreq, hresp]
end

section
/-! Proofs/Construction.lean: the check of an instance's parameters as the constraints of R8, and the two answers of
the constructor (R241). -/

namespace Sys2Proof

/-- The constraints of R8 as arithmetic, each power of two by its exponent (R11). -/
theorem configCheck_iff (w wordBits addrBits : Nat) :
    configCheck w wordBits addrBits = true ↔
      (∃ a, w = 2 ^ a) ∧ 8 ≤ w ∧ (∃ b, wordBits = 2 ^ b) ∧ w ≤ wordBits ∧ wordBits % w = 0 ∧
        Nat.log2 (wordBits / 8) ≤ addrBits ∧ addrBits ≤ wordBits := by
  simp only [configCheck, Bool.and_eq_true, decide_eq_true_eq, isPow2_iff, and_assoc]

namespace Config

variable {w wordBits addrBits : Nat}

theorem construct_of_check (h : configCheck w wordBits addrBits = true) :
    construct w wordBits addrBits = .ok ⟨w, wordBits, addrBits, false, h⟩ :=
  dif_pos h

theorem construct_of_not_check (h : ¬ configCheck w wordBits addrBits = true) :
    construct w wordBits addrBits = .error .configError :=
  dif_neg h

end Config

end Sys2Proof

open Sys2Proof

/-- Settles O1: the check the constructor branches on is the conjunction of R8's constraints. -/
theorem constructionRefusesExactlyBadParameters : Obligations.ConstructionRefusesExactlyBadParameters := by
  intro w wordBits addrBits good
  have hcheck : configCheck w wordBits addrBits = true ↔ good := configCheck_iff w wordBits addrBits
  refine ⟨fun hgood => ?_, fun hbad => ?_⟩
  · exact ⟨_, Config.construct_of_check (hcheck.mpr hgood), rfl, rfl, rfl⟩
  · exact Config.construct_of_not_check fun h => hbad (hcheck.mp h)
end

section
/-! Proofs/Frames.lean: fields as numbers and frames as chunk lists (R80 to R94): a field's chunks and its value
determine each other, and the decoder reads a header by its three fields. -/

namespace Sys2Proof

open Machine (length_fieldChunks)

variable {cfg : Config}

/-! ### The chunks of a field -/

theorem chunkOf_succ (v i : Nat) : chunkOf cfg v (i + 1) = chunkOf cfg (v / 2 ^ cfg.w) i := by
  rw [chunkOf, chunkOf, Nat.div_div_eq_div_mul, ← Nat.pow_add, Nat.add_mul, Nat.one_mul, Nat.add_comm]

/-- The least significant chunk of a field's value is its first chunk. -/
theorem fieldValue_cons_mod (x : BitVec cfg.w) (l : List (BitVec cfg.w)) :
    fieldValue cfg (x :: l) % 2 ^ cfg.w = x.toNat := by
  rw [fieldValue, Nat.add_mul_mod_self_left, Nat.mod_eq_of_lt x.isLt]

theorem fieldValue_cons_div (x : BitVec cfg.w) (l : List (BitVec cfg.w)) :
    fieldValue cfg (x :: l) / 2 ^ cfg.w = fieldValue cfg l := by
  rw [fieldValue, Nat.add_mul_div_left _ _ (Nat.two_pow_pos _), Nat.div_eq_of_lt x.isLt, Nat.zero_add]

theorem chunkOf_fieldValue_zero (x : BitVec cfg.w) (l : List (BitVec cfg.w)) :
    chunkOf cfg (fieldValue cfg (x :: l)) 0 = x := by
  apply BitVec.eq_of_toNat_eq
  rw [toNat_chunkOf, Nat.zero_mul, Nat.pow_zero, Nat.div_one, fieldValue_cons_mod]

/-- R83, R84: `n` chunks of a number carry its low `n * w` bits. -/
theorem fieldValue_map_chunkOf (v n : Nat) :
    fieldValue cfg ((List.range n).map (chunkOf cfg v)) = v % 2 ^ (n * cfg.w) := by
  induction n generalizing v with
  | zero => simp [fieldValue, Nat.mod_one]
  | succ n ih =>
    have htail : (List.range n).map (chunkOf cfg v ∘ Nat.succ) = (List.range n).map (chunkOf cfg (v / 2 ^ cfg.w)) :=
      List.map_congr_left fun i _ => chunkOf_succ v i
    rw [List.range_succ_eq_map, List.map_cons, List.map_map, htail, fieldValue, ih, toNat_chunkOf, Nat.zero_mul,
      Nat.pow_zero, Nat.div_one, Nat.succ_mul, Nat.add_comm (n * cfg.w), Nat.pow_add, Nat.mod_mul]

/-- R94: a chunk list is the chunks of its value. -/
theorem map_chunkOf_fieldValue (l : List (BitVec cfg.w)) :
    (List.range l.length).map (chunkOf cfg (fieldValue cfg l)) = l := by
  induction l with
  | nil => rfl
  | cons x l ih =>
    have htail : (List.range l.length).map (chunkOf cfg (fieldValue cfg (x :: l)) ∘ Nat.succ) =
        (List.range l.length).map (chunkOf cfg (fieldValue cfg l)) :=
      List.map_congr_left fun i _ => (chunkOf_succ _ i).trans (by rw [fieldValue_cons_div])
    rw [List.length_cons, List.range_succ_eq_map, List.map_cons, List.map_map, htail, ih, chunkOf_fieldValue_zero]

theorem fieldValue_fieldChunks {v : Nat} (h : v < 2 ^ cfg.wordBits) : fieldValue cfg (fieldChunks cfg v) = v := by
  rw [fieldChunks, fieldValue_map_chunkOf, cfg.N_mul_w, Nat.mod_eq_of_lt h]

theorem fieldChunks_fieldValue {l : List (BitVec cfg.w)} (h : l.length = cfg.N) :
    fieldChunks cfg (fieldValue cfg l) = l := by
  rw [fieldChunks, ← h, map_chunkOf_fieldValue]

theorem fieldValue_lt {l : List (BitVec cfg.w)} (h : l.length = cfg.N) : fieldValue cfg l < 2 ^ cfg.wordBits := by
  rw [← map_chunkOf_fieldValue l, fieldValue_map_chunkOf, h, cfg.N_mul_w]
  exact Nat.mod_lt _ (Nat.two_pow_pos _)

/-- R83: the value as the sum the spec writes, chunk `i` with weight `2^(i*w)`. -/
theorem fieldValue_eq_sum (l : List (BitVec cfg.w)) :
    fieldValue cfg l = ((List.range l.length).map fun i => (l.getD i 0#_).toNat * 2 ^ (i * cfg.w)).sum := by
  induction l with
  | nil => rfl
  | cons x l ih =>
    have hterm : ∀ i, ((x :: l).getD (i + 1) 0#_).toNat * 2 ^ ((i + 1) * cfg.w) =
        2 ^ cfg.w * ((l.getD i 0#_).toNat * 2 ^ (i * cfg.w)) := by
      intro i
      rw [List.getD_cons_succ, Nat.succ_mul, Nat.pow_add]
      ring
    have htail : (List.range l.length).map
          ((fun i => ((x :: l).getD i 0#_).toNat * 2 ^ (i * cfg.w)) ∘ Nat.succ) =
        (List.range l.length).map fun i => 2 ^ cfg.w * ((l.getD i 0#_).toNat * 2 ^ (i * cfg.w)) :=
      List.map_congr_left fun i _ => hterm i
    rw [List.length_cons, List.range_succ_eq_map, List.map_cons, List.map_map, List.sum_cons, htail,
      List.sum_map_mul_left, ← ih, fieldValue, List.getD_cons_zero, Nat.zero_mul, Nat.pow_zero, Nat.mul_one]

/-! ### The decoder -/

/-- R80, R87: a whole header is read by its fields, and the command selects what follows. -/
theorem decode_header (cmd : BitVec cfg.w) {as ls : List (BitVec cfg.w)} (rest : List (BitVec cfg.w))
    (has : as.length = cfg.N) (hls : ls.length = cfg.N) :
    decode cfg (cmd :: (as ++ (ls ++ rest))) =
      if cmd.toNat = readCode then .ok (.read (fieldValue cfg as) (fieldValue cfg ls), rest)
      else if cmd.toNat = writeCode then
        if rest.length < fieldValue cfg ls + 1 then .error .truncatedData
        else .ok (.write (fieldValue cfg as) (fieldValue cfg ls)
          ((rest.take (fieldValue cfg ls + 1)).map BitVec.toNat), rest.drop (fieldValue cfg ls + 1))
      else .error (.unrecognisedCommand cmd.toNat) := by
  have hlen : ¬ (as ++ (ls ++ rest)).length < 2 * cfg.N := by
    rw [List.length_append, List.length_append]; omega
  have htake : (as ++ (ls ++ rest)).take cfg.N = as := List.take_left' has
  have hdrop : (as ++ (ls ++ rest)).drop cfg.N = ls ++ rest := List.drop_left' has
  have hrest : (as ++ (ls ++ rest)).drop (2 * cfg.N) = rest := by
    rw [Nat.two_mul, ← List.drop_drop, hdrop, List.drop_left' hls]
  simp only [decode, if_neg hlen, htake, hdrop, hrest, List.take_left' hls]

/-- What the decoder accepts begins with a whole header. -/
theorem decode_ok_header {q : List (BitVec cfg.w)} {r : Instr × List (BitVec cfg.w)} (h : decode cfg q = .ok r) :
    ∃ cmd as ls rest, q = cmd :: (as ++ (ls ++ rest)) ∧ as.length = cfg.N ∧ ls.length = cfg.N := by
  cases q with
  | nil => simp [decode] at h
  | cons cmd q =>
    by_cases hlen : q.length < 2 * cfg.N
    · simp [decode, hlen] at h
    · refine ⟨cmd, q.take cfg.N, (q.drop cfg.N).take cfg.N, (q.drop cfg.N).drop cfg.N, ?_, ?_, ?_⟩
      · rw [List.take_append_drop, List.take_append_drop]
      · rw [List.length_take]; omega
      · rw [List.length_take, List.length_drop]; omega

theorem toNat_readCode : (BitVec.ofNat cfg.w readCode).toNat = readCode := by simp [readCode]

theorem toNat_writeCode : (BitVec.ofNat cfg.w writeCode).toNat = writeCode :=
  Nat.mod_eq_of_lt (Nat.one_lt_two_pow (Nat.pos_iff_ne_zero.1 cfg.w_pos))

theorem wellFormed_read_iff (address len : Nat) :
    (Instr.read address len).wellFormed cfg = true ↔ address < 2 ^ cfg.wordBits ∧ len < 2 ^ cfg.wordBits := by
  simp [Instr.wellFormed, fieldFits]

theorem wellFormed_write_iff (address len : Nat) (data : List Nat) :
    (Instr.write address len data).wellFormed cfg = true ↔
      address < 2 ^ cfg.wordBits ∧ len < 2 ^ cfg.wordBits ∧ data.length = len + 1 ∧ ∀ x ∈ data, x < 2 ^ cfg.w := by
  simp [Instr.wellFormed, fieldFits, chunkFits, and_assoc]

/-- Data chunks that fit are the numbers they came from. -/
theorem map_toNat_map_ofNat {data : List Nat} (h : ∀ x ∈ data, x < 2 ^ cfg.w) :
    (data.map (BitVec.ofNat cfg.w)).map BitVec.toNat = data := by
  rw [List.map_map]
  exact (List.map_congr_left fun x hx => Nat.mod_eq_of_lt (h x hx)).trans data.map_id

theorem decode_encodeRead {address len : Nat} (ha : address < 2 ^ cfg.wordBits) (hl : len < 2 ^ cfg.wordBits)
    (rest : List (BitVec cfg.w)) : decode cfg (encodeRead cfg address len ++ rest) = .ok (.read address len, rest) := by
  rw [encodeRead, encodeHeader, List.cons_append, List.append_assoc,
    decode_header _ _ (length_fieldChunks _) (length_fieldChunks _), if_pos toNat_readCode,
    fieldValue_fieldChunks ha, fieldValue_fieldChunks hl]

theorem decode_encodeWrite {address len : Nat} {data : List Nat} (ha : address < 2 ^ cfg.wordBits)
    (hl : len < 2 ^ cfg.wordBits) (hd : data.length = len + 1) (hfit : ∀ x ∈ data, x < 2 ^ cfg.w)
    (rest : List (BitVec cfg.w)) :
    decode cfg (encodeWrite cfg address len data ++ rest) = .ok (.write address len data, rest) := by
  have hlen : (data.map (BitVec.ofNat cfg.w)).length = len + 1 := by rw [List.length_map, hd]
  have hmany : ¬ (data.map (BitVec.ofNat cfg.w) ++ rest).length < len + 1 := by
    rw [List.length_append]; omega
  rw [encodeWrite, encodeHeader, List.append_assoc, List.cons_append, List.append_assoc,
    decode_header _ _ (length_fieldChunks _) (length_fieldChunks _), toNat_writeCode, if_neg (by decide), if_pos rfl,
    fieldValue_fieldChunks ha, fieldValue_fieldChunks hl, if_neg hmany, List.take_left' hlen, List.drop_left' hlen,
    map_toNat_map_ofNat hfit]

/-- A header is encoded from its fields' values. -/
theorem encodeHeader_fieldValue {cmd : BitVec cfg.w} {as ls : List (BitVec cfg.w)} (has : as.length = cfg.N)
    (hls : ls.length = cfg.N) :
    encodeHeader cfg cmd.toNat (fieldValue cfg as) (fieldValue cfg ls) = cmd :: (as ++ ls) := by
  rw [encodeHeader, fieldChunks_fieldValue has, fieldChunks_fieldValue hls, BitVec.ofNat_toNat, BitVec.setWidth_eq]

theorem map_ofNat_map_toNat (l : List (BitVec cfg.w)) : (l.map BitVec.toNat).map (BitVec.ofNat cfg.w) = l := by
  rw [List.map_map]
  exact (List.map_congr_left fun x _ => (BitVec.ofNat_toNat _ x).trans (BitVec.setWidth_eq x)).trans l.map_id

end Sys2Proof

open Sys2Proof Sys2Proof.Machine

/-- Settles O3: by the constructor; every field and every data chunk that fits is the number it came from. -/
theorem decodingAnEncodedFrameGivesTheCommand : Obligations.DecodingAnEncodedFrameGivesTheCommand := by
  intro cfg i rest hwf
  cases i with
  | read address len =>
    obtain ⟨ha, hl⟩ := (wellFormed_read_iff _ _).1 hwf
    exact decode_encodeRead ha hl rest
  | write address len data =>
    obtain ⟨ha, hl, hd, hfit⟩ := (wellFormed_write_iff _ _ _).1 hwf
    exact decode_encodeWrite ha hl hd hfit rest

/-- Settles O4: what is accepted is a whole header, and the command says how many data chunks the frame takes. -/
theorem decodingTakesExactlyOneFrame : Obligations.DecodingTakesExactlyOneFrame := by
  intro cfg q i rest h
  obtain ⟨cmd, as, ls, tail, rfl, has, hls⟩ := decode_ok_header h
  rw [decode_header _ _ has hls] at h
  split_ifs at h with hr hw hshort
  · cases h
    refine ⟨(wellFormed_read_iff _ _).2 ⟨fieldValue_lt has, fieldValue_lt hls⟩, ?_⟩
    rw [encode, encodeRead, ← hr, encodeHeader_fieldValue has hls, List.cons_append, List.append_assoc]
  · cases h
    refine ⟨(wellFormed_write_iff _ _ _).2 ⟨fieldValue_lt has, fieldValue_lt hls, ?_, ?_⟩, ?_⟩
    · rw [List.length_map, List.length_take]; omega
    · intro x hx
      obtain ⟨y, -, rfl⟩ := List.mem_map.1 hx
      exact y.isLt
    · rw [encode, encodeWrite, ← hw, encodeHeader_fieldValue has hls, map_ofNat_map_toNat, List.append_assoc,
        List.take_append_drop, List.cons_append, List.append_assoc]

/-- Settles O6: the value of a field's chunks is the field, and the value is the sum. -/
theorem fieldsAreLittleEndianSums : Obligations.FieldsAreLittleEndianSums := by
  intro cfg v hv
  refine ⟨length_fieldChunks v, ?_⟩
  have hsum := fieldValue_eq_sum (fieldChunks cfg v)
  rwa [fieldValue_fieldChunks hv, length_fieldChunks] at hsum

/-- Settles O5: a header has `1 + N + N` chunks. -/
theorem frameLengthsAreAsListed : Obligations.FrameLengthsAreAsListed := by
  intro cfg
  have hheader (code address len : Nat) : (encodeHeader cfg code address len).length = 2 * cfg.N + 1 := by
    rw [encodeHeader, List.length_cons, List.length_append, length_fieldChunks, length_fieldChunks, Nat.two_mul]
  refine ⟨fun address len => hheader readCode address len, fun address len data hwf => ?_⟩
  obtain ⟨-, -, hd, -⟩ := (wellFormed_write_iff _ _ _).1 hwf
  rw [encode, encodeWrite, List.length_append, hheader, List.length_map, hd]
  omega

/-- Settles O7: the whole header is there, and neither test on the command holds. -/
theorem otherCommandValuesAreUnrecognised : Obligations.OtherCommandValuesAreUnrecognised := by
  intro cfg cmd q h0 h1 hlen
  have hnot : ¬ q.length < 2 * cfg.N := by omega
  simp only [decode, if_neg hnot, if_neg (show ¬ cmd.toNat = readCode from h0),
    if_neg (show ¬ cmd.toNat = writeCode from h1)]

/-- Settles O8: the frames are closed terms, which the decoder evaluates. -/
theorem workedFramesDecode : Obligations.WorkedFramesDecode := by
  refine ⟨?_, ?_, ?_, ?_, ?_, ?_⟩ <;> decide
end

section
/-! Proofs/Steps.lean: a step is the ticks of the run, whatever the decoder answers (log 2, log 20); a run stops where
it says it does; stalls change nothing but the script (R222, R224). -/

namespace Sys2Proof.Machine

variable {cfg : Config}

/-! ### Steps as runs -/

theorem exec_eq_runState (i : Instr) (s : Sys cfg) : exec i ⟨cfg, s⟩ = runState (s.offer (encode cfg i)) := by
  cases i with
  | read address len => rfl
  | write address len data => rfl

theorem step_of_decode_ok {s : Sys cfg} {i : Instr} {rest : List (BitVec cfg.w)} (hb : s.betweenOperations = true)
    (h : decode cfg s.serialIn = .ok (i, rest)) : step ⟨cfg, s⟩ = exec i ⟨cfg, s.withSerialIn rest⟩ := by
  simp only [step, hb, if_true, h]

/-- The frame that the decoder took is put back, chunk for chunk. -/
theorem offer_encode_of_decode_ok {s : Sys cfg} {i : Instr} {rest : List (BitVec cfg.w)}
    (h : decode cfg s.serialIn = .ok (i, rest)) : (s.withSerialIn rest).offer (encode cfg i) = s := by
  obtain ⟨-, hframe⟩ := decodingTakesExactlyOneFrame cfg _ _ _ h
  rw [offer_withSerialIn, hframe, withSerialIn_self]

/-- R212: every step runs the machine's own ticks. -/
theorem step_eq_runState (s : Sys cfg) : step ⟨cfg, s⟩ = runState s := by
  by_cases hb : s.betweenOperations = true
  · cases hd : decode cfg s.serialIn with
    | ok r => rw [step_of_decode_ok hb hd, exec_eq_runState, offer_encode_of_decode_ok hd]
    | error e => simp only [step, hb, if_true, hd]
  · simp only [step, if_neg hb]

theorem halted_of_running {s : Sys cfg} (hf : s.regs.fault = false) : s.halted = false := by
  rw [Sys.halted, hf, Bool.false_and]

theorem runState_of_not_halted {s : Sys cfg} (h : s.halted = false) : runState s = .next ⟨cfg, s.run⟩ := by
  rw [runState, h]
  rfl

theorem runState_of_running {s : Sys cfg} (hf : s.regs.fault = false) : runState s = .next ⟨cfg, s.run⟩ :=
  runState_of_not_halted (halted_of_running hf)

theorem runState_of_halted {s : Sys cfg} (hf : s.regs.fault = true) (hn : s.noReset) :
    runState s = .fault .badCommandHalt := by
  rw [runState, if_pos]
  rw [Sys.halted, hf, Bool.true_and]
  exact hn

theorem step_of_running {s : Sys cfg} (hf : s.regs.fault = false) : step ⟨cfg, s⟩ = .next ⟨cfg, s.run⟩ := by
  rw [step_eq_runState, runState_of_running hf]

theorem exec_of_running (i : Instr) {s : Sys cfg} (hf : s.regs.fault = false) :
    exec i ⟨cfg, s⟩ = .next ⟨cfg, (s.offer (encode cfg i)).run⟩ := by
  rw [exec_eq_runState, runState_of_running (by rw [offer_regs, hf])]

/-- What every tick keeps, a step keeps. -/
theorem step_induct {P : Sys cfg → Prop} (h : ∀ s, P s → P s.tick) {s t : Sys cfg} (hs : P s)
    (ht : step ⟨cfg, s⟩ = .next ⟨cfg, t⟩) : P t := by
  rw [step_eq_runState] at ht
  cases hh : s.halted with
  | true => simp [runState, hh] at ht
  | false =>
    rw [runState_of_not_halted hh] at ht
    cases ht
    exact run_induct h s hs

/-! ### Where a run stops -/

/-- R224: a machine that waits with no script left is where its run stops. -/
theorem run_of_waiting {s : Sys cfg} (hs : s.script = []) (hw : s.waiting = true) : s.run = s := by
  have ht : s.tick = s := tick_of_waiting s hs hw
  have hsettled : settled s s.tick = true := by rw [ht]; simp [settled, hs, hw]
  rw [run_of_settled s hsettled, ht]

theorem settled_cases {s t : Sys cfg} (h : settled s t = true) :
    opEnds s t = true ∨ faultRaised s t = true ∨ (t.script = [] ∧ t.waiting = true) := by
  simpa [settled, or_assoc] using h

theorem phase_of_opEnds {s t : Sys cfg} (h : opEnds s t = true) : t.regs.phase = .command := by
  rw [opEnds, Bool.and_eq_true, decide_eq_true_eq, decide_eq_true_eq] at h
  exact h.2

theorem fault_of_faultRaised {s t : Sys cfg} (h : faultRaised s t = true) : t.regs.fault = true := by
  rw [faultRaised, Bool.and_eq_true] at h
  exact h.2

theorem run_settles (s : Sys cfg) :
    s.run.regs.phase = .command ∨ s.run.regs.fault = true ∨ (s.run.script = [] ∧ s.run.waiting = true) := by
  induction s using run_induction with
  | h s ih =>
    cases hs : settled s s.tick with
    | true =>
      rw [run_of_settled s hs]
      exact (settled_cases hs).imp phase_of_opEnds (Or.imp_left fault_of_faultRaised)
    | false =>
      rw [run_of_not_settled s hs]
      exact ih hs

/-- A tick that neither ends the operation nor raises the fault leaves the run's end where it is, also when the machine
waits after it. -/
theorem run_eq_run_tick {s : Sys cfg} (ho : opEnds s s.tick = false) (hf : faultRaised s s.tick = false) :
    s.run = s.tick.run := by
  cases hs : settled s s.tick with
  | false => exact run_of_not_settled s hs
  | true =>
    rcases settled_cases hs with h | h | ⟨hscript, hwait⟩
    · rw [ho] at h; cases h
    · rw [hf] at h; cases h
    · rw [run_of_settled s hs, run_of_waiting hscript hwait]

/-! ### Stalls -/

theorem Sys.cooperative.run {s : Sys cfg} (h : s.cooperative) : s.run.cooperative :=
  run_induct (P := Sys.cooperative) (fun _ h => h.tick) s h

theorem run_script_nil {s : Sys cfg} (h : s.script = []) : s.run.script = [] :=
  run_induct (P := fun s => s.script = []) (fun s h => by rw [tick_script, h]; rfl) s h

theorem fault_tick_of_not_raised {s : Sys cfg} (hf : s.regs.fault = false) (h : faultRaised s s.tick = false) :
    s.tick.regs.fault = false := by
  simpa [faultRaised, hf] using h

/-- What ends an operation or raises the fault moves the registers, so the unstalled machine makes the same tick. -/
theorem Sys.cooperative.tick_calm_of_ended {s : Sys cfg} (h : s.cooperative) (hf : s.regs.fault = false)
    (hend : opEnds s s.tick = true ∨ faultRaised s s.tick = true) : s.tick.calm = s.calm.tick := by
  rcases h.tick_calm hf with hstall | hmove
  · have hregs : s.tick.regs = s.regs := by rw [hstall]
    simp [opEnds, faultRaised, hregs] at hend
  · exact hmove

theorem run_of_ended {s : Sys cfg} (hend : opEnds s s.tick = true ∨ faultRaised s s.tick = true) : s.run = s.tick :=
  run_of_settled s (by rcases hend with h | h <;> simp [settled, h])

theorem opEnds_congr {s t s' t' : Sys cfg} (hs : s.regs = s'.regs) (ht : t.regs = t'.regs) :
    opEnds s t = opEnds s' t' := by
  unfold opEnds; rw [hs, ht]

theorem faultRaised_congr {s t s' t' : Sys cfg} (hs : s.regs = s'.regs) (ht : t.regs = t'.regs) :
    faultRaised s t = faultRaised s' t' := by
  unfold faultRaised; rw [hs, ht]

/-- R222: what a stalled machine comes to is what the unstalled one comes to. -/
theorem calm_run (s : Sys cfg) (h : s.cooperative) (hf : s.regs.fault = false) : s.run.calm = s.calm.run := by
  induction s using run_induction with
  | h s ih =>
    by_cases hend : opEnds s s.tick = true ∨ faultRaised s s.tick = true
    · have hmove := h.tick_calm_of_ended hf hend
      have hregs : s.calm.tick.regs = s.tick.regs := by rw [← hmove, calm_regs]
      rw [run_of_ended hend, hmove, run_of_ended]
      rwa [opEnds_congr (calm_regs s) hregs, faultRaised_congr (calm_regs s) hregs]
    · obtain ⟨ho, hr⟩ : opEnds s s.tick = false ∧ faultRaised s s.tick = false := by simpa using hend
      have hnext : s.tick.run.calm = s.tick.calm.run := by
        cases hs : settled s s.tick with
        | false => exact ih hs h.tick (fault_tick_of_not_raised hf hr)
        | true =>
          rcases settled_cases hs with h' | h' | ⟨hscript, -⟩
          · exact absurd h' (by simp [ho])
          · exact absurd h' (by simp [hr])
          · rw [calm_of_script_nil _ hscript, calm_of_script_nil _ (run_script_nil hscript)]
      rw [run_eq_run_tick ho hr, hnext]
      rcases h.tick_calm hf with hstall | hmove
      · rw [hstall]
        rfl
      · have hregs : s.calm.tick.regs = s.tick.regs := by rw [← hmove, calm_regs]
        rw [hmove, ← run_eq_run_tick]
        · rw [opEnds_congr (calm_regs s) hregs, ho]
        · rw [faultRaised_congr (calm_regs s) hregs, hr]

/-! ### The halt and reset -/

/-- R245: in the halt a tick moves the script alone, until reset. -/
theorem tick_of_halted {s : Sys cfg} (hf : s.regs.fault = true) :
    s.tick = { s with regs := afterReset s.envNow s.regs, script := s.script.tail } :=
  tick_none s (transferOf_of_fault _ _ hf)

theorem envNow_of_cons {s : Sys cfg} {e : EnvTick} {es : List EnvTick} (h : s.script = e :: es) : s.envNow = e := by
  rw [Sys.envNow, h]

theorem tick_of_halted_reset {s : Sys cfg} {o : Offers} {es : List EnvTick} (hf : s.regs.fault = true)
    (hs : s.script = ⟨true, o⟩ :: es) : s.tick = { s with regs := Regs.reset cfg, script := es } := by
  rw [tick_of_halted hf, envNow_of_cons hs, hs]
  rfl

/-- R262 (b): a response that is not taken stays owed, unless a request is accepted beside it. -/
theorem responses_tick_of_not_taken {s : Sys cfg} (ho : s.envNow.offers.busResp = false)
    (hp : s.regs.phase.presentsRequest = false) : s.tick.responses = s.responses := by
  rcases tick_cases s with ⟨-, h⟩ | ⟨x, q, -, -, -, -, h⟩ | ⟨-, -, -, h⟩ | ⟨r, -, -, hreq, -⟩ |
    ⟨d, ds, -, -, hresp, -, -⟩
  · rw [h]
  · rw [h]
  · rw [h]
  · rcases hreq with ⟨hph, -⟩ | ⟨hph, -⟩ <;> simp [hph, Phase.presentsRequest] at hp
  · rw [ho] at hresp; cases hresp

end Sys2Proof.Machine

open Sys2Proof Sys2Proof.Machine

/-- Settles O39: the step is the run, and the run goes on until the machine has settled. -/
theorem everyStepIsTicksUntilSettled : Obligations.EveryStepIsTicksUntilSettled := fun _ s =>
  ⟨step_eq_runState s, run_settles s⟩

/-- Settles O38: between operations the step takes the decoder's answer. -/
theorem stepRunsTheDecodedCommand : Obligations.StepRunsTheDecodedCommand := by
  intro cfg s i rest hp hf hd
  exact step_of_decode_ok (by simp [Sys.betweenOperations, hp, hf]) hd

/-- Settles O40: the run of a waiting machine stays where it is. -/
theorem aWaitingMachineHolds : Obligations.AWaitingMachineHolds := by
  intro cfg s hf hs hw
  rw [step_of_running hf, run_of_waiting hs hw]

/-- Settles O44: both steps are runs, and the stalled run comes to what the unstalled one does. -/
theorem stallsChangeNoValue : Obligations.StallsChangeNoValue := by
  intro cfg s h hf
  refine ⟨s.run, s.calm.run, step_of_running hf, step_of_running hf, ?_⟩
  rw [calm_run s h hf, calm_of_script_nil _ (run_script_nil rfl)]

/-- Settles O58: without a reset the machine is halted; with one, its first tick resets it, which ends the step. -/
theorem onlyResetLeavesTheHalt : Obligations.OnlyResetLeavesTheHalt := by
  intro cfg s hf hp
  refine ⟨fun hn => ⟨?_, fun i => ?_⟩, fun o es hs => ?_⟩
  · rw [step_eq_runState, runState_of_halted hf hn]
  · rw [exec_eq_runState]
    exact runState_of_halted hf hn
  · have hnot : s.halted = false := by simp [Sys.halted, hs]
    have htick : s.tick = { s with regs := Regs.reset cfg, script := es } := tick_of_halted_reset hf hs
    have hend : s.run = s.tick := run_of_opEnd (by rw [hp]; decide) (by rw [htick]; rfl)
    rw [step_eq_runState, runState_of_not_halted hnot, hend, htick]

/-- Settles O59: reset comes before every phase, and the bus keeps what was not taken. -/
theorem resetForgetsTheOutstandingRequest : Obligations.ResetForgetsTheOutstandingRequest := by
  intro cfg s o es hs
  have he : s.envNow = ⟨true, o⟩ := envNow_of_cons hs
  refine ⟨?_, by rw [tick_script, hs]; rfl, fun ho hp => responses_tick_of_not_taken (by rw [he]; exact ho) hp⟩
  rw [tick_regs, coreStep_of_reset]
  rw [he]
  rfl

/-- Settles O60: the placed chunks are the frame of the instruction they decode to. -/
theorem placedInstructionRunsNext : Obligations.PlacedInstructionRunsNext := by
  intro cfg s nbits w i hd
  obtain ⟨-, hframe⟩ := decodingTakesExactlyOneFrame cfg _ _ _ hd
  rw [List.append_nil] at hframe
  rw [State.withFetchWord, step_eq_runState, exec_eq_runState, hframe]
  rfl

/-- Settles O11: the halt comes before every phase, and closes every handshake. -/
theorem haltHoldsTheMachine : Obligations.HaltHoldsTheMachine := by
  intro cfg I S hf
  obtain ⟨hin, hout, hreq, hresp⟩ := handshakes_of_fault hf
  exact ⟨fun hr => coreStep_of_no_transfer hr (transferOf_of_fault I S hf), hin, hout, hreq, hresp, hf⟩
end

section
/-! Proofs/PhaseGraph.lean: what a transfer does to phase and latch (R20, R243), and the offers that stand until they
are taken (R223). -/

namespace Sys2Proof.Machine

variable {cfg : Config}

/-- R20: the edges of the phase graph, self-loops and reset apart. -/
def phaseEdges : List (Phase × Phase) :=
  [(.command, .address), (.address, .length), (.length, .writeBody), (.length, .readRequest), (.writeBody, .writeIssue),
    (.writeIssue, .writeAck), (.writeAck, .writeBody), (.writeAck, .command), (.readRequest, .readData),
    (.readData, .readBody), (.readBody, .readRequest), (.readBody, .command)]

/-- The phase stays or moves along an edge. -/
def Phase.goesTo (p q : Phase) : Prop := q = p ∨ (p, q) ∈ phaseEdges

theorem onLength_of_last_phase {x : BitVec cfg.w} {S : Regs cfg} (h : isLastSlot S.idx = true) :
    (onLength x S).phase =
      if S.cmd.toNat = writeCode then .writeBody else if S.cmd.toNat = readCode then .readRequest else S.phase := by
  rw [onLength_of_last _ _ h, dispatchCommand_phase]

theorem onChunk_goesTo (x : BitVec cfg.w) (S : Regs cfg) : S.phase.goesTo (onChunk x S).phase := by
  unfold onChunk
  cases hp : S.phase with
  | command => exact .inr (by rw [onCommand_phase]; decide)
  | address =>
    rw [onAddress_phase, hp]
    split_ifs
    · exact .inr (by decide)
    · exact .inl rfl
  | length =>
    cases hl : isLastSlot S.idx with
    | false => exact .inl (by rw [onLength_of_not_last _ _ hl, hp])
    | true =>
      rw [onLength_of_last_phase hl, hp]
      split_ifs
      · exact .inr (by decide)
      · exact .inr (by decide)
      · exact .inl rfl
  | writeBody =>
    rw [onWriteBody_phase, hp]
    split_ifs
    · exact .inr (by decide)
    · exact .inl rfl
  | writeIssue | writeAck | readRequest | readData | readBody => exact .inl hp

theorem onAccepted_goesTo (S : Regs cfg) : S.phase.goesTo (onAccepted S).phase := by
  unfold onAccepted
  cases hp : S.phase with
  | writeIssue => exact .inr (by rw [onWriteIssue_phase]; decide)
  | readRequest => exact .inr (by rw [onReadRequest_phase]; decide)
  | command | address | length | writeBody | writeAck | readData | readBody => exact .inl hp

theorem onResponse_goesTo (d : BitVec cfg.wordBits) (S : Regs cfg) : S.phase.goesTo (onResponse d S).phase := by
  unfold onResponse
  cases hp : S.phase with
  | writeAck =>
    rw [onWriteAck_phase]
    split_ifs
    · exact .inr (by decide)
    · exact .inr (by decide)
  | readData => exact .inr (by rw [onReadData_phase]; decide)
  | command | address | length | writeBody | writeIssue | readRequest | readBody => exact .inl hp

theorem onReadBody_goesTo {S : Regs cfg} (hp : S.phase = .readBody) : S.phase.goesTo (onReadBody S).phase := by
  rw [onReadBody_phase, hp]
  split_ifs
  · exact .inr (by decide)
  · exact .inr (by decide)
  · exact .inl rfl

/-- The phase after a transfer that fires. -/
theorem onTransfer_goesTo {I : Inputs cfg} {S : Regs cfg} {t : Transfer cfg}
    (h : transferOf I (outputs S) = some t) : S.phase.goesTo (onTransfer t S).phase := by
  cases t with
  | chunkIn x => exact onChunk_goesTo x S
  | chunkOut x =>
    obtain ⟨-, hp, -, -⟩ := transferOf_chunkOut h
    exact onReadBody_goesTo hp
  | request r => exact onAccepted_goesTo S
  | response d => exact onResponse_goesTo d S

theorem coreStep_of_transfer {I : Inputs cfg} {S : Regs cfg} {t : Transfer cfg} (hr : I.reset = false)
    (h : transferOf I (outputs S) = some t) : coreStep I S = onTransfer t S := by
  rw [coreStep_eq, if_neg (by simp [hr]), h]

/-! ### The latch -/

theorem onAccepted_fault (S : Regs cfg) : (onAccepted S).fault = S.fault := by
  unfold onAccepted
  split <;> rfl

theorem onResponse_fault (d : BitVec cfg.wordBits) (S : Regs cfg) : (onResponse d S).fault = S.fault := by
  unfold onResponse
  split
  · exact onWriteAck_fault S
  · rfl
  all_goals rfl

/-- R243: the last chunk of an unrecognised command's Length field. -/
def completesBadCommand (S : Regs cfg) : Prop :=
  S.phase = .length ∧ isLastSlot S.idx = true ∧ S.cmd.toNat ≠ readCode ∧ S.cmd.toNat ≠ writeCode

theorem onLength_fault {x : BitVec cfg.w} {S : Regs cfg} (hp : S.phase = .length) (hf : S.fault = false)
    (h : (onLength x S).fault = true) : completesBadCommand S := by
  cases hl : isLastSlot S.idx with
  | false => rw [onLength_of_not_last _ _ hl, hf] at h; cases h
  | true =>
    rw [onLength_of_last _ _ hl, dispatchCommand_fault] at h
    refine ⟨hp, hl, fun hr => ?_, fun hw => ?_⟩
    · simp [hr, hf, readCode, writeCode] at h
    · simp [hw, hf] at h

theorem onChunk_fault {x : BitVec cfg.w} {S : Regs cfg} (hf : S.fault = false) (h : (onChunk x S).fault = true) :
    completesBadCommand S := by
  unfold onChunk at h
  cases hp : S.phase with
  | command | address | writeBody | writeIssue | writeAck | readRequest | readData | readBody => simp [hp, hf] at h
  | length =>
    rw [hp] at h
    exact onLength_fault hp hf h

/-- What raising the fault leaves (R243). -/
theorem onLength_of_completesBadCommand {S : Regs cfg} (h : completesBadCommand S) (x : BitVec cfg.w) :
    onLength x S =
      { S with len := S.len ||| shiftChunk x S.idx.val, idx := slotOf S.addr, fault := true } := by
  obtain ⟨-, hl, hr, hw⟩ := h
  rw [onLength_of_last _ _ hl]
  exact dispatchCommand_of_unrecognised hr hw

end Sys2Proof.Machine

open Sys2Proof Sys2Proof.Machine

/-- Settles O23: without a transfer the phase stays, and every transfer goes along an edge. -/
theorem onlyListedPhaseEdges : Obligations.OnlyListedPhaseEdges := by
  intro cfg I S hr
  cases ht : transferOf I (outputs S) with
  | none => exact .inl (by rw [coreStep_of_no_transfer hr ht])
  | some t =>
    rw [coreStep_of_transfer hr ht]
    exact onTransfer_goesTo ht

/-- Settles O17: of the four transfers only a chunk can set the latch, and only by the dispatch of R134. -/
theorem onlyABadCommandRaisesTheFault : Obligations.OnlyABadCommandRaisesTheFault := by
  intro cfg I S hf hraised
  have hr : I.reset = false := Bool.eq_false_of_not_eq_true fun hr => by simp [coreStep_of_reset hr] at hraised
  cases ht : transferOf I (outputs S) with
  | none => rw [coreStep_of_no_transfer hr ht, hf] at hraised; cases hraised
  | some t =>
    have hstep : coreStep I S = onTransfer t S := coreStep_of_transfer hr ht
    rw [hstep] at hraised
    cases t with
    | chunkOut x => rw [onTransfer, onReadBody_fault, hf] at hraised; cases hraised
    | request r => rw [onTransfer, onAccepted_fault, hf] at hraised; cases hraised
    | response d => rw [onTransfer, onResponse_fault, hf] at hraised; cases hraised
    | chunkIn x =>
      obtain ⟨-, -, hv, -⟩ := transferOf_chunkIn ht
      obtain ⟨hp, hl, hrd, hwr⟩ : completesBadCommand S := onChunk_fault hf hraised
      refine ⟨hr, hp, hv, of_decide_eq_true hl, hrd, hwr, ?_⟩
      rw [coreStep_of_length hr hv hf hp, onLength_of_completesBadCommand ⟨hp, hl, hrd, hwr⟩]

/-- Settles O25: an offered chunk stands in ReadBody, an offered request in a phase that presents one, and each of these
phases holds until it is taken. -/
theorem offersStayUntilTaken : Obligations.OffersStayUntilTaken := by
  intro cfg I S hr
  refine ⟨fun hv hwait => ?_, fun hv hwait => ?_⟩
  · obtain ⟨hf, hp⟩ : S.fault = false ∧ S.phase = .readBody := by simpa [outputs] using hv
    rw [coreStep_of_readBody hr hf hp, if_neg (by simp [hwait])]
    exact ⟨hv, rfl⟩
  · obtain ⟨hf, hp⟩ : S.fault = false ∧ S.phase.presentsRequest = true := by simpa [outputs] using hv
    rw [coreStep_of_presentsRequest hr hf hp, if_neg (by simp [hwait])]
    exact ⟨hv, rfl⟩
end

section
/-! Proofs/Alignment.lean: where the Get lies in its word (R150, R156 to R160). All sizes are powers of two, so the
questions about bytes become questions about chunks. -/

namespace Sys2Proof.Machine

variable {cfg : Config}

/-! ### The address inside its word -/

theorem byteOffset_lt (a : BitVec cfg.wordBits) : byteOffset a < cfg.W := Nat.mod_lt _ cfg.W_pos

/-- R150: the byte offset is in the low bits that `BusAddr` keeps. -/
theorem toNat_busAddr_mod_W (a : BitVec cfg.wordBits) : (busAddr a).toNat % cfg.W = byteOffset a := by
  rw [toNat_busAddr, Nat.mod_mod_of_dvd _ cfg.W_dvd_two_pow_addrBits, byteOffset]

/-- An address less its byte offset, both truncated to whole words. -/
theorem sub_mod_W_mod {a M : Nat} {cfg : Config} (h : cfg.W ∣ M) : (a - a % cfg.W) % M = a % M - a % M % cfg.W := by
  obtain ⟨k, rfl⟩ := h
  have hsub : a - a % cfg.W = cfg.W * (a / cfg.W) := by
    have := Nat.mod_add_div a cfg.W; omega
  rw [hsub, Nat.mul_mod_mul_left, Nat.mod_mul_right_mod, Nat.mod_mul, Nat.add_sub_cancel_left]

theorem toNat_wordBase_eq_sub (a : BitVec cfg.wordBits) :
    (wordBase a).toNat = (busAddr a).toNat - (busAddr a).toNat % cfg.W := by
  rw [toNat_wordBase, toNat_busAddr, sub_mod_W_mod cfg.W_dvd_two_pow_addrBits]

/-- The bus address is the byte offset above the word's base. -/
theorem toNat_busAddr_eq_add (a : BitVec cfg.wordBits) :
    (busAddr a).toNat = (wordBase a).toNat + byteOffset a := by
  have hle : (busAddr a).toNat % cfg.W ≤ (busAddr a).toNat := Nat.mod_le ..
  rw [toNat_wordBase_eq_sub, ← toNat_busAddr_mod_W]
  omega

/-- A word at its base lies in the address space. -/
theorem wordBase_add_W_le (a : BitVec cfg.wordBits) : (wordBase a).toNat + cfg.W ≤ 2 ^ cfg.addrBits := by
  obtain ⟨k, hk⟩ := cfg.W_dvd_two_pow_addrBits
  obtain ⟨m, hm⟩ := Nat.dvd_of_mod_eq_zero (wordBase_mod_W a)
  have hlt : (wordBase a).toNat < 2 ^ cfg.addrBits := (wordBase a).isLt
  rw [hk, hm] at hlt
  rw [hk, hm]
  have hmk : m < k := Nat.lt_of_mul_lt_mul_left hlt
  calc cfg.W * m + cfg.W = cfg.W * (m + 1) := by rw [Nat.mul_succ]
    _ ≤ cfg.W * k := Nat.mul_le_mul_left _ hmk

/-- R266: a chunk-aligned address is at the first byte of its slot. -/
theorem byteOffset_of_chunkAligned {a : BitVec cfg.wordBits} (h : a.toNat % cfg.c = 0) :
    byteOffset a = (slotOf a).val * cfg.c := by
  have hmod : a.toNat % cfg.W % cfg.c = 0 := by rw [Nat.mod_mod_of_dvd _ cfg.c_dvd_W, h]
  exact (Nat.div_mul_cancel (Nat.dvd_of_mod_eq_zero hmod)).symm

theorem wordDistance_of_chunkAligned {a : BitVec cfg.wordBits} (h : a.toNat % cfg.c = 0) :
    wordDistance a = (cfg.N - (slotOf a).val) * cfg.c := by
  rw [wordDistance, byteOffset_of_chunkAligned h, Nat.sub_mul, cfg.N_mul_c]

/-! ### The raw size in chunks -/

theorem isPow2_W (cfg : Config) : isPow2 cfg.W = true := (isPow2_iff _).2 ⟨_, cfg.W_eq_pow⟩

theorem pos_of_isPow2 {n : Nat} (h : isPow2 n = true) : 0 < n := by
  obtain ⟨k, rfl⟩ := (isPow2_iff n).1 h
  exact Nat.two_pow_pos k

/-- Of two powers of two the smaller divides the larger. -/
theorem dvd_of_isPow2 {m n : Nat} (hm : isPow2 m = true) (hn : isPow2 n = true) (h : m ≤ n) : m ∣ n := by
  obtain ⟨j, rfl⟩ := (isPow2_iff m).1 hm
  obtain ⟨k, rfl⟩ := (isPow2_iff n).1 hn
  exact pow_dvd_pow 2 ((Nat.pow_le_pow_iff_right (by decide)).1 h)

theorem isPow2_of_dvd {m n : Nat} (hn : isPow2 n = true) (h : m ∣ n) : isPow2 m = true := by
  obtain ⟨k, rfl⟩ := (isPow2_iff n).1 hn
  obtain ⟨j, -, rfl⟩ := (Nat.dvd_prime_pow Nat.prime_two).1 h
  exact (isPow2_iff _).2 ⟨j, rfl⟩

/-- A number of chunks is a power of two exactly when its number of bytes is. -/
theorem isPow2_mul_c (n : Nat) : isPow2 (n * cfg.c) = isPow2 n := by
  rw [Bool.eq_iff_iff]
  constructor
  · exact fun h => isPow2_of_dvd h ⟨cfg.c, rfl⟩
  · intro h
    obtain ⟨k, rfl⟩ := (isPow2_iff n).1 h
    rw [cfg.c_eq_pow, ← Nat.pow_add]
    exact (isPow2_iff _).2 ⟨_, rfl⟩

/-- The slots from the address to the end of its word, or the chunks still wanted if these are fewer. -/
def rawChunks (addr len : BitVec cfg.wordBits) : Nat := min (cfg.N - (slotOf addr).val) (chunksWanted len)

theorem rawSize_of_chunkAligned {addr : BitVec cfg.wordBits} (h : addr.toNat % cfg.c = 0) (len : BitVec cfg.wordBits) :
    rawSize addr len = rawChunks addr len * cfg.c := by
  rw [rawSize, wordDistance_of_chunkAligned h, lenBytes, rawChunks, Nat.mul_min_mul_right]

/-- U10: the chunks wanted are `len + 1`, or none at all in the variant that wraps. -/
theorem chunksWanted_cases (len : BitVec cfg.wordBits) :
    chunksWanted len = len.toNat + 1 ∨ (chunksWanted len = 0 ∧ len.toNat + 1 = 2 ^ cfg.wordBits) := by
  have hlt : len.toNat < 2 ^ cfg.wordBits := len.isLt
  unfold chunksWanted
  split_ifs
  · by_cases hfull : len.toNat + 1 = 2 ^ cfg.wordBits
    · exact .inr ⟨by rw [hfull, Nat.mod_self], hfull⟩
    · exact .inl (Nat.mod_eq_of_lt (by omega))
  · exact .inl rfl

/-- A raw size that is a power of two counts the chunks wanted without a wrap. -/
theorem rawChunks_of_isPow2 {addr len : BitVec cfg.wordBits} (h : isPow2 (rawChunks addr len) = true) :
    rawChunks addr len = min (cfg.N - (slotOf addr).val) (len.toNat + 1) := by
  rcases chunksWanted_cases len with hw | ⟨hw, -⟩
  · rw [rawChunks, hw]
  · rw [rawChunks, hw, Nat.min_zero] at h
    exact absurd h (by decide)

theorem isPow2_N (cfg : Config) : isPow2 cfg.N = true := (isPow2_iff _).2 ⟨_, cfg.N_eq_pow⟩

/-! ### Alignment -/

theorem aligned_of_not_isPow2 {addr len : BitVec cfg.wordBits} (h : isPow2 (rawSize addr len) = false) :
    (getReq addr len).aligned = true := by
  rw [getReq_of_not_isPow2 h]
  exact decide_eq_true (wordBase_mod_W addr)

/-- A Get at the true address is aligned when its size divides the byte offset in the word. -/
theorem aligned_of_isPow2 {addr len : BitVec cfg.wordBits} (h : isPow2 (rawSize addr len) = true) :
    (getReq addr len).aligned = decide (byteOffset addr % rawSize addr len = 0) := by
  have hdvd : rawSize addr len ∣ cfg.W := dvd_of_isPow2 h (isPow2_W cfg) (rawSize_le_W addr len)
  rw [getReq_of_isPow2 h, BusReq.aligned, ← toNat_busAddr_mod_W, Nat.mod_mod_of_dvd _ hdvd]

/-- R159: every Get at a word boundary is aligned. -/
theorem aligned_of_mod_W {addr : BitVec cfg.wordBits} (h : addr.toNat % cfg.W = 0) (len : BitVec cfg.wordBits) :
    (getReq addr len).aligned = true := by
  cases hpow : isPow2 (rawSize addr len) with
  | false => exact aligned_of_not_isPow2 hpow
  | true => rw [aligned_of_isPow2 hpow, byteOffset, h, Nat.zero_mod, decide_eq_true rfl]

/-- The slots from slot `i` to the end of the word, if a power of two, divide `i`. -/
theorem mod_sub_of_isPow2 {i : Nat} (hi : i < cfg.N) (h : isPow2 (cfg.N - i) = true) : i % (cfg.N - i) = 0 := by
  have hdvd : cfg.N - i ∣ cfg.N := dvd_of_isPow2 h (isPow2_N cfg) (Nat.sub_le ..)
  have hsum : i + (cfg.N - i) = cfg.N := Nat.add_sub_cancel' (Nat.le_of_lt hi)
  rw [← Nat.add_mod_right i (cfg.N - i), hsum]
  exact Nat.mod_eq_zero_of_dvd hdvd

/-- R159 in chunks: a Get of `m` chunks at slot `i` is aligned when `m` divides `i`. -/
theorem aligned_of_rawChunks {addr len : BitVec cfg.wordBits} (ha : addr.toNat % cfg.c = 0)
    (h : isPow2 (rawChunks addr len) = true) :
    (getReq addr len).aligned = decide ((slotOf addr).val % rawChunks addr len = 0) := by
  have hraw : isPow2 (rawSize addr len) = true := by rw [rawSize_of_chunkAligned ha, isPow2_mul_c, h]
  rw [aligned_of_isPow2 hraw, rawSize_of_chunkAligned ha, byteOffset_of_chunkAligned ha, Nat.mul_mod_mul_right]
  simp [Nat.pos_iff_ne_zero.1 cfg.c_pos]

/-! ### The lanes of a Get -/

/-- R150, R157: both forms of the Get in one word. -/
theorem getReq_inside_word (addr len : BitVec cfg.wordBits) :
    (wordBase addr).toNat ≤ (getReq addr len).address.toNat ∧
      (getReq addr len).address.toNat + (getReq addr len).size ≤ (wordBase addr).toNat + cfg.W := by
  cases hpow : isPow2 (rawSize addr len) with
  | false =>
    rw [getReq_of_not_isPow2 hpow]
    exact ⟨Nat.le_refl _, Nat.le_refl _⟩
  | true =>
    have hraw : rawSize addr len ≤ cfg.W - byteOffset addr := Nat.min_le_left ..
    have hoff : byteOffset addr < cfg.W := byteOffset_lt addr
    rw [getReq_of_isPow2 hpow]
    simp only [toNat_busAddr_eq_add]
    omega

theorem isPow2_size_getReq (addr len : BitVec cfg.wordBits) : isPow2 (getReq addr len).size = true := by
  cases hpow : isPow2 (rawSize addr len) with
  | false => rw [getReq_of_not_isPow2 hpow]; exact isPow2_W cfg
  | true => rw [getReq_of_isPow2 hpow]; exact hpow

theorem rawSize_lt_W_of_not_isPow2 {addr len : BitVec cfg.wordBits} (h : isPow2 (rawSize addr len) = false) :
    rawSize addr len < cfg.W := by
  refine Nat.lt_of_le_of_ne (rawSize_le_W addr len) fun he => ?_
  rw [he, isPow2_W] at h
  cases h

theorem laneCovered_iff (r : BusReq cfg) (j : Nat) :
    laneCovered r j = true ↔ r.address.toNat % cfg.W ≤ j ∧ j < r.address.toNat % cfg.W + r.size := by
  simp [laneCovered]

/-- A slot below slot `i + m` ends at or before lane `(i + m) * c`. -/
theorem byteLane_lt_mul {j n b : Nat} (hj : j < n) (hb : b < cfg.c) : j * cfg.c + b < n * cfg.c :=
  calc j * cfg.c + b < (j + 1) * cfg.c := by rw [Nat.succ_mul]; exact Nat.add_lt_add_left hb _
    _ ≤ n * cfg.c := Nat.mul_le_mul_right _ hj

theorem requestBase_getReq (addr len : BitVec cfg.wordBits) :
    requestBase (getReq addr len) = (wordBase addr).toNat := by
  cases hpow : isPow2 (rawSize addr len) with
  | false => rw [getReq_of_not_isPow2 hpow, requestBase, wordBase_mod_W, Nat.sub_zero]
  | true => rw [getReq_of_isPow2 hpow, requestBase, ← toNat_wordBase_eq_sub]

/-- R160: both forms of the Get cover the slots from the address on that are wanted. -/
theorem laneCovered_getReq {addr len : BitVec cfg.wordBits} (ha : addr.toNat % cfg.c = 0) {j b : Nat}
    (hi : (slotOf addr).val ≤ j) (hj : j < (slotOf addr).val + min (cfg.N - (slotOf addr).val) (len.toNat + 1))
    (hb : b < cfg.c) : laneCovered (getReq addr len) (j * cfg.c + b) = true := by
  rw [laneCovered_iff]
  cases hpow : isPow2 (rawSize addr len) with
  | false =>
    have hjN : j < cfg.N := by have := (slotOf addr).isLt; omega
    rw [getReq_of_not_isPow2 hpow, wordBase_mod_W, Nat.zero_add]
    exact ⟨Nat.zero_le _, byteLane_lt hjN hb⟩
  | true =>
    have hchunks : isPow2 (rawChunks addr len) = true := by
      rwa [rawSize_of_chunkAligned ha, isPow2_mul_c] at hpow
    rw [getReq_of_isPow2 hpow, toNat_busAddr_mod_W, byteOffset_of_chunkAligned ha, rawSize_of_chunkAligned ha,
      rawChunks_of_isPow2 hchunks, ← Nat.add_mul]
    exact ⟨Nat.le_trans (Nat.mul_le_mul_right _ hi) (Nat.le_add_right ..), byteLane_lt_mul hj hb⟩

/-! ### What the requests see of the address -/

theorem byteOffset_congr {a b : BitVec cfg.wordBits} (h : busAddr a = busAddr b) : byteOffset a = byteOffset b := by
  rw [← toNat_busAddr_mod_W, h, toNat_busAddr_mod_W]

theorem wordBase_congr {a b : BitVec cfg.wordBits} (h : busAddr a = busAddr b) : wordBase a = wordBase b := by
  apply BitVec.eq_of_toNat_eq
  rw [toNat_wordBase_eq_sub, toNat_wordBase_eq_sub, h]

theorem getReq_congr {a b : BitVec cfg.wordBits} (h : busAddr a = busAddr b) (len : BitVec cfg.wordBits) :
    getReq a len = getReq b len := by
  have hraw : rawSize a len = rawSize b len := by rw [rawSize, rawSize, wordDistance, wordDistance, byteOffset_congr h]
  cases hpow : isPow2 (rawSize a len) with
  | false => rw [getReq_of_not_isPow2 hpow, getReq_of_not_isPow2 (hraw ▸ hpow), wordBase_congr h]
  | true => rw [getReq_of_isPow2 hpow, getReq_of_isPow2 (hraw ▸ hpow), h, hraw]

theorem putReq_congr {a b : BitVec cfg.wordBits} (h : busAddr a = busAddr b) (body : Vector (BitVec cfg.w) cfg.N)
    (valid : BitVec cfg.N) : putReq a body valid = putReq b body valid := by
  rw [putReq, putReq, wordBase_congr h]

end Sys2Proof.Machine

open Sys2Proof Sys2Proof.Machine

/-- Settles O30: the request is the only output made of the address, and both requests take its low bits. -/
theorem upperAddressBitsReachNoOutput : Obligations.UpperAddressBitsReachNoOutput := by
  intro cfg S b h
  simp only [outputs, presentedRequest, getReq_congr h, putReq_congr h]

/-- Settles O33: by the two sides of R157. -/
theorem getStaysInsideOneWord : Obligations.GetStaysInsideOneWord := by
  intro cfg addr len r
  have hpow : isPow2 r.size = true := isPow2_size_getReq addr len
  obtain ⟨hbase, hend⟩ : (wordBase addr).toNat ≤ r.address.toNat ∧
    r.address.toNat + r.size ≤ (wordBase addr).toNat + cfg.W := getReq_inside_word addr len
  have hsize : r.size ≤ cfg.W := by omega
  refine ⟨(isPow2_iff _).1 hpow, pos_of_isPow2 hpow, hsize, hbase, hend, fun hraw => ?_, fun hraw => ?_⟩
  · have hr : r.size = rawSize addr len := congrArg BusReq.size (getReq_of_isPow2 hraw)
    rw [hr]
    exact ⟨Nat.min_le_left .., Nat.min_le_right ..⟩
  · have hr : r.size = cfg.W := congrArg BusReq.size (getReq_of_not_isPow2 hraw)
    rw [hr]
    exact ⟨rfl, rawSize_lt_W_of_not_isPow2 hraw⟩

/-- Settles O34: the fallback is aligned, and so is a Get that reaches the end of its word; what is left is a Get of
all the chunks wanted, short of the end. -/
theorem misalignedGetsAreExactlyTheListed : Obligations.MisalignedGetsAreExactlyTheListed := by
  intro cfg addr len ha i T
  have hi : i < cfg.N := (slotOf addr).isLt
  rw [← isPow2_iff]
  cases hpow : isPow2 (rawChunks addr len) with
  | false =>
    have haligned : (getReq addr len).aligned = true :=
      aligned_of_not_isPow2 (by rw [rawSize_of_chunkAligned ha, isPow2_mul_c, hpow])
    rw [haligned]
    refine ⟨fun h => absurd h (by decide), fun ⟨hT, hshort, _⟩ => ?_⟩
    have hN : cfg.N < 2 ^ cfg.wordBits := cfg.N_lt_two_pow_wordBits
    rcases chunksWanted_cases len with hw | ⟨-, hw⟩
    · rw [rawChunks, hw, Nat.min_eq_right (Nat.le_of_lt hshort), hT] at hpow
      cases hpow
    · omega
  | true =>
    have hm : rawChunks addr len = min (cfg.N - i) T := rawChunks_of_isPow2 hpow
    rw [aligned_of_rawChunks ha hpow, decide_eq_false_iff_not]
    by_cases hshort : T < cfg.N - i
    · rw [Nat.min_eq_right (Nat.le_of_lt hshort)] at hm
      rw [hm] at hpow ⊢
      exact ⟨fun h => ⟨hpow, hshort, h⟩, fun h => h.2.2⟩
    · rw [Nat.min_eq_left (Nat.le_of_not_lt hshort)] at hm
      rw [hm] at hpow ⊢
      exact ⟨fun h => absurd (mod_sub_of_isPow2 hi hpow) h, fun h => absurd h.2.1 hshort⟩

/-- Settles O35: the true address covers the chunks wanted from its slot on, and the fallback covers the word. -/
theorem emittedSlotsAreCovered : Obligations.EmittedSlotsAreCovered := fun _ _ _ ha _ _ hi hj hb =>
  laneCovered_getReq ha hi hj hb

/-- Settles O36: what the lanes of the word write, and one acknowledgement more. -/
theorem putWritesExactlyTheMaskedLanes : Obligations.PutWritesExactlyTheMaskedLanes := by
  intro cfg s r hwf hput
  rw [busAccept_put r s hput]
  exact ⟨fun a => read_writeLanes _ _ _ _ hwf a, by rw [List.length_append, List.length_singleton]⟩

/-- Settles O37: byte `j` of the answer is the byte that its lane was made of. -/
theorem getAnswersInNaturalLanes : Obligations.GetAnswersInNaturalLanes := by
  intro cfg s r hget haligned
  rw [busAccept_get r s hget (.inl haligned)]
  refine ⟨_, rfl, rfl, fun j hj hcov => ?_⟩
  rw [getAnswer, if_pos haligned, getWord, byteOf_ofBytesLE _ _ _ _ hj (Nat.le_of_eq cfg.eight_mul_W), if_pos hcov]
  rfl
end

section
/-! Proofs/Invariants.lean: the invariants of R30 and R31 tick by tick. What `Sys.Inv` asks of the registers is sorted
by phase (`Regs.phaseInv`), so that a transition shows only what its next phase asks for. -/

namespace Sys2Proof.Machine

variable {cfg : Config}

/-! ### The registers -/

/-- R154, R176: the slots written are those from some slot on up to, not including, slot `stop`. -/
def runBelow (valid : BitVec cfg.N) (idx stop : Nat) : Prop :=
  ∃ first, first ≤ idx ∧ ∀ i, valid.getLsbD i = (decide (first ≤ i) && decide (i < stop))

/-- What R31 asks of the registers of each phase. -/
def phaseInv (S : Regs cfg) : Prop :=
  match S.phase with
  | .command | .address | .length => True
  | .writeBody => S.cmd.toNat = writeCode ∧ runBelow S.valid S.idx.val S.idx.val
  | .writeIssue | .writeAck => S.cmd.toNat = writeCode ∧ runBelow S.valid S.idx.val (S.idx.val + 1)
  | .readRequest | .readData => S.cmd.toNat = readCode ∧ S.idx = slotOf S.addr
  | .readBody => S.cmd.toNat = readCode ∧ S.addr.toNat % cfg.W = 0

/-- R243: the latch is raised in phase Length only, where the machine then stays. -/
def faultInv (S : Regs cfg) : Prop := S.fault = true → S.phase = .length

/-- The memory in canonical form and inside the address space (R36). -/
def memoryInv (cfg : Config) (m : Memory) : Prop := m.wf = true ∧ ∀ e ∈ m, e.1 < 2 ^ cfg.addrBits

/-- The invariant is that of the memory and that of the registers' phase. -/
theorem inv_iff (s : Sys cfg) :
    s.Inv ↔ memoryInv cfg s.mem ∧ faultInv s.regs ∧ phaseInv s.regs := by
  constructor
  · rintro ⟨hwf, hspace, hfault, hw, hr, hbody, hissue, hslot, halign⟩
    refine ⟨⟨hwf, hspace⟩, hfault, ?_⟩
    unfold phaseInv
    cases hp : s.regs.phase with
    | command | address | length => trivial
    | writeBody => exact ⟨hw (.inl hp), hbody hp⟩
    | writeIssue => exact ⟨hw (.inr (.inl hp)), by simpa [runBelow, Nat.lt_succ_iff] using hissue (.inl hp)⟩
    | writeAck => exact ⟨hw (.inr (.inr hp)), by simpa [runBelow, Nat.lt_succ_iff] using hissue (.inr hp)⟩
    | readRequest => exact ⟨hr (.inl hp), hslot (.inl hp)⟩
    | readData => exact ⟨hr (.inr (.inl hp)), hslot (.inr hp)⟩
    | readBody => exact ⟨hr (.inr (.inr hp)), halign hp⟩
  · rintro ⟨⟨hwf, hspace⟩, hfault, hphase⟩
    unfold phaseInv at hphase
    refine ⟨hwf, hspace, hfault, ?_, ?_, ?_, ?_, ?_, ?_⟩
    all_goals
      cases hp : s.regs.phase with
      | command | address | length => simp
      | writeBody | writeIssue | writeAck | readRequest | readData | readBody =>
        simp only [hp] at hphase
        simp_all [runBelow]

theorem phaseInv_of_command {S : Regs cfg} (hp : S.phase = .command) : phaseInv S := by
  simp only [phaseInv, hp]

theorem runBelow_emptyMask (idx : Nat) : runBelow (emptyMask cfg) idx idx :=
  ⟨idx, Nat.le_refl _, fun i => by simp [emptyMask]⟩

/-- R170: marking the slot at the end of the run makes the run one longer. -/
theorem runBelow_markValid {valid : BitVec cfg.N} {i : Fin cfg.N} (h : runBelow valid i.val i.val) :
    runBelow (markValid valid i) i.val (i.val + 1) := by
  obtain ⟨first, hfirst, hbits⟩ := h
  refine ⟨first, hfirst, fun j => ?_⟩
  rw [markValid_getLsbD, hbits, Bool.eq_iff_iff]
  simp only [Bool.or_eq_true, Bool.and_eq_true, decide_eq_true_eq]
  omega

theorem runBelow_mono {valid : BitVec cfg.N} {i j stop : Nat} (h : runBelow valid i stop) (hij : i ≤ j) :
    runBelow valid j stop := by
  obtain ⟨first, hfirst, hbits⟩ := h
  exact ⟨first, Nat.le_trans hfirst hij, hbits⟩

theorem phaseInv_dispatchCommand {S : Regs cfg} (hp : S.phase = .length) (hi : S.idx = slotOf S.addr) :
    phaseInv (dispatchCommand S) := by
  by_cases hw : S.cmd.toNat = writeCode
  · rw [dispatchCommand_of_write hw]
    exact ⟨hw, runBelow_emptyMask _⟩
  · by_cases hr : S.cmd.toNat = readCode
    · rw [dispatchCommand_of_read hr]
      exact ⟨hr, hi⟩
    · rw [dispatchCommand_of_unrecognised hr hw, phaseInv, raiseBadCommand_phase, hp]
      trivial

theorem phaseInv_onLength (x : BitVec cfg.w) {S : Regs cfg} (hp : S.phase = .length) : phaseInv (onLength x S) := by
  cases hl : isLastSlot S.idx with
  | true =>
    rw [onLength_of_last _ _ hl]
    exact phaseInv_dispatchCommand hp rfl
  | false =>
    rw [onLength_of_not_last _ _ hl, phaseInv]
    simp only [hp]

theorem phaseInv_onWriteBody (x : BitVec cfg.w) {S : Regs cfg} (hp : S.phase = .writeBody) (h : phaseInv S) :
    phaseInv (onWriteBody x S) := by
  simp only [phaseInv, hp] at h
  obtain ⟨hcmd, hrun⟩ := h
  have hmark := runBelow_markValid hrun
  by_cases hdone : isLastSlot S.idx = true ∨ S.len = 0#_
  · rw [onWriteBody_of_complete x hdone]
    exact ⟨hcmd, hmark⟩
  · obtain ⟨hi, hl⟩ := not_or.1 hdone
    have hi' : isLastSlot S.idx = false := Bool.eq_false_of_not_eq_true hi
    rw [onWriteBody_of_not_complete x hi' hl]
    simp only [phaseInv, hp, nextSlot_val _ hi']
    exact ⟨hcmd, runBelow_mono hmark (Nat.le_succ _)⟩

theorem phaseInv_onChunk (x : BitVec cfg.w) {S : Regs cfg} (h : phaseInv S) : phaseInv (onChunk x S) := by
  unfold onChunk
  cases hp : S.phase with
  | command => trivial
  | address =>
    rw [phaseInv, onAddress_phase, hp]
    split_ifs <;> trivial
  | length => exact phaseInv_onLength x hp
  | writeBody => exact phaseInv_onWriteBody x hp h
  | writeIssue | writeAck | readRequest | readData | readBody => exact h

theorem phaseInv_onAccepted {S : Regs cfg} (h : phaseInv S) : phaseInv (onAccepted S) := by
  unfold onAccepted
  cases hp : S.phase with
  | writeIssue | readRequest =>
    simp only [phaseInv, hp] at h
    exact h
  | command | address | length | writeBody | writeAck | readData | readBody => exact h

theorem phaseInv_onResponse (d : BitVec cfg.wordBits) {S : Regs cfg} (h : phaseInv S) : phaseInv (onResponse d S) := by
  unfold onResponse
  cases hp : S.phase with
  | writeAck =>
    simp only [phaseInv, hp] at h
    obtain ⟨hcmd, -⟩ := h
    by_cases hl : S.len = 0#_
    · exact phaseInv_of_command (by rw [onWriteAck_of_last hl])
    · simp only [onWriteAck_of_not_last hl]
      exact ⟨hcmd, runBelow_emptyMask _⟩
  | readData =>
    simp only [phaseInv, hp] at h
    exact ⟨h.1, nextAddr_mod_W _⟩
  | command | address | length | writeBody | writeIssue | readRequest | readBody => exact h

/-- At a word boundary the slot of the address is slot 0. -/
theorem slotOf_of_mod_W {a : BitVec cfg.wordBits} (h : a.toNat % cfg.W = 0) : slotOf a = slotZero cfg := by
  apply Fin.ext
  rw [val_slotOf, h, Nat.zero_div]
  rfl

theorem phaseInv_onReadBody {S : Regs cfg} (hp : S.phase = .readBody) (h : phaseInv S) : phaseInv (onReadBody S) := by
  simp only [phaseInv, hp] at h
  obtain ⟨hcmd, halign⟩ := h
  unfold onReadBody
  by_cases hl : S.len = 0#_
  · exact phaseInv_of_command (by rw [if_pos hl])
  · rw [if_neg hl]
    by_cases hi : isLastSlot S.idx = true
    · rw [if_pos hi]
      exact ⟨hcmd, (nextSlot_of_last _ hi).trans (slotOf_of_mod_W halign).symm⟩
    · rw [if_neg hi]
      simp only [phaseInv, hp]
      exact ⟨hcmd, halign⟩

theorem phaseInv_onTransfer {I : Inputs cfg} {S : Regs cfg} {t : Transfer cfg} (ht : transferOf I (outputs S) = some t)
    (h : phaseInv S) : phaseInv (onTransfer t S) := by
  cases t with
  | chunkIn x => exact phaseInv_onChunk x h
  | chunkOut x =>
    obtain ⟨-, hp, -, -⟩ := transferOf_chunkOut ht
    exact phaseInv_onReadBody hp h
  | request r => exact phaseInv_onAccepted h
  | response d => exact phaseInv_onResponse d h

theorem phaseInv_coreStep (I : Inputs cfg) {S : Regs cfg} (h : phaseInv S) : phaseInv (coreStep I S) := by
  cases hr : I.reset with
  | true => rw [coreStep_of_reset hr]; exact phaseInv_of_command reset_phase
  | false =>
    cases ht : transferOf I (outputs S) with
    | none => rw [coreStep_of_no_transfer hr ht]; exact h
    | some t => rw [coreStep_of_transfer hr ht]; exact phaseInv_onTransfer ht h

theorem faultInv_coreStep (I : Inputs cfg) {S : Regs cfg} (h : faultInv S) : faultInv (coreStep I S) := by
  intro hraised
  cases hr : I.reset with
  | true => rw [coreStep_of_reset hr] at hraised; cases hraised
  | false =>
    cases hf : S.fault with
    | true =>
      obtain ⟨hhold, -⟩ := haltHoldsTheMachine cfg I S hf
      rw [hhold hr, h hf]
    | false =>
      obtain ⟨-, hp, -, -, -, -, heffect⟩ := onlyABadCommandRaisesTheFault cfg I S hf hraised
      rw [heffect]
      exact hp

/-! ### The memory -/

theorem memoryInv_busAccept_put {s : Sys cfg} (addr : BitVec cfg.wordBits) (body : Vector (BitVec cfg.w) cfg.N)
    (valid : BitVec cfg.N) (h : memoryInv cfg s.mem) : memoryInv cfg (busAccept (putReq addr body valid) s).mem := by
  obtain ⟨hwf, hspace⟩ := h
  rw [busAccept_put _ _ rfl]
  refine ⟨writeLanes_wf _ _ _ _ _ _ hwf, writeLanes_inSpace _ _ _ _ _ _ _ hspace ?_⟩
  rw [Nat.zero_add]
  exact wordBase_add_W_le addr

theorem mem_busAccept_get {r : BusReq cfg} (s : Sys cfg) (h : r.opcode = .get) : (busAccept r s).mem = s.mem := by
  by_cases ha : r.aligned = true ∨ s.answersMisaligned = true
  · rw [busAccept_get r s h ha]
  · obtain ⟨h1, h2⟩ : r.aligned = false ∧ s.answersMisaligned = false := by simpa using ha
    rw [busAccept_unanswered r s h h1 h2]

/-- Only a Put writes memory. -/
theorem memoryInv_tick {s : Sys cfg} (h : memoryInv cfg s.mem) : memoryInv cfg s.tick.mem := by
  rcases tick_cases s with ⟨-, ht⟩ | ⟨x, q, -, -, -, -, ht⟩ | ⟨-, -, -, ht⟩ | ⟨r, -, -, hr, ht⟩ |
    ⟨d, ds, -, -, -, -, ht⟩
  · rw [ht]; exact h
  · rw [ht]; exact h
  · rw [ht]; exact h
  · rw [ht]
    rcases hr with ⟨-, rfl⟩ | ⟨-, rfl⟩
    · exact memoryInv_busAccept_put _ _ _ h
    · rw [mem_busAccept_get _ rfl]; exact h
  · rw [ht]; exact h

theorem Sys.Inv.tick {s : Sys cfg} (h : s.Inv) : s.tick.Inv := by
  obtain ⟨hmem, hfault, hphase⟩ := (inv_iff s).1 h
  exact (inv_iff _).2 ⟨memoryInv_tick hmem, faultInv_coreStep _ hfault, phaseInv_coreStep _ hphase⟩

/-! ### The response owed -/

theorem Sys.noReset.tick {s : Sys cfg} (h : s.noReset) : s.tick.noReset := by
  unfold Sys.noReset at h ⊢
  rw [tick_script]
  cases hs : s.script with
  | nil => rfl
  | cons e es =>
    rw [hs, List.all_cons, Bool.and_eq_true] at h
    exact h.2

theorem Sys.noReset.afterReset {s : Sys cfg} (h : s.noReset) (S : Regs cfg) : afterReset s.envNow S = S := by
  have hr : s.envNow.reset = false := by
    unfold Sys.noReset at h
    cases hs : s.script with
    | nil => rw [Sys.envNow, hs]
    | cons e es =>
      rw [envNow_of_cons hs]
      rw [hs, List.all_cons, Bool.and_eq_true, Bool.not_eq_true'] at h
      exact h.1
  rw [Machine.afterReset, hr]
  rfl

/-- R30, R61 by the kind of the phase. -/
theorem oneOutstanding_iff (s : Sys cfg) :
    s.OneOutstanding ↔ s.noReset ∧ s.responses.length ≤ 1 ∧ (s.regs.phase = .writeAck → s.responses.length = 1) ∧
      (s.regs.phase.takesResponse = false → s.responses = []) := by
  constructor
  · rintro ⟨hn, hack, hdata, hothers⟩
    cases hp : s.regs.phase with
    | writeAck => simp [hn, hack hp, Phase.takesResponse]
    | readData => simp [hn, hdata hp, Phase.takesResponse]
    | command | address | length | writeBody | writeIssue | readRequest | readBody =>
      simp [hn, hothers (by simp [hp]) (by simp [hp])]
  · rintro ⟨hn, hle, hack, hothers⟩
    refine ⟨hn, hack, fun _ => hle, fun h1 h2 => hothers ?_⟩
    cases hp : s.regs.phase <;> simp_all [Phase.takesResponse]

/-- From a phase that neither takes a response nor presents a request no edge leads to one that takes a response. -/
theorem takesResponse_of_goesTo {p q : Phase} (h : p.goesTo q) (hp : p.takesResponse = false)
    (hr : p.presentsRequest = false) : q.takesResponse = false := by
  have hedges : ∀ e ∈ phaseEdges, e.1.takesResponse = false → e.1.presentsRequest = false →
      e.2.takesResponse = false := by decide
  rcases h with rfl | h
  · exact hp
  · exact hedges _ h hp hr

theorem oneOutstanding_of_none {s : Sys cfg} (hn : s.noReset) (hr : s.responses = [])
    (hp : s.regs.phase.takesResponse = false) : s.OneOutstanding :=
  (oneOutstanding_iff s).2 ⟨hn, by simp [hr], fun h => by simp [h, Phase.takesResponse] at hp, fun _ => hr⟩

/-- A chunk moves no response (R30). -/
theorem Sys.OneOutstanding.of_goesTo {s t : Sys cfg} (h : s.OneOutstanding) (hn : t.noReset)
    (hp : s.regs.phase.takesResponse = false) (hr : s.regs.phase.presentsRequest = false)
    (hgo : s.regs.phase.goesTo t.regs.phase) (ht : t.responses = s.responses) : t.OneOutstanding := by
  obtain ⟨-, -, -, hnone⟩ := (oneOutstanding_iff s).1 h
  exact oneOutstanding_of_none hn (ht.trans (hnone hp)) (takesResponse_of_goesTo hgo hp hr)

theorem takesChunk_closes_bus {p : Phase} (h : p.takesChunk = true) :
    p.takesResponse = false ∧ p.presentsRequest = false := by
  cases p <;> simp_all [Phase.takesChunk, Phase.takesResponse, Phase.presentsRequest]

theorem takesResponse_onResponse (d : BitVec cfg.wordBits) {S : Regs cfg}
    (hp : S.phase = .writeAck ∨ S.phase = .readData) : (onResponse d S).phase.takesResponse = false := by
  unfold onResponse
  rcases hp with hp | hp
  · rw [hp, onWriteAck_phase]
    split_ifs <;> rfl
  · rw [hp]
    rfl

/-- R61: a request is accepted only when no response is owed. -/
theorem Sys.OneOutstanding.responses_nil {s : Sys cfg} (h : s.OneOutstanding)
    (hp : s.regs.phase = .writeIssue ∨ s.regs.phase = .readRequest) : s.responses = [] := by
  obtain ⟨-, -, -, hnone⟩ := (oneOutstanding_iff s).1 h
  exact hnone (by rcases hp with hp | hp <;> rw [hp] <;> rfl)

theorem length_responses_busAccept_get {r : BusReq cfg} (s : Sys cfg) (h : r.opcode = .get) :
    (busAccept r s).responses.length ≤ s.responses.length + 1 := by
  by_cases ha : r.aligned = true ∨ s.answersMisaligned = true
  · rw [busAccept_get r s h ha, List.length_append, List.length_singleton]
  · obtain ⟨h1, h2⟩ : r.aligned = false ∧ s.answersMisaligned = false := by simpa using ha
    rw [busAccept_unanswered r s h h1 h2]
    exact Nat.le_succ _

theorem Sys.OneOutstanding.tick {s : Sys cfg} (h : s.OneOutstanding) : s.tick.OneOutstanding := by
  obtain ⟨hn, hle, hack, hnone⟩ := (oneOutstanding_iff s).1 h
  have hnt : s.tick.noReset := hn.tick
  rcases tick_cases s with ⟨-, ht⟩ | ⟨x, q, -, hp, -, -, ht⟩ | ⟨-, hp, -, ht⟩ | ⟨r, -, -, hr, ht⟩ |
    ⟨d, ds, -, hp, -, hd, ht⟩ <;> rw [hn.afterReset] at ht
  · exact (oneOutstanding_iff _).2 ⟨hnt, by rw [ht]; exact ⟨hle, hack, hnone⟩⟩
  · obtain ⟨hresp, hreq⟩ := takesChunk_closes_bus hp
    exact h.of_goesTo hnt hresp hreq (by rw [ht]; exact onChunk_goesTo x _) (by rw [ht])
  · exact h.of_goesTo hnt (by rw [hp]; rfl) (by rw [hp]; rfl) (by rw [ht]; exact onReadBody_goesTo hp) (by rw [ht])
  · rcases hr with ⟨hp, rfl⟩ | ⟨hp, rfl⟩
    · have hnil : s.responses = [] := h.responses_nil (.inl hp)
      rw [onAccepted_of_writeIssue hp, busAccept_put _ _ rfl] at ht
      refine (oneOutstanding_iff _).2 ⟨hnt, ?_⟩
      rw [ht]
      simp [hnil, Phase.takesResponse]
    · have hnil : s.responses = [] := h.responses_nil (.inr hp)
      have hlen := length_responses_busAccept_get (r := getReq s.regs.addr s.regs.len)
        (s.record (.request (getReq s.regs.addr s.regs.len))) rfl
      rw [record_responses, hnil] at hlen
      rw [onAccepted_of_readRequest hp] at ht
      refine (oneOutstanding_iff _).2 ⟨hnt, ?_⟩
      rw [ht]
      exact ⟨hlen, by simp, by simp [Phase.takesResponse]⟩
  · have hds : ds = [] := by
      rw [hd, List.length_cons] at hle
      exact List.eq_nil_of_length_eq_zero (by omega)
    exact oneOutstanding_of_none hnt (by rw [ht, hds]) (by rw [ht]; exact takesResponse_onResponse d hp)

/-! ### The machine after reset -/

theorem reset_inv (cfg : Config) : (Sys.reset cfg).Inv :=
  (inv_iff _).2 ⟨⟨rfl, by simp [Sys.reset]⟩, by simp [faultInv, Sys.reset], phaseInv_of_command rfl⟩

theorem reset_oneOutstanding (cfg : Config) : (Sys.reset cfg).OneOutstanding := oneOutstanding_of_none rfl rfl rfl

theorem reset_ready (cfg : Config) : (Sys.reset cfg).ready := ⟨⟨rfl, rfl⟩, rfl, rfl, rfl⟩

end Sys2Proof.Machine

open Sys2Proof Sys2Proof.Machine

/-- Settles O42: memory, latch and phase each keep their part in a tick, and a step is ticks. -/
theorem stepKeepsTheInvariant : Obligations.StepKeepsTheInvariant := fun _ _ _ hs ht =>
  step_induct (P := Sys.Inv) (fun _ h => h.tick) hs ht

/-- Settles O43: the phase of a request that fires takes no response, and every kind of tick keeps the count. -/
theorem oneRequestOutstanding : Obligations.OneRequestOutstanding := by
  intro cfg s h
  obtain ⟨-, hle, -, -⟩ := (oneOutstanding_iff s).1 h
  refine ⟨fun r hr => ?_, hle, h.tick, fun t ht => step_induct (P := Sys.OneOutstanding) (fun _ h => h.tick) h ht⟩
  obtain ⟨-, -, hreq⟩ := transferOf_request hr
  have hp : s.regs.phase = .writeIssue ∨ s.regs.phase = .readRequest := hreq.imp And.left And.left
  exact ⟨h.responses_nil hp, hp⟩

/-- Settles O41: the reset registers are constants, and each invariant holds in phase Command with nothing owed. -/
theorem resetMachineIsGood : Obligations.ResetMachineIsGood :=
  ⟨rfl, fun cfg => ⟨reset_phase, reset_cmd, reset_addr, reset_len, fun i => reset_body i i.isLt, reset_valid, rfl,
    reset_fault, reset_inv cfg, reset_oneOutstanding cfg, reset_ready cfg⟩⟩
end

section
/-! Proofs/WordByWord.lean: the arithmetic of spec/40_commands.md from one word of an operation to the next. An
operation at address `A` with `L + 1` chunks to move goes on, after its first word, as the operation at the next word
boundary with the chunks that are left. -/

namespace Sys2Proof.Machine

variable {cfg : Config}

theorem startSlot_lt (cfg : Config) (A : Nat) : startSlot cfg A < cfg.N := slotOf_lt cfg A

theorem startSlot_of_mod_W {A : Nat} (h : A % cfg.W = 0) : startSlot cfg A = 0 := by
  rw [startSlot, h, Nat.zero_div]

theorem val_slotOf_eq_startSlot (a : BitVec cfg.wordBits) : (slotOf a).val = startSlot cfg a.toNat := rfl

theorem firstSlot_of_mod_W {A : Nat} (h : A % cfg.W = 0) (k : Nat) : firstSlot cfg A k = 0 := by
  rw [firstSlot, startSlot_of_mod_W h, ite_self]

theorem chunksBefore_of_mod_W {A : Nat} (h : A % cfg.W = 0) (k : Nat) : chunksBefore cfg A k = k * cfg.N := by
  rw [chunksBefore, startSlot_of_mod_W h, ite_self, Nat.sub_zero]

@[simp] theorem firstSlot_zero (A : Nat) : firstSlot cfg A 0 = startSlot cfg A := rfl

@[simp] theorem chunksBefore_zero (A : Nat) : chunksBefore cfg A 0 = 0 := by
  rw [chunksBefore, if_pos rfl, Nat.zero_mul]

/-- R114: the chunks fit into the first word exactly when there is one word. -/
theorem wordCount_of_fits {A L : Nat} (h : startSlot cfg A + (L + 1) ≤ cfg.N) : wordCount cfg A L = 1 := by
  have hN := cfg.N_pos
  rw [wordCount, Nat.div_eq_iff cfg.N_pos]
  omega

section NextWord

variable {A B L : Nat} (hB : B % cfg.W = 0)
include hB

/-- `B` is a word boundary at which the chunks go on that do not fit into the word of `A`. -/
theorem wordCount_of_goes_on (h : cfg.N < startSlot cfg A + (L + 1)) :
    wordCount cfg A L = wordCount cfg B (L - (cfg.N - startSlot cfg A)) + 1 := by
  have hs := startSlot_lt cfg A
  rw [wordCount, wordCount, startSlot_of_mod_W hB, ← Nat.add_div_right _ cfg.N_pos]
  congr 1
  omega

theorem chunksBefore_succ (k : Nat) :
    chunksBefore cfg A (k + 1) = (cfg.N - startSlot cfg A) + chunksBefore cfg B k := by
  have hs := startSlot_lt cfg A
  rw [chunksBefore_of_mod_W hB, chunksBefore, if_neg (Nat.succ_ne_zero k), Nat.succ_mul]
  omega

theorem firstSlot_succ (k : Nat) : firstSlot cfg A (k + 1) = firstSlot cfg B k := by
  rw [firstSlot_of_mod_W hB, firstSlot, if_neg (Nat.succ_ne_zero k)]

theorem slotCount_succ (h : cfg.N - startSlot cfg A ≤ L) (k : Nat) :
    slotCount cfg A L (k + 1) = slotCount cfg B (L - (cfg.N - startSlot cfg A)) k := by
  rw [slotCount, slotCount, firstSlot_succ hB, chunksBefore_succ hB]
  congr 1
  omega

end NextWord

/-- The address of word `k + 1` is that of word `k` from the next word on. -/
theorem wordStart_nextAddr_modEq (a : BitVec cfg.wordBits) (k : Nat) :
    (nextAddr a).toNat - (nextAddr a).toNat % cfg.W + k * cfg.W ≡ a.toNat - a.toNat % cfg.W + (k + 1) * cfg.W
      [MOD 2 ^ cfg.wordBits] := by
  rw [nextAddr_mod_W, Nat.sub_zero, toNat_nextAddr, Nat.succ_mul, Nat.add_comm (k * cfg.W), ← Nat.add_assoc]
  exact (Nat.mod_modEq _ _).add_right _

theorem wordAddress_succ (a : BitVec cfg.wordBits) (k : Nat) :
    wordAddress cfg a.toNat (k + 1) = wordAddress cfg (nextAddr a).toNat k := by
  apply BitVec.eq_of_toNat_eq
  rw [wordAddress, wordAddress, BitVec.toNat_ofNat, BitVec.toNat_ofNat]
  exact ((wordStart_nextAddr_modEq a k).of_dvd (pow_dvd_pow 2 cfg.addrBits_le_wordBits)).symm

theorem wordAddress_zero (a : BitVec cfg.wordBits) : wordAddress cfg a.toNat 0 = wordBase a := by
  apply BitVec.eq_of_toNat_eq
  rw [wordAddress, BitVec.toNat_ofNat, toNat_wordBase, Nat.zero_mul, Nat.add_zero]

/-! ### The registers at the start of a word -/

/-- The chunks still to move fit into the current word. -/
def lastWord (S : Regs cfg) : Prop := chunksOfWord S = S.len.toNat + 1

section Registers

variable {S : Regs cfg}

theorem chunksOfWord_of_not_last (h : ¬ lastWord S) : chunksOfWord S = cfg.N - S.idx.val := by
  unfold lastWord chunksOfWord at h
  unfold chunksOfWord
  omega

theorem chunksOfWord_le_of_not_last (h : ¬ lastWord S) : chunksOfWord S ≤ S.len.toNat := by
  unfold lastWord chunksOfWord at h
  unfold chunksOfWord
  omega

theorem fits_of_last (h : lastWord S) : S.idx.val + (S.len.toNat + 1) ≤ cfg.N := by
  have hi := S.idx.isLt
  unfold lastWord chunksOfWord at h
  omega

theorem goes_on_of_not_last (h : ¬ lastWord S) : cfg.N < S.idx.val + (S.len.toNat + 1) := by
  unfold lastWord chunksOfWord at h
  omega

/-- The countdown at the end of a word, while chunks are left, does not wrap. -/
theorem toNat_len_sub (h : chunksOfWord S ≤ S.len.toNat) :
    (S.len - BitVec.ofNat cfg.wordBits (chunksOfWord S)).toNat = S.len.toNat - chunksOfWord S := by
  have hlt : chunksOfWord S < 2 ^ cfg.wordBits := Nat.lt_of_le_of_lt h S.len.isLt
  have hk : (BitVec.ofNat cfg.wordBits (chunksOfWord S)).toNat = chunksOfWord S := by
    rw [BitVec.toNat_ofNat, Nat.mod_eq_of_lt hlt]
  rw [BitVec.toNat_sub_of_le (by rw [BitVec.le_def, hk]; exact h), hk]

/-- R110: after the last chunk the countdown has wrapped. -/
theorem len_sub_of_last (h : lastWord S) :
    S.len - BitVec.ofNat cfg.wordBits (chunksOfWord S) = BitVec.allOnes cfg.wordBits := by
  have hsplit : BitVec.ofNat cfg.wordBits (S.len.toNat + 1) = S.len + 1#_ := by
    rw [BitVec.ofNat_add, BitVec.ofNat_toNat, BitVec.setWidth_eq]
  rw [h, hsplit, ← BitVec.neg_one_eq_allOnes]
  simp only [BitVec.sub_eq_add_neg, BitVec.neg_add, ← BitVec.add_assoc]
  simp

end Registers

end Sys2Proof.Machine
end

section
/-! Proofs/ReadOperation.lean: READ as a whole operation (R110): the round of one word, the induction over the rounds,
and the run of a frame that the host offers. -/

namespace Sys2Proof.Machine

variable {cfg : Config}

/-! ### One word -/

/-- An unstalled machine about to issue the Get of a word that will be answered. -/
structure Sys.AtRead (s : Sys cfg) : Prop where
  unstalled : s.Unstalled
  phase : s.regs.phase = .readRequest
  responses : s.responses = []
  slot : s.regs.idx = slotOf s.regs.addr
  answered : (getReq s.regs.addr s.regs.len).aligned = true ∨ s.answersMisaligned = true

section Fields
variable (s : Sys cfg)
@[simp] theorem readWord_cmd : (readWord s).regs.cmd = s.regs.cmd := rfl
@[simp] theorem readWord_addr : (readWord s).regs.addr = nextAddr s.regs.addr := rfl
@[simp] theorem readWord_valid : (readWord s).regs.valid = s.regs.valid := rfl
@[simp] theorem readWord_fault : (readWord s).regs.fault = s.regs.fault := rfl
@[simp] theorem readWord_body :
    (readWord s).regs.body = unpackWord (getAnswer s.mem s.draws (getReq s.regs.addr s.regs.len)) := rfl
@[simp] theorem readWord_len :
    (readWord s).regs.len = s.regs.len - BitVec.ofNat cfg.wordBits (chunksOfWord s.regs) := rfl
@[simp] theorem readWord_idx_val :
    (readWord s).regs.idx.val = (s.regs.idx.val + chunksOfWord s.regs) % cfg.N := rfl
@[simp] theorem readWord_serialIn : (readWord s).serialIn = s.serialIn := rfl
@[simp] theorem readWord_responses : (readWord s).responses = s.responses := rfl
@[simp] theorem readWord_mem : (readWord s).mem = s.mem := rfl
@[simp] theorem readWord_answersMisaligned : (readWord s).answersMisaligned = s.answersMisaligned := rfl
theorem readWord_trace :
    (readWord s).trace = s.trace ++ (.request (getReq s.regs.addr s.regs.len) ::
      .response (getAnswer s.mem s.draws (getReq s.regs.addr s.regs.len)) ::
      ((List.range (chunksOfWord s.regs)).map fun j =>
        slotBits (getAnswer s.mem s.draws (getReq s.regs.addr s.regs.len)) (s.regs.idx.val + j)).map .chunkOut) := by
  rw [List.map_map]
  rfl
theorem readWord_phase_of_last (h : lastWord s.regs) : (readWord s).regs.phase = .command := if_pos h
theorem readWord_phase_of_not_last (h : ¬ lastWord s.regs) : (readWord s).regs.phase = .readRequest := if_neg h
end Fields

/-- Between two words the cursor is at slot 0, the slot of the next word's address. -/
theorem readWord_slot {s : Sys cfg} (h : ¬ lastWord s.regs) :
    (readWord s).regs.idx = slotOf (readWord s).regs.addr := by
  rw [readWord_addr, slotOf_of_mod_W (nextAddr_mod_W _)]
  apply Fin.ext
  have hi := s.regs.idx.isLt
  rw [readWord_idx_val, chunksOfWord_of_not_last h, Nat.add_sub_cancel' (Nat.le_of_lt hi), Nat.mod_self]
  rfl

theorem Sys.AtRead.next {s : Sys cfg} (h : s.AtRead) (hmore : ¬ lastWord s.regs) : (readWord s).AtRead where
  unstalled := ⟨h.unstalled.script, h.unstalled.steady, h.unstalled.fault⟩
  phase := readWord_phase_of_not_last s hmore
  responses := h.responses
  slot := readWord_slot hmore
  answered := .inl (aligned_of_mod_W (nextAddr_mod_W _) _)

theorem Sys.AtRead.startSlot_eq {s : Sys cfg} (h : s.AtRead) :
    startSlot cfg s.regs.addr.toNat = s.regs.idx.val := by
  rw [h.slot, val_slotOf_eq_startSlot]

/-! ### The rounds -/

/-- The fuel that `wholeRead` gives is enough for every word, and the words are gone through one by one. -/
theorem readWords_induct {P : Sys cfg → Sys cfg → Prop}
    (last : ∀ s, s.AtRead → lastWord s.regs → P s (readWord s))
    (more : ∀ s t, s.AtRead → ¬ lastWord s.regs → P (readWord s) t → P s t)
    (fuel : Nat) (s : Sys cfg) (h : s.AtRead) (hfuel : s.regs.len.toNat < fuel) : P s (readWords fuel s) := by
  induction fuel generalizing s with
  | zero => omega
  | succ fuel ih =>
    rw [readWords]
    by_cases hlast : lastWord s.regs
    · rw [if_pos (readWord_phase_of_last s hlast)]
      exact last s h hlast
    · rw [if_neg (by rw [readWord_phase_of_not_last s hlast]; decide)]
      have hpos := chunksOfWord_pos s.regs
      have hle := chunksOfWord_le_of_not_last hlast
      refine more s _ h hlast (ih _ (h.next hlast) ?_)
      rw [readWord_len, toNat_len_sub hle]
      omega

theorem Sys.AtRead.run_eq {s : Sys cfg} (h : s.AtRead) {fuel : Nat} (hfuel : s.regs.len.toNat < fuel) :
    s.run = readWords fuel s := by
  refine readWords_induct (P := fun s t => s.run = t) (fun s h hlast => ?_) (fun s t h hmore ih => ?_) fuel s h hfuel
  · rw [run_readWord s h.unstalled h.phase h.responses h.slot h.answered, if_pos (readWord_phase_of_last s hlast)]
  · rw [run_readWord s h.unstalled h.phase h.responses h.slot h.answered,
      if_neg (by rw [readWord_phase_of_not_last s hmore]; decide), ih]

/-! ### The frame -/

/-- The registers that the header leaves are at the first word. -/
theorem firstGetAnswered.atRead {s : Sys cfg} {address len : Nat} (hu : s.Unstalled) (hr : s.responses = [])
    (h : firstGetAnswered address len s) : (afterHeader readCode address len .readRequest s).AtRead :=
  ⟨⟨hu.script, hu.steady, hu.fault⟩, rfl, hr, rfl, h⟩

theorem toNat_ofNat_of_lt {n v : Nat} (h : v < 2 ^ n) : (BitVec.ofNat n v).toNat = v := by
  rw [BitVec.toNat_ofNat, Nat.mod_eq_of_lt h]

section Ready
variable {s : Sys cfg} (h : s.ready)
include h
theorem Sys.ready.phase : s.regs.phase = .command := h.1.1
theorem Sys.ready.fault : s.regs.fault = false := h.1.2
theorem Sys.ready.responses : s.responses = [] := h.2.1
theorem Sys.ready.cooperative : s.cooperative := h.2.2
theorem Sys.ready.unstalled (hs : s.script = []) : s.Unstalled := ⟨hs, h.cooperative.1, h.fault⟩
theorem Sys.ready.unstalled_calm : s.calm.Unstalled := h.cooperative.unstalled_calm h.fault
end Ready

theorem Sys.ready.atRead {s : Sys cfg} (h : s.ready) {address len : Nat} (ha : firstGetAnswered address len s) :
    (afterHeader readCode address len .readRequest s.calm).AtRead :=
  firstGetAnswered.atRead h.unstalled_calm h.responses ha

theorem run_offer_read {s : Sys cfg} {address len : Nat} (hu : s.Unstalled) (hp : s.regs.phase = .command)
    (hr : s.responses = []) (hl : len < 2 ^ cfg.wordBits) (ha : firstGetAnswered address len s) :
    (s.offer (encodeRead cfg address len)).run = wholeRead address len s := by
  have hat := ha.atRead hu hr
  have hlen : (BitVec.ofNat cfg.wordBits len).toNat < len + 1 := by rw [toNat_ofNat_of_lt hl]; exact Nat.lt_succ_self _
  have hheader := run_readHeader address len s.serialIn (s.offer (encodeRead cfg address len))
    ⟨hu.script, hu.steady, hu.fault⟩ hp rfl
  rw [hheader, wholeRead, ← hat.run_eq hlen]
  rfl

/-- What an operation comes to on a machine between operations is, the script apart, what it comes to without
stalls. -/
theorem Sys.ready.calm_run_offer {s : Sys cfg} (h : s.ready) (q : List (BitVec cfg.w)) :
    (s.offer q).run.calm = (s.calm.offer q).run := calm_run (s.offer q) h.cooperative h.fault

theorem Sys.ready.exec {s : Sys cfg} (h : s.ready) (i : Instr) :
    ∃ t : Sys cfg, exec i ⟨cfg, s⟩ = .next ⟨cfg, t⟩ ∧ t.cooperative ∧ t.calm = (s.calm.offer (encode cfg i)).run := by
  have hco : (s.offer (encode cfg i)).cooperative := h.cooperative
  exact ⟨_, exec_of_running i h.fault, hco.run, h.calm_run_offer _⟩

/-- A machine and its unstalled copy agree but for the script. -/
theorem fields_of_calm_eq {t u : Sys cfg} (h : t.calm = u) :
    t.regs = u.regs ∧ t.trace = u.trace ∧ t.responses = u.responses ∧ t.mem = u.mem ∧ t.serialIn = u.serialIn := by
  subst h
  exact ⟨rfl, rfl, rfl, rfl, rfl⟩

/-- R110: READ with any stalls. -/
theorem Sys.ready.exec_read {s : Sys cfg} (h : s.ready) {address len : Nat} (hl : len < 2 ^ cfg.wordBits)
    (ha : firstGetAnswered address len s) :
    ∃ t : Sys cfg, Machine.exec (.read address len) ⟨cfg, s⟩ = .next ⟨cfg, t⟩ ∧ t.cooperative ∧
      t.calm = wholeRead address len s.calm := by
  obtain ⟨t, hexec, hco, hcalm⟩ := h.exec (.read address len)
  exact ⟨t, hexec, hco, hcalm.trans (run_offer_read h.unstalled_calm h.phase h.responses hl ha)⟩

/-- What holds of every word's round holds of `wholeRead`. -/
theorem wholeRead_induct {P : Sys cfg → Sys cfg → Prop}
    (last : ∀ s, s.AtRead → lastWord s.regs → P s (readWord s))
    (more : ∀ s t, s.AtRead → ¬ lastWord s.regs → P (readWord s) t → P s t) {s : Sys cfg} (h : s.ready)
    {address len : Nat} (hl : len < 2 ^ cfg.wordBits) (ha : firstGetAnswered address len s) :
    P (afterHeader readCode address len .readRequest s.calm) (wholeRead address len s.calm) := by
  refine readWords_induct last more _ _ (h.atRead ha) ?_
  show (BitVec.ofNat cfg.wordBits len).toNat < len + 1
  rw [toNat_ofNat_of_lt hl]
  exact Nat.lt_succ_self _

end Sys2Proof.Machine

open Sys2Proof Sys2Proof.Machine

/-- Settles O47: the header's ticks and the rounds' ticks are those of the pseudocode. -/
theorem readIsTheWholeOperation : Obligations.ReadIsTheWholeOperation := by
  intro cfg s address len h hs hwf ha
  obtain ⟨-, hl⟩ := (wellFormed_read_iff _ _).1 hwf
  have hrun : (s.offer (encode cfg (.read address len))).run = wholeRead address len s :=
    run_offer_read (h.unstalled hs) h.phase h.responses hl ha
  rw [exec_of_running _ h.fault, hrun]
end

section
/-! Proofs/ReadResults.lean: what READ leaves, issues and emits (R110, R114), each first of the rounds from a word on
and then of the frame. -/

namespace Sys2Proof.Machine

variable {cfg : Config}

section ResponsesTaken
variable (t : List (Transfer cfg)) (x : BitVec cfg.w) (r : BusReq cfg) (d : BitVec cfg.wordBits)
  (l : List (BitVec cfg.w))
@[simp] theorem responsesTaken_request : responsesTaken (.request r :: t) = responsesTaken t := rfl
@[simp] theorem responsesTaken_response : responsesTaken (.response d :: t) = d :: responsesTaken t := rfl
@[simp] theorem responsesTaken_chunkOut : responsesTaken (.chunkOut x :: t) = responsesTaken t := rfl
@[simp] theorem responsesTaken_map_chunkOut : responsesTaken (l.map .chunkOut) = [] := by
  induction l with
  | nil => rfl
  | cons x l ih => rw [List.map_cons, responsesTaken_chunkOut, ih]
end ResponsesTaken

section AfterHeader
variable (code address len : Nat) (phase : Phase) (s : Sys cfg)
@[simp] theorem afterHeader_addr :
    (afterHeader code address len phase s).regs.addr = BitVec.ofNat cfg.wordBits address := rfl
@[simp] theorem afterHeader_len : (afterHeader code address len phase s).regs.len = BitVec.ofNat cfg.wordBits len := rfl
@[simp] theorem afterHeader_idx :
    (afterHeader code address len phase s).regs.idx = slotOf (BitVec.ofNat cfg.wordBits address) := rfl
@[simp] theorem afterHeader_mem : (afterHeader code address len phase s).mem = s.mem := rfl
@[simp] theorem emitted_afterHeader : emitted (afterHeader code address len phase s).trace = emitted s.trace := by
  rw [afterHeader, emitted_append, emitted_map_chunkIn, List.append_nil]
@[simp] theorem requests_afterHeader : requests (afterHeader code address len phase s).trace = requests s.trace := by
  rw [afterHeader, requests_append, requests_map_chunkIn, List.append_nil]
theorem isPrefix_afterHeader : s.trace <+: (afterHeader code address len phase s).trace := ⟨_, rfl⟩
end AfterHeader

/-! ### The whole end state -/

/-- What the rounds of READ make of a machine at the start of a word (R110). -/
structure ReadOutcome (s t : Sys cfg) : Prop where
  phase : t.regs.phase = .command
  fault : t.regs.fault = s.regs.fault
  cmd : t.regs.cmd = s.regs.cmd
  valid : t.regs.valid = s.regs.valid
  len : t.regs.len = BitVec.allOnes cfg.wordBits
  addr : t.regs.addr.toNat = (s.regs.addr.toNat - s.regs.addr.toNat % cfg.W +
    wordCount cfg s.regs.addr.toNat s.regs.len.toNat * cfg.W) % 2 ^ cfg.wordBits
  idx : t.regs.idx.val = (s.regs.idx.val + (s.regs.len.toNat + 1)) % cfg.N
  body : ∃ d, (responsesTaken t.trace).getLast? = some d ∧ t.regs.body = unpackWord d
  emitted : (Machine.emitted t.trace).length = (Machine.emitted s.trace).length + (s.regs.len.toNat + 1)
  trace : s.trace <+: t.trace
  responses : t.responses = s.responses
  mem : t.mem = s.mem
  serialIn : t.serialIn = s.serialIn
  answersMisaligned : t.answersMisaligned = s.answersMisaligned

theorem length_emitted_readWord (s : Sys cfg) :
    (emitted (readWord s).trace).length = (emitted s.trace).length + chunksOfWord s.regs := by
  rw [readWord_trace, emitted_append, emitted_request, emitted_response, emitted_map_chunkOut, List.length_append,
    List.length_map, List.length_range]

theorem responsesTaken_readWord (s : Sys cfg) :
    (responsesTaken (readWord s).trace).getLast? =
      some (getAnswer s.mem s.draws (getReq s.regs.addr s.regs.len)) := by
  rw [readWord_trace, responsesTaken_append, responsesTaken_request, responsesTaken_response,
    responsesTaken_map_chunkOut, List.getLast?_concat]

theorem isPrefix_readWord (s : Sys cfg) : s.trace <+: (readWord s).trace := ⟨_, rfl⟩

theorem readOutcome_of_last {s : Sys cfg} (h : s.AtRead) (hlast : lastWord s.regs) : ReadOutcome s (readWord s) where
  phase := readWord_phase_of_last s hlast
  fault := readWord_fault s
  cmd := readWord_cmd s
  valid := readWord_valid s
  len := len_sub_of_last hlast
  addr := by
    have hone := wordCount_of_fits (cfg := cfg) (by rw [h.startSlot_eq]; exact fits_of_last hlast)
    rw [hone, Nat.one_mul, readWord_addr, toNat_nextAddr]
  idx := by rw [readWord_idx_val, hlast]
  body := ⟨_, responsesTaken_readWord s, readWord_body s⟩
  emitted := by rw [length_emitted_readWord, hlast]
  trace := isPrefix_readWord s
  responses := readWord_responses s
  mem := readWord_mem s
  serialIn := readWord_serialIn s
  answersMisaligned := readWord_answersMisaligned s

/-- The numbers of chunks in the words from the next one on. -/
theorem toNat_len_readWord {s : Sys cfg} (hmore : ¬ lastWord s.regs) :
    (readWord s).regs.len.toNat = s.regs.len.toNat - (cfg.N - s.regs.idx.val) := by
  rw [readWord_len, toNat_len_sub (chunksOfWord_le_of_not_last hmore), chunksOfWord_of_not_last hmore]

theorem idx_readWord {s : Sys cfg} (hmore : ¬ lastWord s.regs) : (readWord s).regs.idx.val = 0 := by
  rw [readWord_slot hmore, readWord_addr, slotOf_of_mod_W (nextAddr_mod_W _)]
  rfl

theorem Sys.AtRead.wordCount_eq {s : Sys cfg} (h : s.AtRead) (hmore : ¬ lastWord s.regs) :
    wordCount cfg s.regs.addr.toNat s.regs.len.toNat =
      wordCount cfg (readWord s).regs.addr.toNat (readWord s).regs.len.toNat + 1 := by
  rw [toNat_len_readWord hmore, ← h.startSlot_eq, readWord_addr]
  exact wordCount_of_goes_on (nextAddr_mod_W _) (by rw [h.startSlot_eq]; exact goes_on_of_not_last hmore)

theorem readOutcome_of_more {s t : Sys cfg} (h : s.AtRead) (hmore : ¬ lastWord s.regs)
    (ih : ReadOutcome (readWord s) t) : ReadOutcome s t where
  phase := ih.phase
  fault := ih.fault
  cmd := ih.cmd
  valid := ih.valid
  len := ih.len
  addr := by
    rw [ih.addr, h.wordCount_eq hmore, readWord_addr]
    exact wordStart_nextAddr_modEq _ _
  idx := by
    have hi := s.regs.idx.isLt
    have hle := goes_on_of_not_last hmore
    have hsum : s.regs.idx.val + (s.regs.len.toNat + 1) =
        (s.regs.len.toNat - (cfg.N - s.regs.idx.val) + 1) + cfg.N := by omega
    rw [ih.idx, idx_readWord hmore, toNat_len_readWord hmore, Nat.zero_add, hsum, Nat.add_mod_right]
  body := ih.body
  emitted := by
    have hi := s.regs.idx.isLt
    have hle := goes_on_of_not_last hmore
    rw [ih.emitted, length_emitted_readWord, toNat_len_readWord hmore, chunksOfWord_of_not_last hmore]
    omega
  trace := (isPrefix_readWord s).trans ih.trace
  responses := ih.responses
  mem := ih.mem
  serialIn := ih.serialIn
  answersMisaligned := ih.answersMisaligned

/-! ### The requests -/

/-- The Get of word `k` of a READ at `a`, `L + 1` chunks wanted (R110, R157). -/
def getOfWord (cfg : Config) (A L k : Nat) : BusReq cfg :=
  getReq (BitVec.ofNat cfg.wordBits (if k = 0 then A else A - A % cfg.W + k * cfg.W))
    (BitVec.ofNat cfg.wordBits (L - chunksBefore cfg A k))

theorem getOfWord_zero (a l : BitVec cfg.wordBits) : getOfWord cfg a.toNat l.toNat 0 = getReq a l := by
  rw [getOfWord, if_pos rfl, chunksBefore_zero, Nat.sub_zero, BitVec.ofNat_toNat, BitVec.ofNat_toNat,
    BitVec.setWidth_eq, BitVec.setWidth_eq]

theorem getOfWord_succ (a : BitVec cfg.wordBits) (L k : Nat) :
    getOfWord cfg a.toNat L (k + 1) =
      getOfWord cfg (nextAddr a).toNat (L - (cfg.N - startSlot cfg a.toNat)) k := by
  have haddr : BitVec.ofNat cfg.wordBits (a.toNat - a.toNat % cfg.W + (k + 1) * cfg.W) =
      BitVec.ofNat cfg.wordBits (if k = 0 then (nextAddr a).toNat
        else (nextAddr a).toNat - (nextAddr a).toNat % cfg.W + k * cfg.W) := by
    have hk : (if k = 0 then (nextAddr a).toNat else (nextAddr a).toNat - (nextAddr a).toNat % cfg.W + k * cfg.W) =
        (nextAddr a).toNat - (nextAddr a).toNat % cfg.W + k * cfg.W := by
      split_ifs with h0
      · rw [h0, nextAddr_mod_W, Nat.sub_zero, Nat.zero_mul, Nat.add_zero]
      · rfl
    apply BitVec.eq_of_toNat_eq
    rw [hk, BitVec.toNat_ofNat, BitVec.toNat_ofNat]
    exact (wordStart_nextAddr_modEq a k).symm
  rw [getOfWord, getOfWord, if_neg (Nat.succ_ne_zero k), haddr, chunksBefore_succ (nextAddr_mod_W a), Nat.sub_sub]

/-- R114: one Get for each word that is left. -/
def ReadsOneGetPerWord (s t : Sys cfg) : Prop :=
  requests t.trace = requests s.trace ++
    (List.range (wordCount cfg s.regs.addr.toNat s.regs.len.toNat)).map
      (getOfWord cfg s.regs.addr.toNat s.regs.len.toNat)

theorem requests_readWord (s : Sys cfg) :
    requests (readWord s).trace = requests s.trace ++ [getReq s.regs.addr s.regs.len] := by
  rw [readWord_trace, requests_append, requests_request, requests_response, requests_map_chunkOut]

theorem readsOneGetPerWord_of_last {s : Sys cfg} (h : s.AtRead) (hlast : lastWord s.regs) :
    ReadsOneGetPerWord s (readWord s) := by
  have hone := wordCount_of_fits (cfg := cfg) (by rw [h.startSlot_eq]; exact fits_of_last hlast)
  rw [ReadsOneGetPerWord, hone, requests_readWord, List.range_one, List.map_singleton, getOfWord_zero]

theorem readsOneGetPerWord_of_more {s t : Sys cfg} (h : s.AtRead) (hmore : ¬ lastWord s.regs)
    (ih : ReadsOneGetPerWord (readWord s) t) : ReadsOneGetPerWord s t := by
  have hsucc : ∀ k, getOfWord cfg (readWord s).regs.addr.toNat (readWord s).regs.len.toNat k =
      getOfWord cfg s.regs.addr.toNat s.regs.len.toNat (k + 1) := by
    intro k
    rw [getOfWord_succ, h.startSlot_eq, toNat_len_readWord hmore, readWord_addr]
  rw [ReadsOneGetPerWord, ih, requests_readWord, h.wordCount_eq hmore, List.range_succ_eq_map, List.map_cons,
    List.map_map, getOfWord_zero, List.append_assoc, List.singleton_append]
  congr 2
  exact List.map_congr_left fun k _ => hsucc k

/-! ### The bytes -/

/-- R152: a byte offset is the bytes of its slots and the offset inside the chunk. -/
theorem mod_W_eq (a : BitVec cfg.wordBits) : a.toNat % cfg.W = (slotOf a).val * cfg.c + a.toNat % cfg.c := by
  rw [val_slotOf, ← Nat.mod_mod_of_dvd a.toNat cfg.c_dvd_W, Nat.div_add_mod']

/-- The address of byte `b` of slot `j`, counted from the slot of `a`. -/
theorem wordBase_add_lane (a : BitVec cfg.wordBits) {j b : Nat} (hj : (slotOf a).val + j < cfg.N) (hb : b < cfg.c) :
    (wordBase a).toNat + (((slotOf a).val + j) * cfg.c + b) =
      (a.toNat - a.toNat % cfg.c + j * cfg.c + b) % 2 ^ cfg.addrBits := by
  have hlane : ((slotOf a).val + j) * cfg.c + b < cfg.W := byteLane_lt hj hb
  have hend : (wordBase a).toNat + cfg.W ≤ 2 ^ cfg.addrBits := wordBase_add_W_le a
  have hsplit : a.toNat - a.toNat % cfg.c + j * cfg.c + b =
      a.toNat - a.toNat % cfg.W + (((slotOf a).val + j) * cfg.c + b) := by
    have hoff := mod_W_eq a
    have hle : a.toNat % cfg.W ≤ a.toNat := Nat.mod_le ..
    rw [Nat.add_mul]
    omega
  rw [hsplit, Nat.add_mod, ← toNat_wordBase, Nat.mod_eq_of_lt (Nat.lt_of_lt_of_le hlane (by omega : cfg.W ≤ _)),
    Nat.mod_eq_of_lt (by omega)]

/-- Past the slots of its word an address is at the next word (R151). -/
theorem nextAddr_add_modEq (a : BitVec cfg.wordBits) (j : Nat) :
    (nextAddr a).toNat + j * cfg.c ≡ a.toNat - a.toNat % cfg.c + (cfg.N - (slotOf a).val + j) * cfg.c
      [MOD 2 ^ cfg.addrBits] := by
  have hoff := mod_W_eq a
  have hle : a.toNat % cfg.W ≤ a.toNat := Nat.mod_le ..
  have hslot : (slotOf a).val * cfg.c ≤ cfg.W := by
    rw [← cfg.N_mul_c]; exact Nat.mul_le_mul_right _ (Nat.le_of_lt (slotOf a).isLt)
  have hsum : a.toNat - a.toNat % cfg.c + (cfg.N - (slotOf a).val + j) * cfg.c =
      a.toNat - a.toNat % cfg.W + cfg.W + j * cfg.c := by
    rw [Nat.add_mul, Nat.sub_mul, cfg.N_mul_c]
    omega
  rw [hsum, toNat_nextAddr]
  exact ((Nat.mod_modEq _ _).of_dvd (pow_dvd_pow 2 cfg.addrBits_le_wordBits)).add_right _

/-- Byte `b` of slot `i` of a word is its byte `i*c + b`. -/
theorem byteOf_slotBits (d : BitVec cfg.wordBits) (i : Nat) {b : Nat} (hb : b < cfg.c) :
    byteOf (slotBits d i) b = byteOf d (i * cfg.c + b) := by
  have hw := cfg.eight_mul_c
  apply BitVec.eq_of_getLsbD_eq
  intro k hk
  have hlt : 8 * b + k < cfg.w := by omega
  have hsum : i * cfg.w + (8 * b + k) = 8 * (i * cfg.c + b) + k := by rw [← hw]; ring
  simp only [byteOf, BitVec.getLsbD_extractLsb', slotBits_getLsbD, hk, hlt, hsum, decide_true, Bool.true_and]

/-- R56, R54: a slot of the answer to an aligned Get is the chunk of memory at its address, if that is chunk-aligned. -/
theorem slotBits_getAnswer {addr len : BitVec cfg.wordBits} (m : Memory) (draw : Nat) (ha : addr.toNat % cfg.c = 0)
    (haligned : (getReq addr len).aligned = true) {j : Nat}
    (hj : j < min (cfg.N - (slotOf addr).val) (len.toNat + 1)) :
    slotBits (getAnswer m draw (getReq addr len)) ((slotOf addr).val + j) =
      memReadChunk cfg m (addr.toNat + j * cfg.c) := by
  have hjN : (slotOf addr).val + j < cfg.N := by omega
  rw [← ofBytesLE_byteOf cfg.w cfg.c (slotBits _ _) cfg.eight_mul_c, memReadChunk]
  apply ofBytesLE_congr
  intro b hb
  have hcov := laneCovered_getReq ha (Nat.le_add_right _ j) (Nat.add_lt_add_left hj _) hb
  rw [byteOf_slotBits _ _ hb, getAnswer, if_pos haligned, getWord,
    byteOf_ofBytesLE _ _ _ _ (byteLane_lt hjN hb) (Nat.le_of_eq cfg.eight_mul_W), if_pos hcov, requestBase_getReq,
    wordBase_add_lane addr hjN hb, ha, Nat.sub_zero]

theorem memReadChunk_congr (m : Memory) {a b : Nat} (h : a ≡ b [MOD 2 ^ cfg.addrBits]) :
    memReadChunk cfg m a = memReadChunk cfg m b := by
  rw [memReadChunk, memReadChunk]
  exact ofBytesLE_congr _ _ _ _ fun k _ => congrArg m.read (h.add_right k)

/-- R110: the chunks of memory that the rounds from this word on emit. -/
def ReadEmitsMemory (s t : Sys cfg) : Prop :=
  s.regs.addr.toNat % cfg.c = 0 → (getReq s.regs.addr s.regs.len).aligned = true →
    emitted t.trace = emitted s.trace ++
      (List.range (s.regs.len.toNat + 1)).map (fun j => memReadChunk cfg s.mem (s.regs.addr.toNat + j * cfg.c))

theorem emitted_readWord {s : Sys cfg} (h : s.AtRead) (ha : s.regs.addr.toNat % cfg.c = 0)
    (haligned : (getReq s.regs.addr s.regs.len).aligned = true) :
    emitted (readWord s).trace = emitted s.trace ++ (List.range (chunksOfWord s.regs)).map
      (fun j => memReadChunk cfg s.mem (s.regs.addr.toNat + j * cfg.c)) := by
  rw [readWord_trace, emitted_append, emitted_request, emitted_response, emitted_map_chunkOut]
  congr 1
  refine List.map_congr_left fun j hj => ?_
  have hlt : j < chunksOfWord s.regs := List.mem_range.1 hj
  rw [chunksOfWord, h.slot] at hlt
  rw [h.slot, slotBits_getAnswer s.mem s.draws ha haligned hlt]

theorem mod_c_of_mod_W {A : Nat} (h : A % cfg.W = 0) : A % cfg.c = 0 := by
  rw [← Nat.mod_mod_of_dvd A cfg.c_dvd_W, h, Nat.zero_mod]

theorem readEmitsMemory_of_last {s : Sys cfg} (h : s.AtRead) (hlast : lastWord s.regs) :
    ReadEmitsMemory s (readWord s) := by
  intro ha haligned
  rw [emitted_readWord h ha haligned, hlast]

theorem readEmitsMemory_of_more {s t : Sys cfg} (h : s.AtRead) (hmore : ¬ lastWord s.regs)
    (ih : ReadEmitsMemory (readWord s) t) : ReadEmitsMemory s t := by
  intro ha haligned
  have hnext : (readWord s).regs.addr.toNat % cfg.W = 0 := nextAddr_mod_W _
  have hsum : s.regs.len.toNat + 1 = chunksOfWord s.regs + ((readWord s).regs.len.toNat + 1) := by
    have hgo := goes_on_of_not_last hmore
    rw [toNat_len_readWord hmore, chunksOfWord_of_not_last hmore]
    omega
  have hrange : List.range (s.regs.len.toNat + 1) = List.range (chunksOfWord s.regs) ++
      (List.range ((readWord s).regs.len.toNat + 1)).map (chunksOfWord s.regs + ·) := by rw [hsum, List.range_add]
  have hcount : chunksOfWord s.regs = cfg.N - (slotOf s.regs.addr).val := by
    rw [chunksOfWord_of_not_last hmore, h.slot]
  rw [ih (mod_c_of_mod_W hnext) (aligned_of_mod_W hnext _), emitted_readWord h ha haligned, hrange,
    List.map_append, List.map_map, List.append_assoc]
  congr 2
  refine List.map_congr_left fun j _ => ?_
  rw [Function.comp_apply, hcount]
  refine memReadChunk_congr _ ?_
  have hnext := nextAddr_add_modEq s.regs.addr j
  rwa [ha, Nat.sub_zero] at hnext

/-- READ of a chunk-aligned address whose first Get is aligned, with any stalls (R110). -/
theorem Sys.ready.exec_read_emitted {s : Sys cfg} (h : s.ready) {address len : Nat}
    (haddr : address < 2 ^ cfg.wordBits) (hlen : len < 2 ^ cfg.wordBits) (hca : chunkAligned cfg address)
    (hga : (firstGet cfg address len).aligned = true) :
    ∃ t : Sys cfg, Machine.exec (.read address len) ⟨cfg, s⟩ = .next ⟨cfg, t⟩ ∧
      emitted t.trace = emitted s.trace ++
        (List.range (len + 1)).map (fun j => memReadChunk cfg s.mem (address + j * cfg.c)) := by
  obtain ⟨t, hexec, -, hcalm⟩ := h.exec_read hlen (.inl hga)
  have hemit := wholeRead_induct (P := ReadEmitsMemory) (fun _ => readEmitsMemory_of_last)
    (fun _ _ => readEmitsMemory_of_more) h hlen (.inl hga)
  refine ⟨t, hexec, ?_⟩
  have hA : (BitVec.ofNat cfg.wordBits address).toNat = address := toNat_ofNat_of_lt haddr
  rw [← hcalm, ReadEmitsMemory, emitted_afterHeader] at hemit
  simp only [calm_trace, calm_mem, afterHeader_addr, afterHeader_len, afterHeader_mem, hA, toNat_ofNat_of_lt hlen]
    at hemit
  exact hemit hca hga

end Sys2Proof.Machine

open Sys2Proof Sys2Proof.Machine

/-- Settles O45: the outcome of the rounds, read at the registers the header leaves. -/
theorem readCompletes : Obligations.ReadCompletes := by
  intro cfg s address len h hwf ha
  obtain ⟨haddr, hlen⟩ := (wellFormed_read_iff _ _).1 hwf
  obtain ⟨t, hexec, hco, hcalm⟩ := h.exec_read hlen ha
  have hout := wholeRead_induct (P := ReadOutcome) (fun _ => readOutcome_of_last) (fun _ _ => readOutcome_of_more) h
    hlen ha
  rw [← hcalm] at hout
  have hA : (BitVec.ofNat cfg.wordBits address).toNat = address := toNat_ofNat_of_lt haddr
  have hL : (BitVec.ofNat cfg.wordBits len).toNat = len := toNat_ofNat_of_lt hlen
  have hready : t.ready := ⟨⟨hout.phase, hout.fault.trans h.fault⟩, hout.responses.trans h.responses, hco⟩
  refine ⟨t, hexec, hready, ?_, hout.len, ?_, ?_, ?_, ?_, hout.valid, fun a => congrArg (Memory.read · a) hout.mem,
    hout.mem, hout.serialIn, hout.answersMisaligned, ?_⟩
  · exact (congrArg BitVec.toNat hout.cmd).trans toNat_readCode
  · have hend := hout.addr
    simpa only [calm_regs, afterHeader_addr, afterHeader_len, hA, hL] using hend
  · have hend := hout.idx
    simpa only [calm_regs, afterHeader_idx, afterHeader_len, val_slotOf_eq_startSlot, hA, hL, ← Nat.add_assoc]
      using hend
  · obtain ⟨d, hlast, hbody⟩ := hout.body
    refine ⟨d, hlast, fun i => ?_⟩
    rw [← calm_regs t, hbody]
    exact unpackWord_get d i.val i.isLt
  · have hend := hout.emitted
    simpa only [emitted_afterHeader, calm_trace, afterHeader_len, hL, ← Nat.add_assoc] using hend
  · exact (isPrefix_afterHeader _ _ _ .readRequest s).trans hout.trace

/-- Settles O49: one Get by each round. -/
theorem readIssuesOneGetPerWord : Obligations.ReadIssuesOneGetPerWord := by
  intro cfg s address len h hwf ha
  obtain ⟨haddr, hlen⟩ := (wellFormed_read_iff _ _).1 hwf
  obtain ⟨t, hexec, -, hcalm⟩ := h.exec_read hlen ha
  have hgets := wholeRead_induct (P := ReadsOneGetPerWord) (fun _ => readsOneGetPerWord_of_last)
    (fun _ _ => readsOneGetPerWord_of_more) h hlen ha
  refine ⟨t, hexec, ?_⟩
  rw [← hcalm, ReadsOneGetPerWord, requests_afterHeader] at hgets
  simp only [calm_trace, afterHeader_addr, afterHeader_len, toNat_ofNat_of_lt haddr, toNat_ofNat_of_lt hlen] at hgets
  exact hgets

/-- Settles O48: the chunks that each round emits, one word after the other. -/
theorem readEmitsTheBytesOfMemory : Obligations.ReadEmitsTheBytesOfMemory := by
  intro cfg s address len h hwf hca hga
  obtain ⟨haddr, hlen⟩ := (wellFormed_read_iff _ _).1 hwf
  exact h.exec_read_emitted haddr hlen hca hga
end

section
/-! Proofs/StuckOperations.lean: the two operations that do not come to an end: a READ whose Get is never answered (U3,
U4) and a frame whose command is not recognised (R112, R243). -/

namespace Sys2Proof.Machine

variable {cfg : Config}

/-! ### A Get that is never answered -/

/-- The machine with its Get accepted and no answer owed. -/
def awaitAnswer (s : Sys cfg) : Sys cfg :=
  { s.record (.request (getReq s.regs.addr s.regs.len)) with regs := { s.regs with phase := .readData } }

theorem waiting_of_readData {s : Sys cfg} (hf : s.regs.fault = false) (hp : s.regs.phase = .readData)
    (hr : s.responses = []) : s.waiting = true := by
  rw [Sys.waiting, transferOf_eq _ _ hf]
  simp [hp, Sys.inputs, hr]

theorem run_of_unanswered {s : Sys cfg} (h : s.Unstalled) (hp : s.regs.phase = .readRequest) (hr : s.responses = [])
    (ha : (getReq s.regs.addr s.regs.len).aligned = false) (hm : s.answersMisaligned = false) :
    s.run = awaitAnswer s := by
  have htick : s.tick = awaitAnswer s := by
    rw [h.tick_request (by rw [hp]; rfl), presentedRequest_of_readRequest hp, onAccepted_of_readRequest hp,
      busAccept_unanswered _ (s.record _) rfl ha hm]
    rfl
  have hwait : (awaitAnswer s).waiting = true := waiting_of_readData h.fault rfl hr
  have hscript : (awaitAnswer s).script = [] := h.script
  rw [run_of_settled s (by rw [htick]; simp [settled, hwait, hscript]), htick]

theorem run_offer_unanswered {s : Sys cfg} {address len : Nat} (hu : s.Unstalled) (hp : s.regs.phase = .command)
    (hr : s.responses = []) (ha : (firstGet cfg address len).aligned = false) (hm : s.answersMisaligned = false) :
    (s.offer (encodeRead cfg address len)).run = awaitAnswer (afterHeader readCode address len .readRequest s) := by
  have hheader := run_readHeader address len s.serialIn (s.offer (encodeRead cfg address len))
    ⟨hu.script, hu.steady, hu.fault⟩ hp rfl
  rw [hheader]
  exact run_of_unanswered (s := afterHeader readCode address len .readRequest s) ⟨hu.script, hu.steady, hu.fault⟩ rfl
    hr ha hm

/-! ### An unrecognised command -/

/-- R112 with any stalls. -/
theorem Sys.ready.step_badCommand {s : Sys cfg} (h : s.ready) {code address len : Nat} {rest : List (BitVec cfg.w)}
    (hc : code < 2 ^ cfg.w) (hr : code ≠ readCode) (hw : code ≠ writeCode)
    (hs : s.serialIn = encodeHeader cfg code address len ++ rest) :
    ∃ t : Sys cfg, step ⟨cfg, s⟩ = .next ⟨cfg, t⟩ ∧ t.cooperative ∧
      t.calm = wholeBadCommand code address len (s.calm.withSerialIn rest) := by
  refine ⟨s.run, step_of_running h.fault, h.cooperative.run, ?_⟩
  rw [calm_run s h.cooperative h.fault,
    run_badHeader code address len rest s.calm h.unstalled_calm h.phase hs hc hr hw]

end Sys2Proof.Machine

open Sys2Proof Sys2Proof.Machine

/-- Settles O46: the bus accepts the Get and owes nothing, so the machine waits; where it waits its step stays. -/
theorem unansweredReadWaits : Obligations.UnansweredReadWaits := by
  intro cfg s address len h hwf ha hm
  have hend : (s.offer (encode cfg (.read address len))).run.calm =
      awaitAnswer (afterHeader readCode address len .readRequest s.calm) :=
    (h.calm_run_offer _).trans (run_offer_unanswered h.unstalled_calm h.phase h.responses ha hm)
  obtain ⟨hregs, htrace, hresp, hmem, -⟩ := fields_of_calm_eq hend
  have hstop := run_settles (s.offer (encode cfg (.read address len)))
  have hexec := exec_of_running (.read address len) h.fault
  generalize (s.offer (encode cfg (.read address len))).run = t at *
  have hft : t.regs.fault = false := by rw [hregs]; exact h.fault
  have hpt : t.regs.phase = .readData := by rw [hregs]; rfl
  refine ⟨t, hexec, hpt, hft, hresp.trans h.responses, ?_, ?_, hmem, ?_⟩
  · rw [htrace]
    simp [awaitAnswer, firstGet]
  · rw [htrace]
    simp [awaitAnswer]
  · obtain ⟨hscript, hwait⟩ : t.script = [] ∧ t.waiting = true := by simpa [hpt, hft] using hstop
    exact aWaitingMachineHolds cfg t hft hscript hwait

/-- Settles O57: the header's ticks end in `wholeBadCommand`, and no reset is to come there. -/
theorem badCommandFrameHalts : Obligations.BadCommandFrameHalts := by
  intro cfg s code address len rest h hc h0 h1 haddr hlen hs
  obtain ⟨t, hstep, hco, hcalm⟩ := h.step_badCommand hc h0 h1 hs
  obtain ⟨hregs, htrace, -, hmem, hin⟩ := fields_of_calm_eq hcalm
  have hf : t.regs.fault = true := by rw [hregs]; rfl
  refine ⟨t, hstep, hf, ?_, ?_, ?_, ?_, ?_, ?_, ?_, ?_, ?_, hmem, hin, ?_⟩
  · rw [hregs]; rfl
  · rw [hregs]; exact toNat_ofNat_of_lt hc
  · rw [hregs]; exact toNat_ofNat_of_lt haddr
  · rw [hregs]; exact toNat_ofNat_of_lt hlen
  · rw [hregs]; rfl
  · rw [hregs]; rfl
  · rw [hregs]; rfl
  · rw [htrace]; exact requests_afterHeader code address len .length _
  · rw [htrace]; exact emitted_afterHeader code address len .length _
  · rw [step_eq_runState, runState_of_halted hf hco.2]
end

section
/-! Proofs/WriteOperation.lean: WRITE as a whole operation (R111): the round of one word, the induction over the rounds,
and the run of a frame that the host offers. -/

namespace Sys2Proof.Machine

variable {cfg : Config}

/-! ### One word -/

/-- An unstalled machine at the start of a word of a WRITE: the host's chunks begin with the data chunks `D` that are
still to be written. -/
structure Sys.AtWrite (D q : List (BitVec cfg.w)) (s : Sys cfg) : Prop where
  unstalled : s.Unstalled
  phase : s.regs.phase = .writeBody
  responses : s.responses = []
  mask : s.regs.valid = emptyMask cfg
  slot : s.regs.idx = slotOf s.regs.addr
  serialIn : s.serialIn = D ++ q
  length : D.length = s.regs.len.toNat + 1

/-- The buffer when the chunks of the current word are in it. -/
def wordBuffer (s : Sys cfg) : Vector (BitVec cfg.w) cfg.N :=
  fillSlots (s.serialIn.take (chunksOfWord s.regs)) s.regs.idx.val s.regs.body

/-- The mask of the current word (R176). -/
def wordMask (s : Sys cfg) : BitVec cfg.N := slotRun cfg s.regs.idx.val (chunksOfWord s.regs)

/-- The Put of the current word. -/
def putOfWord (s : Sys cfg) : BusReq cfg := putReq s.regs.addr (wordBuffer s) (wordMask s)

section Fields
variable (s : Sys cfg)
@[simp] theorem writeWord_serialIn : (writeWord s).serialIn = s.serialIn.drop (chunksOfWord s.regs) := rfl
@[simp] theorem writeWord_responses : (writeWord s).responses = s.responses := rfl
@[simp] theorem writeWord_answersMisaligned : (writeWord s).answersMisaligned = s.answersMisaligned := rfl
theorem writeWord_mem :
    (writeWord s).mem =
      writeLanes (wordBase s.regs.addr).toNat (packWord (wordBuffer s)) (expandMask (wordMask s)) cfg.W 0 s.mem := rfl
theorem writeWord_trace :
    (writeWord s).trace = s.trace ++ (s.serialIn.take (chunksOfWord s.regs)).map .chunkIn ++
      [.request (putOfWord s), .response (freeWord cfg s.draws)] := rfl
theorem writeWord_regs_of_last (h : lastWord s.regs) :
    (writeWord s).regs =
      { s.regs with
        body := wordBuffer s, valid := wordMask s, len := 0#_, phase := .command,
        idx := ⟨(s.regs.idx.val + (chunksOfWord s.regs - 1)) % cfg.N, Nat.mod_lt _ cfg.N_pos⟩ } :=
  if_pos (decide_eq_true (p := chunksOfWord s.regs = s.regs.len.toNat + 1) h)
theorem writeWord_regs_of_not_last (h : ¬ lastWord s.regs) :
    (writeWord s).regs =
      { s.regs with
        body := wordBuffer s, valid := emptyMask cfg,
        len := s.regs.len - BitVec.ofNat cfg.wordBits (chunksOfWord s.regs), addr := nextAddr s.regs.addr,
        idx := slotZero cfg, phase := .writeBody } :=
  if_neg (by rw [decide_eq_true_eq]; exact h)
end Fields

section Next
variable {D q : List (BitVec cfg.w)} {s : Sys cfg} (h : s.AtWrite D q)
include h

theorem Sys.AtWrite.startSlot_eq : startSlot cfg s.regs.addr.toNat = s.regs.idx.val := by
  rw [h.slot, val_slotOf_eq_startSlot]

theorem Sys.AtWrite.chunksOfWord_le : chunksOfWord s.regs ≤ D.length := by
  rw [h.length]
  exact Nat.min_le_right ..

theorem Sys.AtWrite.take_serialIn : s.serialIn.take (chunksOfWord s.regs) = D.take (chunksOfWord s.regs) := by
  rw [h.serialIn, List.take_append_of_le_length h.chunksOfWord_le]

theorem Sys.AtWrite.drop_serialIn : (writeWord s).serialIn = D.drop (chunksOfWord s.regs) ++ q := by
  rw [writeWord_serialIn, h.serialIn, List.drop_append_of_le_length h.chunksOfWord_le]

theorem Sys.AtWrite.serialIn_of_last (hlast : lastWord s.regs) : (writeWord s).serialIn = q := by
  rw [h.drop_serialIn, List.drop_of_length_le (by rw [h.length, hlast]), List.nil_append]

variable (hmore : ¬ lastWord s.regs)
omit h
include hmore

theorem toNat_len_writeWord : (writeWord s).regs.len.toNat = s.regs.len.toNat - (cfg.N - s.regs.idx.val) := by
  rw [writeWord_regs_of_not_last s hmore]
  exact (toNat_len_sub (chunksOfWord_le_of_not_last hmore)).trans (by rw [chunksOfWord_of_not_last hmore])

theorem addr_writeWord : (writeWord s).regs.addr = nextAddr s.regs.addr := by
  rw [writeWord_regs_of_not_last s hmore]

theorem idx_writeWord : (writeWord s).regs.idx.val = 0 := by
  rw [writeWord_regs_of_not_last s hmore]
  rfl

include h

theorem Sys.AtWrite.length_drop : (D.drop (chunksOfWord s.regs)).length = (writeWord s).regs.len.toNat + 1 := by
  have hle := chunksOfWord_le_of_not_last hmore
  rw [List.length_drop, h.length, toNat_len_writeWord hmore, ← chunksOfWord_of_not_last hmore]
  omega

theorem Sys.AtWrite.next : (writeWord s).AtWrite (D.drop (chunksOfWord s.regs)) q := by
  have hregs := writeWord_regs_of_not_last s hmore
  refine ⟨⟨h.unstalled.script, h.unstalled.steady, ?_⟩, ?_, h.responses, ?_, ?_, h.drop_serialIn, h.length_drop hmore⟩
  · rw [hregs]; exact h.unstalled.fault
  · rw [hregs]
  · rw [hregs]
  · rw [hregs]; exact (slotOf_of_mod_W (nextAddr_mod_W _)).symm

theorem Sys.AtWrite.wordCount_eq :
    wordCount cfg s.regs.addr.toNat s.regs.len.toNat =
      wordCount cfg (nextAddr s.regs.addr).toNat (writeWord s).regs.len.toNat + 1 := by
  rw [toNat_len_writeWord hmore, ← h.startSlot_eq]
  exact wordCount_of_goes_on (nextAddr_mod_W _) (by rw [h.startSlot_eq]; exact goes_on_of_not_last hmore)

end Next

theorem wordCount_pos (cfg : Config) (A L : Nat) : 0 < wordCount cfg A L :=
  Nat.div_pos (by omega) cfg.N_pos

theorem Sys.AtWrite.wordCount_of_last {D q : List (BitVec cfg.w)} {s : Sys cfg} (h : s.AtWrite D q)
    (hlast : lastWord s.regs) : wordCount cfg s.regs.addr.toNat s.regs.len.toNat = 1 :=
  wordCount_of_fits (by rw [h.startSlot_eq]; exact fits_of_last hlast)

/-! ### The rounds -/

theorem phase_writeWord_of_last {s : Sys cfg} (h : lastWord s.regs) : (writeWord s).regs.phase = .command := by
  rw [writeWord_regs_of_last s h]

theorem phase_writeWord_of_not_last {s : Sys cfg} (h : ¬ lastWord s.regs) : (writeWord s).regs.phase ≠ .command := by
  rw [writeWord_regs_of_not_last s h]
  exact fun hc => by cases hc

/-- The fuel that `wholeWrite` gives is enough for every word, and the words are gone through one by one. -/
theorem writeWords_induct {q : List (BitVec cfg.w)} {P : List (BitVec cfg.w) → Sys cfg → Sys cfg → Prop}
    (last : ∀ D s, s.AtWrite D q → lastWord s.regs → P D s (writeWord s))
    (more : ∀ D s t, s.AtWrite D q → ¬ lastWord s.regs → P (D.drop (chunksOfWord s.regs)) (writeWord s) t → P D s t)
    (fuel : Nat) (D : List (BitVec cfg.w)) (s : Sys cfg) (h : s.AtWrite D q) (hfuel : s.regs.len.toNat < fuel) :
    P D s (writeWords fuel s) := by
  induction fuel generalizing D s with
  | zero => omega
  | succ fuel ih =>
    rw [writeWords]
    by_cases hlast : lastWord s.regs
    · rw [if_pos (phase_writeWord_of_last hlast)]
      exact last D s h hlast
    · rw [if_neg (phase_writeWord_of_not_last hlast)]
      have hgo := goes_on_of_not_last hlast
      have hi := s.regs.idx.isLt
      refine more D s _ h hlast (ih _ _ (h.next hlast) ?_)
      rw [toNat_len_writeWord hlast]
      omega

theorem Sys.AtWrite.run_word {D q : List (BitVec cfg.w)} {s : Sys cfg} (h : s.AtWrite D q) :
    s.run = if (writeWord s).regs.phase = .command then writeWord s else (writeWord s).run := by
  refine run_writeWord s h.unstalled h.phase h.responses h.mask ?_ fun hc hnil => ?_
  · rw [h.serialIn, List.length_append]
    exact Nat.le_trans h.chunksOfWord_le (Nat.le_add_right _ _)
  · have hmore : ¬ lastWord s.regs := fun hl => hc (phase_writeWord_of_last hl)
    have hlen := h.length_drop hmore
    rw [h.drop_serialIn] at hnil
    rw [(List.append_eq_nil_iff.1 hnil).1, List.length_nil] at hlen
    omega

/-! ### The frame -/

/-- The machine when the header of a WRITE has been taken, `D` and then the host's other chunks still to come. -/
def afterWriteHeader (address len : Nat) (D : List (BitVec cfg.w)) (s : Sys cfg) : Sys cfg :=
  { afterHeader writeCode address len .writeBody (s.offer D) with
    regs := { (afterHeader writeCode address len .writeBody s).regs with valid := emptyMask cfg } }

theorem wholeWrite_eq (address len : Nat) (data : List Nat) (s : Sys cfg) :
    wholeWrite address len data s =
      writeWords (len + 1) (afterWriteHeader address len (data.map (BitVec.ofNat cfg.w)) s) := rfl

theorem Sys.Unstalled.atWrite {s : Sys cfg} (hu : s.Unstalled) (hr : s.responses = []) {address len : Nat}
    (hl : len < 2 ^ cfg.wordBits) {D : List (BitVec cfg.w)} (hD : D.length = len + 1) :
    (afterWriteHeader address len D s).AtWrite D s.serialIn := by
  refine ⟨⟨hu.script, hu.steady, hu.fault⟩, rfl, hr, rfl, rfl, rfl, ?_⟩
  show D.length = (BitVec.ofNat cfg.wordBits len).toNat + 1
  rw [hD, toNat_ofNat_of_lt hl]

/-- What holds of every word's round holds of `wholeWrite`. -/
theorem wholeWrite_induct {s : Sys cfg} {P : List (BitVec cfg.w) → Sys cfg → Sys cfg → Prop}
    (last : ∀ D s', s'.AtWrite D s.serialIn → lastWord s'.regs → P D s' (writeWord s'))
    (more : ∀ D s' t, s'.AtWrite D s.serialIn → ¬ lastWord s'.regs →
      P (D.drop (chunksOfWord s'.regs)) (writeWord s') t → P D s' t)
    (hu : s.Unstalled) (hr : s.responses = []) {address len : Nat} {data : List Nat}
    (hl : len < 2 ^ cfg.wordBits) (hd : data.length = len + 1) :
    P (data.map (BitVec.ofNat cfg.w)) (afterWriteHeader address len (data.map (BitVec.ofNat cfg.w)) s)
      (wholeWrite address len data s) := by
  rw [wholeWrite_eq]
  refine writeWords_induct last more _ _ _ (hu.atWrite hr hl (by rw [List.length_map, hd])) ?_
  show (BitVec.ofNat cfg.wordBits len).toNat < len + 1
  rw [toNat_ofNat_of_lt hl]
  exact Nat.lt_succ_self _

theorem run_offer_write {s : Sys cfg} {address len : Nat} {data : List Nat} (hu : s.Unstalled)
    (hp : s.regs.phase = .command) (hr : s.responses = []) (hl : len < 2 ^ cfg.wordBits)
    (hd : data.length = len + 1) :
    (s.offer (encodeWrite cfg address len data)).run = wholeWrite address len data s := by
  have hne : data.map (BitVec.ofNat cfg.w) ++ s.serialIn ≠ [] := fun hc => by
    have := congrArg List.length hc
    simp [hd] at this
  have hheader := run_writeHeader address len (data.map (BitVec.ofNat cfg.w) ++ s.serialIn) hne
    (s.offer (encodeWrite cfg address len data)) ⟨hu.script, hu.steady, hu.fault⟩ hp
    (by rw [offer_serialIn, encodeWrite, List.append_assoc])
  have hrounds : (afterWriteHeader address len (data.map (BitVec.ofNat cfg.w)) s).run = wholeWrite address len data s :=
    wholeWrite_induct (P := fun _ s t => s.run = t)
      (fun D s h hlast => by rw [h.run_word, if_pos (phase_writeWord_of_last hlast)])
      (fun D s t h hmore ih => by rw [h.run_word, if_neg (phase_writeWord_of_not_last hmore), ih]) hu hr hl hd
  rw [hheader, ← hrounds]
  rfl

/-- R111: WRITE with any stalls. -/
theorem Sys.ready.exec_write {s : Sys cfg} (h : s.ready) {address len : Nat} {data : List Nat}
    (hl : len < 2 ^ cfg.wordBits) (hd : data.length = len + 1) :
    ∃ t : Sys cfg, Machine.exec (.write address len data) ⟨cfg, s⟩ = .next ⟨cfg, t⟩ ∧ t.cooperative ∧
      t.calm = wholeWrite address len data s.calm := by
  obtain ⟨t, hexec, hco, hcalm⟩ := h.exec (.write address len data)
  exact ⟨t, hexec, hco, hcalm.trans (run_offer_write h.unstalled_calm h.phase h.responses hl hd)⟩

end Sys2Proof.Machine

open Sys2Proof Sys2Proof.Machine

/-- Settles O51: the header's ticks and the rounds' ticks are those of the pseudocode. -/
theorem writeIsTheWholeOperation : Obligations.WriteIsTheWholeOperation := by
  intro cfg s address len data h hs hwf
  obtain ⟨-, hl, hd, -⟩ := (wellFormed_write_iff _ _ _).1 hwf
  have hrun : (s.offer (encode cfg (.write address len data))).run = wholeWrite address len data s :=
    run_offer_write (h.unstalled hs) h.phase h.responses hl hd
  rw [exec_of_running _ h.fault, hrun]
end

section
/-! Proofs/WriteResults.lean: what WRITE leaves and issues (R111, R114, R176), each first of the rounds from a word on
and then of the frame. -/

namespace Sys2Proof.Machine

variable {cfg : Config}

/-! ### The buffer of a word -/

/-- R111: chunks in consecutive slots; every other slot holds. -/
theorem fillSlots_getElem (l : List (BitVec cfg.w)) (i : Nat) (body : Vector (BitVec cfg.w) cfg.N) {j : Nat}
    (hj : j < cfg.N) :
    (fillSlots l i body)[j] = if i ≤ j ∧ j < i + l.length then l.getD (j - i) 0#_ else body[j] := by
  induction l generalizing i body with
  | nil =>
    rw [fillSlots, if_neg]
    rw [List.length_nil]
    omega
  | cons x l ih =>
    rw [fillSlots, ih, Vector.getElem_setIfInBounds, List.length_cons]
    by_cases hij : i = j
    · subst hij
      rw [if_neg (by omega), if_pos rfl, if_pos (by omega), Nat.sub_self, List.getD_cons_zero]
    · rw [if_neg hij]
      by_cases hin : i ≤ j ∧ j < i + (l.length + 1)
      · have hsub : j - i = (j - (i + 1)) + 1 := by omega
        rw [if_pos (by omega), if_pos hin, hsub, List.getD_cons_succ]
      · rw [if_neg (by omega), if_neg hin]

theorem getD_take_of_lt {α : Type} (l : List α) (d : α) {n j : Nat} (h : j < n) : (l.take n).getD j d = l.getD j d := by
  rw [List.getD_eq_getElem?_getD, List.getD_eq_getElem?_getD, List.getElem?_take_of_lt h]

theorem getD_drop {α : Type} (l : List α) (d : α) (n j : Nat) : (l.drop n).getD j d = l.getD (n + j) d := by
  rw [List.getD_eq_getElem?_getD, List.getD_eq_getElem?_getD, List.getElem?_drop]

section Buffer
variable {D q : List (BitVec cfg.w)} {s : Sys cfg} (h : s.AtWrite D q)
include h

theorem Sys.AtWrite.length_take : (s.serialIn.take (chunksOfWord s.regs)).length = chunksOfWord s.regs := by
  rw [h.take_serialIn, List.length_take, Nat.min_eq_left h.chunksOfWord_le]

/-- The slots of the current word hold its chunks. -/
theorem Sys.AtWrite.wordBuffer_of_lt {j : Nat} (hj : j < chunksOfWord s.regs) (hN : s.regs.idx.val + j < cfg.N) :
    (wordBuffer s)[s.regs.idx.val + j] = D.getD j 0#_ := by
  rw [wordBuffer, fillSlots_getElem _ _ _ hN, h.length_take, if_pos (by omega), h.take_serialIn,
    Nat.add_sub_cancel_left, getD_take_of_lt _ _ hj]

theorem Sys.AtWrite.wordBuffer_of_out {i : Nat} (hi : i < cfg.N)
    (hout : i < s.regs.idx.val ∨ s.regs.idx.val + chunksOfWord s.regs ≤ i) : (wordBuffer s)[i] = s.regs.body[i] := by
  rw [wordBuffer, fillSlots_getElem _ _ _ hi, h.length_take, if_neg (by omega)]

end Buffer

/-! ### The whole end state -/

/-- What the rounds of WRITE make of a machine at the start of a word (R111). -/
structure WriteOutcome (D q : List (BitVec cfg.w)) (s t : Sys cfg) : Prop where
  phase : t.regs.phase = .command
  fault : t.regs.fault = s.regs.fault
  cmd : t.regs.cmd = s.regs.cmd
  len : t.regs.len = 0#_
  addr : t.regs.addr.toNat =
    if wordCount cfg s.regs.addr.toNat s.regs.len.toNat = 1 then s.regs.addr.toNat
    else (s.regs.addr.toNat - s.regs.addr.toNat % cfg.W +
      (wordCount cfg s.regs.addr.toNat s.regs.len.toNat - 1) * cfg.W) % 2 ^ cfg.wordBits
  idx : t.regs.idx.val = (s.regs.idx.val + s.regs.len.toNat) % cfg.N
  valid : t.regs.valid =
    slotRun cfg (firstSlot cfg s.regs.addr.toNat (wordCount cfg s.regs.addr.toNat s.regs.len.toNat - 1))
      (slotCount cfg s.regs.addr.toNat s.regs.len.toNat (wordCount cfg s.regs.addr.toNat s.regs.len.toNat - 1))
  untouched : ∀ i : Fin cfg.N, (∀ j, j ≤ s.regs.len.toNat → (s.regs.idx.val + j) % cfg.N ≠ i.val) →
    t.regs.body[i] = s.regs.body[i]
  stored : ∀ (i : Fin cfg.N) (j : Nat), j ≤ s.regs.len.toNat → s.regs.len.toNat < j + cfg.N →
    (s.regs.idx.val + j) % cfg.N = i.val → t.regs.body[i] = D.getD j 0#_
  emitted : Machine.emitted t.trace = Machine.emitted s.trace
  trace : s.trace <+: t.trace
  responses : t.responses = s.responses
  serialIn : t.serialIn = q
  answersMisaligned : t.answersMisaligned = s.answersMisaligned

theorem emitted_writeWord (s : Sys cfg) : emitted (writeWord s).trace = emitted s.trace := by
  rw [writeWord_trace, emitted_append, emitted_append, emitted_map_chunkIn, emitted_request, emitted_response,
    emitted_nil, List.append_nil, List.append_nil]

theorem isPrefix_writeWord (s : Sys cfg) : s.trace <+: (writeWord s).trace := by
  rw [writeWord_trace, List.append_assoc]
  exact ⟨_, rfl⟩

theorem slotCount_zero_eq {D q : List (BitVec cfg.w)} {s : Sys cfg} (h : s.AtWrite D q) :
    slotCount cfg s.regs.addr.toNat s.regs.len.toNat 0 = chunksOfWord s.regs := by
  rw [slotCount, firstSlot_zero, chunksBefore_zero, Nat.sub_zero, h.startSlot_eq, chunksOfWord]

theorem writeOutcome_of_last {D q : List (BitVec cfg.w)} {s : Sys cfg} (h : s.AtWrite D q) (hlast : lastWord s.regs) :
    WriteOutcome D q s (writeWord s) := by
  have hregs := writeWord_regs_of_last s hlast
  have hfits := fits_of_last hlast
  have hone := h.wordCount_of_last hlast
  have hbody : (writeWord s).regs.body = wordBuffer s := by rw [hregs]
  refine ⟨by rw [hregs], by rw [hregs], by rw [hregs], by rw [hregs], ?_, ?_, ?_, fun i hi => ?_,
    fun i j hj _ hij => ?_, emitted_writeWord s, isPrefix_writeWord s, writeWord_responses s, h.serialIn_of_last hlast,
    writeWord_answersMisaligned s⟩
  · rw [hregs, if_pos hone]
  · rw [hregs, show chunksOfWord s.regs = s.regs.len.toNat + 1 from hlast, Nat.add_sub_cancel]
  · rw [hregs, hone, Nat.sub_self, firstSlot_zero, h.startSlot_eq, slotCount_zero_eq h]
    rfl
  · rw [hbody]
    refine h.wordBuffer_of_out i.isLt ?_
    by_contra hin
    refine hi (i.val - s.regs.idx.val) ?_ ?_
    · rw [show chunksOfWord s.regs = s.regs.len.toNat + 1 from hlast] at hin
      omega
    · rw [Nat.mod_eq_of_lt (by omega)]
      omega
  · have hN : s.regs.idx.val + j < cfg.N := by omega
    rw [Nat.mod_eq_of_lt hN] at hij
    obtain rfl : i = ⟨s.regs.idx.val + j, hN⟩ := Fin.ext hij.symm
    rw [hbody]
    exact h.wordBuffer_of_lt (by rw [show chunksOfWord s.regs = s.regs.len.toNat + 1 from hlast]; omega) hN

/-- Between two words the cursor goes once round the slots. -/
theorem cursor_goes_round {i j : Nat} (hi : i < cfg.N) : (i + (cfg.N - i + j)) % cfg.N = j % cfg.N := by
  rw [← Nat.add_assoc, Nat.add_sub_cancel' (Nat.le_of_lt hi), Nat.add_mod_left]

/-- The address of the last word, when there are words after the current one. -/
theorem last_address_of_more (a : BitVec cfg.wordBits) {n : Nat} (hn : 0 < n) :
    (if n = 1 then (nextAddr a).toNat
      else ((nextAddr a).toNat - (nextAddr a).toNat % cfg.W + (n - 1) * cfg.W) % 2 ^ cfg.wordBits) =
      (a.toNat - a.toNat % cfg.W + n * cfg.W) % 2 ^ cfg.wordBits := by
  by_cases h1 : n = 1
  · rw [if_pos h1, h1, Nat.one_mul, toNat_nextAddr]
  · have hsucc : n - 1 + 1 = n := Nat.sub_add_cancel hn
    have hmod := wordStart_nextAddr_modEq a (n - 1)
    rw [hsucc] at hmod
    rw [if_neg h1]
    exact hmod

section Slots
variable {D q : List (BitVec cfg.w)} {s : Sys cfg} (h : s.AtWrite D q) (hmore : ¬ lastWord s.regs)
  {body : Vector (BitVec cfg.w) cfg.N}
  (later : ∀ i : Fin cfg.N, (∀ j, j ≤ s.regs.len.toNat - (cfg.N - s.regs.idx.val) → j % cfg.N ≠ i.val) →
    body[i] = (wordBuffer s)[i])
include h hmore later

/-- A slot that neither this word nor a later one stores into holds. -/
theorem Sys.AtWrite.untouched_of_more (i : Fin cfg.N)
    (hout : ∀ j, j ≤ s.regs.len.toNat → (s.regs.idx.val + j) % cfg.N ≠ i.val) : body[i] = s.regs.body[i] := by
  have hi := s.regs.idx.isLt
  have hgo := goes_on_of_not_last hmore
  have hcount := chunksOfWord_of_not_last hmore
  rw [later i fun j hj => ?_]
  · refine h.wordBuffer_of_out i.isLt ?_
    by_contra hin
    refine hout (i.val - s.regs.idx.val) (by omega) ?_
    rw [Nat.mod_eq_of_lt (by have := i.isLt; omega)]
    omega
  · have hne := hout (cfg.N - s.regs.idx.val + j) (by omega)
    rwa [cursor_goes_round hi] at hne

/-- The last chunk stored in a slot is one of the later words', or one of this word's when the later words end before
they come to its slot. -/
theorem Sys.AtWrite.stored_of_more
    (last : ∀ (i : Fin cfg.N) (j : Nat), j ≤ s.regs.len.toNat - (cfg.N - s.regs.idx.val) →
      s.regs.len.toNat - (cfg.N - s.regs.idx.val) < j + cfg.N → j % cfg.N = i.val →
      body[i] = (D.drop (chunksOfWord s.regs)).getD j 0#_)
    (i : Fin cfg.N) (j : Nat) (hj : j ≤ s.regs.len.toNat) (hlate : s.regs.len.toNat < j + cfg.N)
    (hij : (s.regs.idx.val + j) % cfg.N = i.val) : body[i] = D.getD j 0#_ := by
  have hi := s.regs.idx.isLt
  have hgo := goes_on_of_not_last hmore
  have hcount := chunksOfWord_of_not_last hmore
  by_cases hfirst : j < chunksOfWord s.regs
  · have hN : s.regs.idx.val + j < cfg.N := by omega
    rw [Nat.mod_eq_of_lt hN] at hij
    obtain rfl : i = ⟨s.regs.idx.val + j, hN⟩ := Fin.ext hij.symm
    rw [later _ fun j' hj' => ?_]
    · exact h.wordBuffer_of_lt hfirst hN
    · rw [Nat.mod_eq_of_lt (by omega)]
      omega
  · have hsplit : j = cfg.N - s.regs.idx.val + (j - chunksOfWord s.regs) := by omega
    rw [hsplit, cursor_goes_round hi] at hij
    rw [last i (j - chunksOfWord s.regs) (by omega) (by omega) hij, getD_drop,
      Nat.add_sub_cancel' (Nat.le_of_not_lt hfirst)]

end Slots

theorem writeOutcome_of_more {D q : List (BitVec cfg.w)} {s t : Sys cfg} (h : s.AtWrite D q)
    (hmore : ¬ lastWord s.regs) (ih : WriteOutcome (D.drop (chunksOfWord s.regs)) q (writeWord s) t) :
    WriteOutcome D q s t := by
  have hregs := writeWord_regs_of_not_last s hmore
  have hi := s.regs.idx.isLt
  have hgo := goes_on_of_not_last hmore
  have hcount := chunksOfWord_of_not_last hmore
  have haddr := addr_writeWord hmore
  have hlen := toNat_len_writeWord hmore
  have hidx := idx_writeWord hmore
  have hwc := h.wordCount_eq hmore
  have hstart := h.startSlot_eq
  have hbody : (writeWord s).regs.body = wordBuffer s := by rw [hregs]
  have huntouched := ih.untouched
  have hstored := ih.stored
  simp only [hidx, hlen, hbody, Nat.zero_add] at huntouched hstored
  have hpos := wordCount_pos cfg (nextAddr s.regs.addr).toNat (writeWord s).regs.len.toNat
  refine ⟨ih.phase, ?_, ?_, ih.len, ?_, ?_, ?_, fun i hout => ?_, fun i j hj hlate hij => ?_, ?_, ?_, ih.responses,
    ih.serialIn, ih.answersMisaligned⟩
  · rw [ih.fault, hregs]
  · rw [ih.cmd, hregs]
  · rw [ih.addr, haddr, hwc, last_address_of_more _ hpos, if_neg (by omega), Nat.add_sub_cancel]
  · have hsum : s.regs.idx.val + s.regs.len.toNat =
        s.regs.idx.val + (cfg.N - s.regs.idx.val + (s.regs.len.toNat - (cfg.N - s.regs.idx.val))) := by omega
    rw [ih.idx, hidx, hlen, Nat.zero_add, hsum, cursor_goes_round hi]
  · obtain ⟨k, hk⟩ : ∃ k, wordCount cfg (nextAddr s.regs.addr).toNat (writeWord s).regs.len.toNat = k + 1 :=
      ⟨_, (Nat.sub_add_cancel hpos).symm⟩
    rw [ih.valid, haddr, hwc, hk, Nat.add_sub_cancel, Nat.add_sub_cancel, firstSlot_succ (nextAddr_mod_W s.regs.addr),
      slotCount_succ (nextAddr_mod_W s.regs.addr) (by omega), hlen, hstart]
  · exact h.untouched_of_more hmore huntouched i hout
  · exact h.stored_of_more hmore huntouched hstored i j hj hlate hij
  · rw [ih.emitted, emitted_writeWord]
  · exact (isPrefix_writeWord s).trans ih.trace

/-! ### The requests -/

theorem requests_writeWord (s : Sys cfg) : requests (writeWord s).trace = requests s.trace ++ [putOfWord s] := by
  rw [writeWord_trace, requests_append, requests_append, requests_map_chunkIn, requests_request, requests_response,
    requests_nil, List.append_nil]

/-- R154, R176: the Put of word `k` of a WRITE of the chunks `D` at `A`. -/
def IsPutOfWord (D : List (BitVec cfg.w)) (A L k : Nat) (r : BusReq cfg) : Prop :=
  r.opcode = .put ∧ r.address = wordAddress cfg A k ∧ r.size = cfg.W ∧
    r.mask = expandMask (slotRun cfg (firstSlot cfg A k) (slotCount cfg A L k)) ∧
    ∀ j, j < slotCount cfg A L k → slotBits r.data (firstSlot cfg A k + j) = D.getD (chunksBefore cfg A k + j) 0#_

/-- R114: one Put for each word that is left. -/
def WritesOnePutPerWord (D : List (BitVec cfg.w)) (s t : Sys cfg) : Prop :=
  ∃ puts, requests t.trace = requests s.trace ++ puts ∧
    puts.length = wordCount cfg s.regs.addr.toNat s.regs.len.toNat ∧
    ∀ k r, puts[k]? = some r → IsPutOfWord D s.regs.addr.toNat s.regs.len.toNat k r

theorem Sys.AtWrite.isPutOfWord_zero {D q : List (BitVec cfg.w)} {s : Sys cfg} (h : s.AtWrite D q) :
    IsPutOfWord D s.regs.addr.toNat s.regs.len.toNat 0 (putOfWord s) := by
  have hcount := slotCount_zero_eq h
  refine ⟨rfl, (wordAddress_zero _).symm, rfl, ?_, fun j hj => ?_⟩
  · rw [hcount, firstSlot_zero, h.startSlot_eq]
    rfl
  · rw [hcount] at hj
    have hN : s.regs.idx.val + j < cfg.N := by
      have := s.regs.idx.isLt
      unfold chunksOfWord at hj
      omega
    rw [firstSlot_zero, chunksBefore_zero, h.startSlot_eq, Nat.zero_add]
    exact (slotBits_packWord _ _ hN).trans (h.wordBuffer_of_lt hj hN)

/-- The words of a WRITE from the next one on are its words `1`, `2`, and so on. -/
theorem Sys.AtWrite.isPutOfWord_succ {D q : List (BitVec cfg.w)} {s : Sys cfg} (h : s.AtWrite D q)
    (hmore : ¬ lastWord s.regs) {k : Nat} {r : BusReq cfg}
    (hr : IsPutOfWord (D.drop (chunksOfWord s.regs)) (writeWord s).regs.addr.toNat (writeWord s).regs.len.toNat k r) :
    IsPutOfWord D s.regs.addr.toNat s.regs.len.toNat (k + 1) r := by
  have hgo := goes_on_of_not_last hmore
  have hB := nextAddr_mod_W s.regs.addr
  have hle : cfg.N - startSlot cfg s.regs.addr.toNat ≤ s.regs.len.toNat := by rw [h.startSlot_eq]; omega
  rw [toNat_len_writeWord hmore, addr_writeWord hmore, ← h.startSlot_eq] at hr
  obtain ⟨hop, haddr, hsize, hmask, hdata⟩ := hr
  refine ⟨hop, ?_, hsize, ?_, fun j hj => ?_⟩
  · rw [haddr, wordAddress_succ]
  · rw [hmask, firstSlot_succ hB, slotCount_succ hB hle]
  · rw [slotCount_succ hB hle] at hj
    rw [firstSlot_succ hB, hdata j hj, getD_drop, chunksBefore_succ hB, chunksOfWord_of_not_last hmore,
      h.startSlot_eq, Nat.add_assoc]

theorem writesOnePutPerWord_of_last {D q : List (BitVec cfg.w)} {s : Sys cfg} (h : s.AtWrite D q)
    (hlast : lastWord s.regs) : WritesOnePutPerWord D s (writeWord s) := by
  refine ⟨[putOfWord s], requests_writeWord s, (h.wordCount_of_last hlast).symm, fun k r hr => ?_⟩
  cases k with
  | zero => cases hr; exact h.isPutOfWord_zero
  | succ k => cases hr

theorem writesOnePutPerWord_of_more {D q : List (BitVec cfg.w)} {s t : Sys cfg} (h : s.AtWrite D q)
    (hmore : ¬ lastWord s.regs) (ih : WritesOnePutPerWord (D.drop (chunksOfWord s.regs)) (writeWord s) t) :
    WritesOnePutPerWord D s t := by
  obtain ⟨puts, hreq, hlen, hputs⟩ := ih
  refine ⟨putOfWord s :: puts, ?_, ?_, fun k r hr => ?_⟩
  · rw [hreq, requests_writeWord, List.append_assoc, List.singleton_append]
  · rw [List.length_cons, hlen, h.wordCount_eq hmore, addr_writeWord hmore]
  · cases k with
    | zero => cases hr; exact h.isPutOfWord_zero
    | succ k => exact h.isPutOfWord_succ hmore (hputs k r hr)

/-! ### The frame -/

section AfterWriteHeader
variable (address len : Nat) (D : List (BitVec cfg.w)) (s : Sys cfg)
@[simp] theorem afterWriteHeader_addr :
    (afterWriteHeader address len D s).regs.addr = BitVec.ofNat cfg.wordBits address := rfl
@[simp] theorem afterWriteHeader_len :
    (afterWriteHeader address len D s).regs.len = BitVec.ofNat cfg.wordBits len := rfl
@[simp] theorem afterWriteHeader_idx :
    (afterWriteHeader address len D s).regs.idx = slotOf (BitVec.ofNat cfg.wordBits address) := rfl
@[simp] theorem afterWriteHeader_body : (afterWriteHeader address len D s).regs.body = s.regs.body := rfl
@[simp] theorem afterWriteHeader_mem : (afterWriteHeader address len D s).mem = s.mem := rfl
@[simp] theorem emitted_afterWriteHeader : emitted (afterWriteHeader address len D s).trace = emitted s.trace :=
  emitted_afterHeader writeCode address len .writeBody s
@[simp] theorem requests_afterWriteHeader : requests (afterWriteHeader address len D s).trace = requests s.trace :=
  requests_afterHeader writeCode address len .writeBody s
theorem isPrefix_afterWriteHeader : s.trace <+: (afterWriteHeader address len D s).trace := ⟨_, rfl⟩
end AfterWriteHeader

/-- A data chunk of a well-formed WRITE as a number. -/
theorem toNat_getD_map_ofNat {data : List Nat} (h : ∀ x ∈ data, x < 2 ^ cfg.w) (j : Nat) :
    ((data.map (BitVec.ofNat cfg.w)).getD j 0#_).toNat = data.getD j 0 := by
  have hmap := List.getD_map (data.map (BitVec.ofNat cfg.w)) 0#_ BitVec.toNat (n := j)
  rw [map_toNat_map_ofNat h, BitVec.toNat_ofNat, Nat.zero_mod] at hmap
  exact hmap.symm

end Sys2Proof.Machine

open Sys2Proof Sys2Proof.Machine

/-- Settles O50: the outcome of the rounds, read at the registers the header leaves. -/
theorem writeCompletes : Obligations.WriteCompletes := by
  intro cfg s address len data h hwf
  obtain ⟨haddr, hlen, hd, hfit⟩ := (wellFormed_write_iff _ _ _).1 hwf
  obtain ⟨t, hexec, hco, hcalm⟩ := h.exec_write (address := address) hlen hd
  have hout := wholeWrite_induct (s := s.calm) (P := fun D s' t => WriteOutcome D s.calm.serialIn s' t)
    (fun _ _ => writeOutcome_of_last) (fun _ _ _ => writeOutcome_of_more) h.unstalled_calm h.responses
    (address := address) hlen hd
  rw [← hcalm] at hout
  have hA : (BitVec.ofNat cfg.wordBits address).toNat = address := toNat_ofNat_of_lt haddr
  have hL : (BitVec.ofNat cfg.wordBits len).toNat = len := toNat_ofNat_of_lt hlen
  obtain ⟨hphase, hfault, hcmd, hl, ha, hi, hv, huntouched, hstored, hemit, htrace, hresp, hin, hans⟩ := hout
  simp only [calm_regs, calm_trace, afterWriteHeader_addr, afterWriteHeader_len, afterWriteHeader_idx,
    afterWriteHeader_body, emitted_afterWriteHeader, val_slotOf_eq_startSlot, hA, hL]
    at ha hi hv huntouched hstored hemit
  refine ⟨t, hexec, ⟨⟨hphase, hfault.trans h.fault⟩, hresp.trans h.responses, hco⟩, ?_, hl, ha, hi, hv, huntouched,
    fun i j hj hlate hij => ?_, hemit, hin, hans, ?_⟩
  · exact (congrArg BitVec.toNat hcmd).trans toNat_writeCode
  · rw [hstored i j hj hlate hij, toNat_getD_map_ofNat hfit]
  · exact (isPrefix_afterWriteHeader address len _ s.calm).trans htrace

/-- Settles O54: one Put by each round. -/
theorem writeIssuesOnePutPerWord : Obligations.WriteIssuesOnePutPerWord := by
  intro cfg s address len data h hwf
  obtain ⟨haddr, hlen, hd, hfit⟩ := (wellFormed_write_iff _ _ _).1 hwf
  obtain ⟨t, hexec, -, hcalm⟩ := h.exec_write (address := address) hlen hd
  obtain ⟨puts, hreq, hcount, hputs⟩ := wholeWrite_induct (s := s.calm) (P := WritesOnePutPerWord)
    (fun _ _ => writesOnePutPerWord_of_last) (fun _ _ _ => writesOnePutPerWord_of_more) h.unstalled_calm h.responses
    (address := address) hlen hd
  simp only [← hcalm, calm_trace, afterWriteHeader_addr, afterWriteHeader_len, requests_afterWriteHeader,
    toNat_ofNat_of_lt haddr, toNat_ofNat_of_lt hlen] at hreq hcount hputs
  refine ⟨t, puts, hexec, hreq, hcount, fun k r hr => ?_⟩
  obtain ⟨hop, hra, hsize, hmask, hdata⟩ := hputs k r hr
  refine ⟨hop, hra, hsize, hmask, fun j hj => ?_⟩
  rw [← toNat_getD_map_ofNat hfit, ← hdata j hj]
  rfl
end

section
/-! Proofs/WrittenMemory.lean: what a WRITE makes of memory (R111): the lanes of a word's Put are the bytes of its
chunks, in the same order, so the two memories are one. -/

namespace Sys2Proof.Machine

variable {cfg : Config}

/-! ### The lanes of a Put -/

section Lanes
variable (base : Nat) (data : BitVec cfg.wordBits) (mask : BitVec cfg.W)

theorem writeLanes_add (n k j : Nat) (m : Memory) :
    writeLanes base data mask (n + k) j m = writeLanes base data mask k (j + n) (writeLanes base data mask n j m) := by
  induction n generalizing j m with
  | zero => rw [Nat.zero_add, Nat.add_zero, writeLanes]
  | succ n ih => rw [Nat.succ_add, writeLanes, writeLanes, ih, Nat.add_assoc, Nat.add_comm 1]

theorem writeLanes_of_unmasked {n j : Nat} (h : ∀ k, j ≤ k → k < j + n → mask.getLsbD k = false) (m : Memory) :
    writeLanes base data mask n j m = m := by
  induction n generalizing j with
  | zero => rfl
  | succ n ih =>
    rw [writeLanes, h j (Nat.le_refl _) (by omega), if_neg (by decide)]
    exact ih fun k h1 h2 => h k (by omega) (by omega)

/-- Masked lanes are the bytes of a chunk that they hold. -/
theorem writeLanes_of_masked {a k : Nat} {x : BitVec cfg.w} {n b : Nat}
    (hmask : ∀ i, b ≤ i → i < b + n → mask.getLsbD (k + i) = true)
    (haddr : ∀ i, b ≤ i → i < b + n → base + (k + i) = (a + i) % 2 ^ cfg.addrBits)
    (hbyte : ∀ i, b ≤ i → i < b + n → byteOf data (k + i) = byteOf x i) (m : Memory) :
    writeLanes base data mask n (k + b) m = memWriteBytes cfg a x n b m := by
  induction n generalizing b m with
  | zero => rfl
  | succ n ih =>
    rw [writeLanes, memWriteBytes, hmask b (Nat.le_refl _) (by omega), if_pos rfl, haddr b (Nat.le_refl _) (by omega),
      hbyte b (Nat.le_refl _) (by omega), Nat.add_assoc]
    exact ih (fun i h1 h2 => hmask i (by omega) (by omega)) (fun i h1 h2 => haddr i (by omega) (by omega))
      (fun i h1 h2 => hbyte i (by omega) (by omega)) _

end Lanes

/-- R111: the chunks of `D` written one after the other from address `a` on. -/
def writeChunks (cfg : Config) (a : Nat) (D : List (BitVec cfg.w)) (n : Nat) (m : Memory) : Memory :=
  (List.range n).foldl (fun m j => memWriteChunk cfg m (a + j * cfg.c) (D.getD j 0#_)) m

theorem writeChunks_succ (a : Nat) (D : List (BitVec cfg.w)) (n : Nat) (m : Memory) :
    writeChunks cfg a D (n + 1) m = memWriteChunk cfg (writeChunks cfg a D n m) (a + n * cfg.c) (D.getD n 0#_) := by
  rw [writeChunks, List.range_succ, List.foldl_append, List.foldl_cons, List.foldl_nil, writeChunks]

theorem memWriteBytes_congr {width a b : Nat} (h : a ≡ b [MOD 2 ^ cfg.addrBits]) (v : BitVec width) (n j : Nat)
    (m : Memory) : memWriteBytes cfg a v n j m = memWriteBytes cfg b v n j m := by
  induction n generalizing j m with
  | zero => rfl
  | succ n ih =>
    have hj : (a + j) % 2 ^ cfg.addrBits = (b + j) % 2 ^ cfg.addrBits := h.add_right j
    rw [memWriteBytes, memWriteBytes, hj, ih]

theorem writeChunks_congr {a b : Nat} (h : a ≡ b [MOD 2 ^ cfg.addrBits]) (D : List (BitVec cfg.w)) (n : Nat)
    (m : Memory) : writeChunks cfg a D n m = writeChunks cfg b D n m := by
  induction n with
  | zero => rfl
  | succ n ih =>
    rw [writeChunks_succ, writeChunks_succ, ih]
    exact memWriteBytes_congr (h.add_right _) _ _ _ _

theorem writeChunks_add (a : Nat) (D : List (BitVec cfg.w)) (n k : Nat) (m : Memory) :
    writeChunks cfg a D (n + k) m = writeChunks cfg (a + n * cfg.c) (D.drop n) k (writeChunks cfg a D n m) := by
  induction k with
  | zero => rfl
  | succ k ih => rw [← Nat.add_assoc, writeChunks_succ, ih, writeChunks_succ, getD_drop, Nat.add_assoc, Nat.add_mul]

/-! ### One word -/

section Word
variable {D q : List (BitVec cfg.w)} {s : Sys cfg} (h : s.AtWrite D q)

theorem wordMask_getLsbD (s : Sys cfg) {i b : Nat} (hi : i < cfg.N) (hb : b < cfg.c) :
    (expandMask (wordMask s)).getLsbD (i * cfg.c + b) =
      (decide (s.regs.idx.val ≤ i) && decide (i < s.regs.idx.val + chunksOfWord s.regs)) := by
  rw [expandMask_getLsbD_byteLane _ hi hb, wordMask, slotRun_getLsbD, decide_eq_true hi, Bool.true_and]

theorem idx_add_chunksOfWord_le (S : Regs cfg) : S.idx.val + chunksOfWord S ≤ cfg.N := by
  have := S.idx.isLt
  unfold chunksOfWord
  omega

include h

/-- The lanes of the slots used in the current word write its chunks. -/
theorem Sys.AtWrite.writeLanes_used {n : Nat} (hn : n ≤ chunksOfWord s.regs) (m : Memory) :
    writeLanes (wordBase s.regs.addr).toNat (packWord (wordBuffer s)) (expandMask (wordMask s)) (n * cfg.c)
        (s.regs.idx.val * cfg.c) m =
      writeChunks cfg (s.regs.addr.toNat - s.regs.addr.toNat % cfg.c) D n m := by
  have hcount := idx_add_chunksOfWord_le s.regs
  induction n with
  | zero =>
    rw [Nat.zero_mul]
    rfl
  | succ n ih =>
    have hN : s.regs.idx.val + n < cfg.N := by omega
    have hlane : s.regs.idx.val * cfg.c + n * cfg.c = (s.regs.idx.val + n) * cfg.c + 0 := by
      rw [Nat.add_mul, Nat.add_zero]
    rw [Nat.succ_mul, writeLanes_add, ih (by omega), writeChunks_succ, hlane, memWriteChunk]
    refine writeLanes_of_masked _ _ _ (fun b _ hb => ?_) (fun b _ hb => ?_) (fun b _ hb => ?_) _
    all_goals rw [Nat.zero_add] at hb
    · rw [wordMask_getLsbD s hN hb, decide_eq_true (by omega), decide_eq_true (by omega)]
      rfl
    · rw [h.slot] at hN ⊢
      exact wordBase_add_lane _ hN hb
    · rw [← byteOf_slotBits _ _ hb, slotBits_packWord _ _ hN, h.wordBuffer_of_lt (by omega) hN]

/-- R57, R111: a word's Put makes of memory what its chunks make of it. -/
theorem Sys.AtWrite.mem_writeWord :
    (writeWord s).mem =
      writeChunks cfg (s.regs.addr.toNat - s.regs.addr.toNat % cfg.c) D (chunksOfWord s.regs) s.mem := by
  have hcount := idx_add_chunksOfWord_le s.regs
  have hlanes : cfg.W = s.regs.idx.val * cfg.c + chunksOfWord s.regs * cfg.c +
      (cfg.N - (s.regs.idx.val + chunksOfWord s.regs)) * cfg.c := by
    rw [← Nat.add_mul, ← Nat.add_mul, Nat.add_sub_cancel' hcount, cfg.N_mul_c]
  have hunmasked : ∀ k, k < cfg.W → k / cfg.c < s.regs.idx.val ∨ s.regs.idx.val + chunksOfWord s.regs ≤ k / cfg.c →
      (expandMask (wordMask s)).getLsbD k = false := by
    intro k hk hout
    rw [expandMask_getLsbD, wordMask, slotRun_getLsbD]
    rcases hout with hlow | hhigh
    · simp [Nat.not_le.2 hlow]
    · simp [Nat.not_lt.2 hhigh]
  rw [writeWord_mem, hlanes, writeLanes_add, writeLanes_add, writeLanes_of_unmasked (j := 0), Nat.zero_add,
    Nat.zero_add, h.writeLanes_used (Nat.le_refl _), writeLanes_of_unmasked]
  · intro k h1 h2
    refine hunmasked k (by omega) (.inr ?_)
    rw [Nat.le_div_iff_mul_le cfg.c_pos, Nat.add_mul]
    omega
  · intro k _ h2
    exact hunmasked k (by omega) (.inl ((Nat.div_lt_iff_lt_mul cfg.c_pos).2 (by omega)))

end Word

/-! ### The rounds and the frame -/

/-- R111, result: the chunks that are left, from the current address on. -/
def WritesChunks (D : List (BitVec cfg.w)) (s t : Sys cfg) : Prop :=
  t.mem = writeChunks cfg (s.regs.addr.toNat - s.regs.addr.toNat % cfg.c) D (s.regs.len.toNat + 1) s.mem

theorem writesChunks_of_last {D q : List (BitVec cfg.w)} {s : Sys cfg} (h : s.AtWrite D q) (hlast : lastWord s.regs) :
    WritesChunks D s (writeWord s) := by
  rw [WritesChunks, h.mem_writeWord, show chunksOfWord s.regs = s.regs.len.toNat + 1 from hlast]

theorem writesChunks_of_more {D q : List (BitVec cfg.w)} {s t : Sys cfg} (h : s.AtWrite D q)
    (hmore : ¬ lastWord s.regs) (ih : WritesChunks (D.drop (chunksOfWord s.regs)) (writeWord s) t) :
    WritesChunks D s t := by
  have hcount := chunksOfWord_of_not_last hmore
  have hsum : s.regs.len.toNat + 1 = chunksOfWord s.regs + ((writeWord s).regs.len.toNat + 1) := by
    have hgo := goes_on_of_not_last hmore
    rw [toNat_len_writeWord hmore, hcount]
    omega
  have haddr := nextAddr_add_modEq s.regs.addr 0
  rw [Nat.zero_mul, Nat.add_zero, Nat.add_zero, ← h.slot, ← hcount] at haddr
  rw [WritesChunks, ih, h.mem_writeWord, addr_writeWord hmore, mod_c_of_mod_W (nextAddr_mod_W s.regs.addr),
    Nat.sub_zero, writeChunks_congr haddr, ← writeChunks_add, ← hsum]

/-- WRITE with any stalls: what it makes of memory (R111). -/
theorem Sys.ready.exec_write_mem {s : Sys cfg} (h : s.ready) {address len : Nat} {data : List Nat}
    (haddr : address < 2 ^ cfg.wordBits) (hlen : len < 2 ^ cfg.wordBits) (hd : data.length = len + 1) :
    ∃ t : Sys cfg, Machine.exec (.write address len data) ⟨cfg, s⟩ = .next ⟨cfg, t⟩ ∧
      t.mem = writeChunks cfg (address - address % cfg.c) (data.map (BitVec.ofNat cfg.w)) (len + 1) s.mem := by
  obtain ⟨t, hexec, -, hcalm⟩ := h.exec_write (address := address) hlen hd
  have hmem := wholeWrite_induct (s := s.calm) (P := WritesChunks) (fun _ _ => writesChunks_of_last)
    (fun _ _ _ => writesChunks_of_more) h.unstalled_calm h.responses (address := address) hlen hd
  rw [← hcalm, WritesChunks, afterWriteHeader_addr, afterWriteHeader_len, afterWriteHeader_mem, toNat_ofNat_of_lt haddr,
    toNat_ofNat_of_lt hlen] at hmem
  exact ⟨t, hexec, hmem⟩

/-! ### The bytes of the chunks written -/

theorem writeChunks_wf (a : Nat) (D : List (BitVec cfg.w)) (n : Nat) {m : Memory} (h : m.wf = true) :
    (writeChunks cfg a D n m).wf = true := by
  induction n with
  | zero => exact h
  | succ n ih => rw [writeChunks_succ]; exact memWriteChunk_wf _ _ _ _ ih

/-- A byte that no byte of the chunks falls on reads as before. -/
theorem read_writeChunks_of_ne {a : Nat} (D : List (BitVec cfg.w)) {n : Nat} {m : Memory} (h : m.wf = true) {x : Nat}
    (hx : ∀ j b, j < n → b < cfg.c → x ≠ (a + j * cfg.c + b) % 2 ^ cfg.addrBits) :
    (writeChunks cfg a D n m).read x = m.read x := by
  induction n with
  | zero => rfl
  | succ n ih =>
    rw [writeChunks_succ, memWriteChunk, read_memWriteBytes_of_ne _ _ _ _ _ _ (writeChunks_wf a D n h)]
    · exact ih fun j b hj hb => hx j b (by omega) hb
    · exact fun b _ hb => (hx n b (Nat.lt_succ_self n) (by omega)).symm

/-- Two offsets below the size of the address space that fall on one address are one. -/
theorem offset_inj {a i j M : Nat} (hi : i < M) (hj : j < M) (h : (a + i) % M = (a + j) % M) : i = j := by
  have hmod : i ≡ j [MOD M] := Nat.ModEq.add_left_cancel' a h
  rwa [Nat.ModEq, Nat.mod_eq_of_lt hi, Nat.mod_eq_of_lt hj] at hmod

/-- Byte `i` of a chunk that does not wrap onto itself. -/
theorem read_memWriteBytes {width a : Nat} (v : BitVec width) {n b : Nat} {m : Memory} (h : m.wf = true)
    (hn : b + n ≤ 2 ^ cfg.addrBits) {i : Nat} (hbi : b ≤ i) (hin : i < b + n) :
    (memWriteBytes cfg a v n b m).read ((a + i) % 2 ^ cfg.addrBits) = byteOf v i := by
  induction n generalizing b m with
  | zero => omega
  | succ n ih =>
    rw [memWriteBytes]
    by_cases hib : i = b
    · subst hib
      rw [read_memWriteBytes_of_ne _ _ _ _ _ _ (Memory.write_wf _ _ _ h), Memory.read_write _ _ _ _ h, if_pos rfl]
      intro k hk1 hk2 heq
      have := offset_inj (by omega) (by omega) heq
      omega
    · exact ih (Memory.write_wf _ _ _ h) (by omega) (by omega) (by omega)

/-- R63: a chunk written is read back from its address, when the chunks do not wrap onto themselves. -/
theorem memReadChunk_writeChunks (a : Nat) (D : List (BitVec cfg.w)) {n : Nat} {m : Memory} (h : m.wf = true)
    (hn : n * cfg.c ≤ 2 ^ cfg.addrBits) {j : Nat} (hj : j < n) :
    memReadChunk cfg (writeChunks cfg a D n m) (a + j * cfg.c) = D.getD j 0#_ := by
  rw [memReadChunk, ← ofBytesLE_byteOf cfg.w cfg.c (D.getD j 0#_) cfg.eight_mul_c]
  apply ofBytesLE_congr
  intro b hb
  induction n with
  | zero => omega
  | succ n ih =>
    rw [Nat.succ_mul] at hn
    rw [writeChunks_succ, memWriteChunk]
    by_cases hjn : j = n
    · subst hjn
      exact read_memWriteBytes _ (writeChunks_wf a D j h) (by omega) (Nat.zero_le _) (by omega)
    · rw [read_memWriteBytes_of_ne _ _ _ _ _ _ (writeChunks_wf a D n h)]
      · exact ih (by omega) (by omega)
      · intro k _ hk heq
        have hlt : j * cfg.c + b < n * cfg.c := byteLane_lt_mul (by omega) hb
        rw [Nat.add_assoc, Nat.add_assoc] at heq
        have := offset_inj (by omega) (by omega) heq
        omega

end Sys2Proof.Machine

open Sys2Proof Sys2Proof.Machine

/-- Settles O52: each round's Put writes its chunks, and the rounds go on where the last one stopped. -/
theorem writeStoresTheChunks : Obligations.WriteStoresTheChunks := by
  intro cfg s address len data h hwf
  obtain ⟨haddr, hlen, hd, -⟩ := (wellFormed_write_iff _ _ _).1 hwf
  obtain ⟨t, hexec, hmem⟩ := h.exec_write_mem haddr hlen hd
  refine ⟨t, hexec, hmem.trans ?_⟩
  have hchunk : ∀ j, (data.map (BitVec.ofNat cfg.w)).getD j 0#_ = BitVec.ofNat cfg.w (data.getD j 0) := fun j =>
    List.getD_map data 0 (BitVec.ofNat cfg.w)
  simp only [writeChunks, hchunk]

/-- Settles O53: the chunks of `WriteStoresTheChunks` fall on no other byte. -/
theorem writeLeavesOtherBytesAlone : Obligations.WriteLeavesOtherBytesAlone := by
  intro cfg s t address len data h hmwf hwf hexec a hout
  obtain ⟨haddr, hlen, hd, -⟩ := (wellFormed_write_iff _ _ _).1 hwf
  obtain ⟨t', hexec', hmem⟩ := h.exec_write_mem haddr hlen hd
  obtain rfl : t' = t := by
    rw [hexec'] at hexec
    cases hexec
    rfl
  rw [hmem]
  exact read_writeChunks_of_ne _ hmwf fun j b hj hb => hout j b (by omega) hb
end

section
/-! Proofs/BothCommands.lean: two operations after one another (R116), and two machines that differ in what an earlier
operation left in their registers (R32). -/

namespace Sys2Proof.Machine

variable {cfg : Config}

/-- A command has one outcome. -/
theorem exec_next_unique {i : Instr} {s : State} {t u : Sys cfg} (ht : exec i s = .next ⟨cfg, t⟩)
    (hu : exec i s = .next ⟨cfg, u⟩) : t = u := by
  rw [ht] at hu
  cases hu
  rfl

/-! ### Stale registers and READ -/

/-- The machine with another word buffer and another validity mask. -/
def withStale (body : Vector (BitVec cfg.w) cfg.N) (valid : BitVec cfg.N) (s : Sys cfg) : Sys cfg :=
  { s with regs := { s.regs with body := body, valid := valid } }

/-- The machine with another validity mask. -/
def withValid (valid : BitVec cfg.N) (s : Sys cfg) : Sys cfg := { s with regs := { s.regs with valid := valid } }

/-- R192, R196: a word's round loads the whole buffer and does not look at the mask. -/
theorem readWord_withStale (body : Vector (BitVec cfg.w) cfg.N) (valid : BitVec cfg.N) (s : Sys cfg) :
    readWord (withStale body valid s) = withValid valid (readWord s) := rfl

theorem readWord_withValid (valid : BitVec cfg.N) (s : Sys cfg) :
    readWord (withValid valid s) = withValid valid (readWord s) := rfl

theorem readWords_withValid (valid : BitVec cfg.N) (fuel : Nat) (s : Sys cfg) :
    readWords fuel (withValid valid s) = withValid valid (readWords fuel s) := by
  induction fuel generalizing s with
  | zero => rfl
  | succ fuel ih =>
    have hphase : (withValid valid (readWord s)).regs.phase = (readWord s).regs.phase := rfl
    rw [readWords, readWords, readWord_withValid, ih, hphase, ← apply_ite (withValid valid)]

theorem readWords_withStale (body : Vector (BitVec cfg.w) cfg.N) (valid : BitVec cfg.N) (fuel : Nat) (s : Sys cfg) :
    readWords (fuel + 1) (withStale body valid s) = withValid valid (readWords (fuel + 1) s) := by
  have hphase : (withValid valid (readWord s)).regs.phase = (readWord s).regs.phase := rfl
  rw [readWords, readWords, readWord_withStale, readWords_withValid, hphase, ← apply_ite (withValid valid)]

/-- The header overwrites every register but buffer, mask and latch. -/
theorem afterHeader_withStale {code address len : Nat} {phase : Phase} {s : Sys cfg} {S : Regs cfg}
    (hf : s.regs.fault = S.fault) :
    afterHeader code address len phase s =
      withStale s.regs.body s.regs.valid (afterHeader code address len phase { s with regs := S }) := by
  simp only [afterHeader, withStale, hf]

theorem wholeRead_stale {address len : Nat} {s : Sys cfg} {S : Regs cfg} (hf : s.regs.fault = S.fault) :
    wholeRead address len s = withValid s.regs.valid (wholeRead address len { s with regs := S }) := by
  rw [wholeRead, afterHeader_withStale hf, readWords_withStale, wholeRead]

theorem Sys.ready.withRegs {s : Sys cfg} (h : s.ready) {S : Regs cfg} (hp : S.phase = .command) (hf : S.fault = false) :
    ({ s with regs := S } : Sys cfg).ready := ⟨⟨hp, hf⟩, h.responses, h.cooperative⟩

/-! ### Stale registers and WRITE -/

/-- What a request says apart from its data. -/
def requestHead (r : BusReq cfg) : BusOpcode × BitVec cfg.addrBits × Nat × BitVec cfg.W :=
  (r.opcode, r.address, r.size, r.mask)

theorem map_eq_of_getElem? {α β : Type} {l : List α} {f : α → β} {g : Nat → β}
    (h : ∀ k x, l[k]? = some x → f x = g k) : l.map f = (List.range l.length).map g := by
  apply List.ext_getElem
  · rw [List.length_map, List.length_map, List.length_range]
  · intro k h1 h2
    rw [List.getElem_map, List.getElem_map, List.getElem_range]
    exact h k _ (List.getElem?_eq_getElem _)

/-- The Put of word `k` of a WRITE apart from its data (R154, R176). -/
def putHead (cfg : Config) (A L k : Nat) : BusOpcode × BitVec cfg.addrBits × Nat × BitVec cfg.W :=
  (.put, wordAddress cfg A k, cfg.W, expandMask (slotRun cfg (firstSlot cfg A k) (slotCount cfg A L k)))

/-- The Puts of a WRITE are named by address and length, their data apart. -/
theorem Sys.ready.exec_write_heads {s : Sys cfg} (h : s.ready) {address len : Nat} {data : List Nat}
    (hwf : (Instr.write address len data).wellFormed cfg = true) :
    ∃ t : Sys cfg, Machine.exec (.write address len data) ⟨cfg, s⟩ = .next ⟨cfg, t⟩ ∧
      (requests t.trace).map requestHead = (requests s.trace).map requestHead ++
        (List.range (wordCount cfg address len)).map (putHead cfg address len) := by
  obtain ⟨t, puts, hexec, hreq, hcount, hputs⟩ := writeIssuesOnePutPerWord cfg s address len data h hwf
  refine ⟨t, hexec, ?_⟩
  have hheads : puts.map requestHead = (List.range puts.length).map (putHead cfg address len) := by
    refine map_eq_of_getElem? fun k r hr => ?_
    obtain ⟨hop, haddr, hsize, hmask, -⟩ := hputs k r hr
    rw [requestHead, putHead, hop, haddr, hsize, hmask]
  rw [hreq, List.map_append, hheads, hcount]

theorem regs_eq_withBody {S T : Regs cfg} (hphase : S.phase = T.phase) (hcmd : S.cmd = T.cmd) (haddr : S.addr = T.addr)
    (hlen : S.len = T.len) (hvalid : S.valid = T.valid) (hidx : S.idx = T.idx) (hfault : S.fault = T.fault) :
    S = { T with body := S.body } := by
  cases S
  cases T
  simp_all

end Sys2Proof.Machine

open Sys2Proof Sys2Proof.Machine

/-- Settles O55: the READ's chunks of memory are those that the WRITE stored, which do not overlap. -/
theorem writtenDataIsReadBack : Obligations.WrittenDataIsReadBack := by
  intro cfg s address len data h hmwf hwf hca hga hfits
  obtain ⟨haddr, hlen, hd, -⟩ := (wellFormed_write_iff _ _ _).1 hwf
  obtain ⟨t, hwrite, hready, -, -, -, -, -, -, -, hemit, -, -, -⟩ := writeCompletes cfg s address len data h hwf
  obtain ⟨t', hwrite', hmem⟩ := h.exec_write_mem haddr hlen hd
  obtain rfl := exec_next_unique hwrite hwrite'
  obtain ⟨u, hread, hout⟩ := hready.exec_read_emitted haddr hlen hca hga
  refine ⟨t, u, hwrite, hread, ?_⟩
  have hlength : (data.map (BitVec.ofNat cfg.w)).length = len + 1 := by rw [List.length_map, hd]
  have hchunks : (List.range (len + 1)).map (fun j => memReadChunk cfg t.mem (address + j * cfg.c)) =
      data.map (BitVec.ofNat cfg.w) := by
    have hself := map_eq_of_getElem? (l := data.map (BitVec.ofNat cfg.w)) (f := id)
      (g := fun j => memReadChunk cfg t.mem (address + j * cfg.c)) fun k x hx => ?_
    · rw [List.map_id, hlength] at hself
      exact hself.symm
    · obtain ⟨hk, -⟩ := List.getElem?_eq_some_iff.1 hx
      rw [hlength] at hk
      rw [chunkAligned] at hca
      rw [hmem, hca, Nat.sub_zero, memReadChunk_writeChunks _ _ hmwf hfits hk, List.getD_eq_getElem?_getD, hx]
      rfl
  rw [hout, hemit, hchunks]

/-- Settles O56: READ's rounds load the buffer before they emit it; what WRITE leaves and issues is named by address and
length alone, the buffer apart. -/
theorem onlyStaleSlotsCarryOver : Obligations.OnlyStaleSlotsCarryOver := by
  intro cfg s S address len data h hp hf
  have h' : ({ s with regs := S } : Sys cfg).ready := h.withRegs hp hf
  refine ⟨fun hwf ha => ?_, fun hwf => ?_⟩
  · obtain ⟨-, hlen⟩ := (wellFormed_read_iff _ _).1 hwf
    obtain ⟨t, ht, -, htcalm⟩ := h.exec_read hlen ha
    obtain ⟨u, hu, -, hucalm⟩ := h'.exec_read (address := address) hlen ha
    have hsame : t.calm = withValid s.regs.valid u.calm := by
      rw [htcalm, hucalm]
      exact wholeRead_stale (s := s.calm) (h.fault.trans hf.symm)
    obtain ⟨hregs, htrace, -, hmem, -⟩ := fields_of_calm_eq hsame
    exact ⟨t, u, ht, hu, htrace, hmem, hregs⟩
  · obtain ⟨haddr, hlen, hd, -⟩ := (wellFormed_write_iff _ _ _).1 hwf
    obtain ⟨t, ht, htready, htcmd, htlen, htaddr, htidx, htvalid, -⟩ := writeCompletes cfg s address len data h hwf
    obtain ⟨u, hu, huready, hucmd, hulen, huaddr, huidx, huvalid, -⟩ := writeCompletes cfg _ address len data h' hwf
    obtain ⟨t₁, ht₁, htmem⟩ := h.exec_write_mem haddr hlen hd
    obtain ⟨u₁, hu₁, humem⟩ := h'.exec_write_mem haddr hlen hd
    obtain ⟨t₂, ht₂, htheads⟩ := h.exec_write_heads hwf
    obtain ⟨u₂, hu₂, huheads⟩ := h'.exec_write_heads hwf
    obtain rfl := exec_next_unique ht ht₁
    obtain rfl := exec_next_unique hu hu₁
    obtain rfl := exec_next_unique ht ht₂
    obtain rfl := exec_next_unique hu hu₂
    refine ⟨t, u, ht, hu, htmem.trans humem.symm, ?_, htheads.trans huheads.symm⟩
    exact regs_eq_withBody (htready.phase.trans huready.phase.symm)
      (BitVec.eq_of_toNat_eq (htcmd.trans hucmd.symm)) (BitVec.eq_of_toNat_eq (htaddr.trans huaddr.symm))
      (htlen.trans hulen.symm) (htvalid.trans huvalid.symm) (Fin.ext (htidx.trans huidx.symm))
      (htready.fault.trans huready.fault.symm)
end
